-- ==== Sys2Proof/Word.lean ====
section
/-! DEFINITION. The word types of the core (00_scope.md R8, R9; 30_encoding.md R93 to R95; 10_state.md
section 5). A bit vector stands for what the spec treats as bits: a floating-point bit pattern, a command word,
a handle, a register address, a bus datum. Counts and element indices are natural numbers. -/

namespace Sys2Proof

/-- An IEEE 754 binary64 bit pattern (00_scope.md R8, 30_encoding.md R94). -/
abbrev F64 := BitVec 64

/-- An IEEE 754 binary32 bit pattern (00_scope.md R8, 30_encoding.md R94). -/
abbrev F32 := BitVec 32

/-- A 32-bit command word (30_encoding.md R90). -/
abbrev CmdWord := BitVec 32

/-- A buffer handle: bit 31 the space, bits 30:0 the base element (30_encoding.md R93). -/
abbrev Handle := BitVec 32

/-- A bus-register address, 4 bits (10_state.md section 5). -/
abbrev RegAddr := BitVec 4

/-- The 64-bit data of the register bus (10_state.md section 5). -/
abbrev BusData := BitVec 64

end Sys2Proof
end

