-- ==== Sys2Proof/Machine/Float.lean ====
section
/-! DEFINITION. IEEE 754 binary64 and binary32 arithmetic on bit patterns (40_numerics.md R120 to R127,
30_encoding.md R94). Every operation forms the exact result as a sign, a natural significand and an integer
exponent, and rounds it once, to nearest with ties to even. An operation whose result is a NaN returns the NaN
it is given as `nan`: which NaN that is, the caller draws (R123). -/

namespace Sys2Proof.Machine

/-- A binary interchange format: its fraction and exponent widths (30_encoding.md R94). -/
structure Fmt where
  fracBits : Nat
  expBits : Nat
deriving DecidableEq, Repr

/-- F64: 52 fraction bits, 11 exponent bits (40_numerics.md R120). -/
def binary64 : Fmt := ⟨52, 11⟩

/-- F32: 23 fraction bits, 8 exponent bits (40_numerics.md R121). -/
def binary32 : Fmt := ⟨23, 8⟩

/-- The weight of the sign bit in a pattern read as a number. -/
def signWeight (f : Fmt) : Nat := 2 ^ (f.fracBits + f.expBits)

/-- The magnitude bits (all but the sign) of infinity: exponent field all ones, fraction 0 (R94). -/
def infMag (f : Fmt) : Nat := (2 ^ f.expBits - 1) * 2 ^ f.fracBits

/-- The exponent of the last place of a subnormal: 1 minus the bias minus the fraction width (R94). -/
def minExp (f : Fmt) : Int := 2 - (2 ^ (f.expBits - 1) : Nat) - (f.fracBits : Nat)

/-- The magnitude bits of a pattern. -/
def magOf (f : Fmt) (x : Nat) : Nat := x % signWeight f

/-- The sign bit of a pattern: true for negative. -/
def negOf (f : Fmt) (x : Nat) : Bool := decide (signWeight f ≤ x)

/-- A pattern from a sign and magnitude bits. -/
def assemble (f : Fmt) (neg : Bool) (mag : Nat) : Nat := (if neg then signWeight f else 0) + mag

/-- What a bit pattern stands for (R94): `num neg sig exp` is the number (-1)^neg * sig * 2^exp. -/
inductive Value where
  | nan
  | inf (neg : Bool)
  | num (neg : Bool) (sig : Nat) (exp : Int)
deriving DecidableEq, Repr

/-- The value of a bit pattern; exponent field 0 is zero or a subnormal, all ones an infinity or a NaN (R94). -/
def valueOf (f : Fmt) (x : Nat) : Value :=
  let mag := magOf f x
  if infMag f < mag then .nan
  else if mag = infMag f then .inf (negOf f x)
  else if mag < 2 ^ f.fracBits then .num (negOf f x) mag (minExp f)
  else .num (negOf f x) (2 ^ f.fracBits + mag % 2 ^ f.fracBits)
    (minExp f + ((mag / 2 ^ f.fracBits - 1 : Nat) : Int))

/-- A significand divided by 2^sh, rounded to nearest, ties to even (R120). -/
def roundShift (sig sh : Nat) : Nat :=
  let rem := sig % 2 ^ sh
  let quo := sig / 2 ^ sh
  if 2 ^ sh < 2 * rem ∨ (2 ^ sh = 2 * rem ∧ quo % 2 = 1) then quo + 1 else quo

/-- The exponent of the last place of the format's number nearest to sig * 2^exp. -/
def lastPlace (f : Fmt) (sig : Nat) (exp : Int) : Int :=
  max (exp + (Nat.log2 sig : Nat) - (f.fracBits : Nat)) (minExp f)

/-- The magnitude bits of sig * 2^exp rounded once, to nearest, ties to even; overflow goes to infinity
(R120, R124). -/
def roundMag (f : Fmt) (sig : Nat) (exp : Int) : Nat :=
  if sig = 0 then 0
  else
    let q := lastPlace f sig exp
    let n := if q ≤ exp then sig * 2 ^ (exp - q).toNat else roundShift sig (q - exp).toNat
    min ((q - minExp f).toNat * 2 ^ f.fracBits + n) (infMag f)

/-- A signed integer from a sign and a magnitude. -/
def signed (neg : Bool) (n : Nat) : Int := if neg then -(n : Int) else n

/-- The sum of two patterns (R120, R123, R124): an exact zero sum is +0.0 unless both addends are negative. -/
def addPattern (f : Fmt) (nan x y : Nat) : Nat :=
  match valueOf f x, valueOf f y with
  | .nan, _ => nan
  | .inf _, .nan => nan
  | .inf a, .inf b => if a = b then assemble f a (infMag f) else nan
  | .inf a, .num _ _ _ => assemble f a (infMag f)
  | .num _ _ _, .nan => nan
  | .num _ _ _, .inf b => assemble f b (infMag f)
  | .num a m e, .num b n g =>
    let lo := min e g
    let s := signed a (m * 2 ^ (e - lo).toNat) + signed b (n * 2 ^ (g - lo).toNat)
    if s = 0 then assemble f (a && b) 0
    else assemble f (decide (s < 0)) (roundMag f s.natAbs lo)

/-- A pattern with its sign bit flipped. -/
def flipSign (f : Fmt) (x : Nat) : Nat :=
  if negOf f x then x - signWeight f else x + signWeight f

/-- The difference of two patterns: the sum with the second one's sign flipped. -/
def subPattern (f : Fmt) (nan x y : Nat) : Nat := addPattern f nan x (flipSign f y)

/-- The product of two patterns (R120, R123, R124). -/
def mulPattern (f : Fmt) (nan x y : Nat) : Nat :=
  match valueOf f x, valueOf f y with
  | .nan, _ => nan
  | .inf _, .nan => nan
  | .inf a, .inf b => assemble f (a != b) (infMag f)
  | .inf a, .num b n _ => if n = 0 then nan else assemble f (a != b) (infMag f)
  | .num _ _ _, .nan => nan
  | .num a m _, .inf b => if m = 0 then nan else assemble f (a != b) (infMag f)
  | .num a m e, .num b n g => assemble f (a != b) (roundMag f (m * n) (e + g))

/-- The quotient m/n scaled by 2^sh, with one more bit that says whether a remainder is left, so that rounding
it once gives the quotient rounded once. -/
def stickyQuotient (m n sh : Nat) : Nat :=
  2 * (m * 2 ^ sh / n) + (if m * 2 ^ sh % n = 0 then 0 else 1)

/-- The quotient of two patterns (R120, R123, R124). -/
def divPattern (f : Fmt) (nan x y : Nat) : Nat :=
  match valueOf f x, valueOf f y with
  | .nan, _ => nan
  | .inf _, .nan => nan
  | .inf _, .inf _ => nan
  | .inf a, .num b _ _ => assemble f (a != b) (infMag f)
  | .num _ _ _, .nan => nan
  | .num a _ _, .inf b => assemble f (a != b) 0
  | .num a m e, .num b n g =>
    if n = 0 then (if m = 0 then nan else assemble f (a != b) (infMag f))
    else
      let sh := 2 * f.fracBits + 4
      assemble f (a != b) (roundMag f (stickyQuotient m n sh) (e - g - (sh : Nat) - 1))

/-- floor of a pattern, exact (R126). -/
def floorPattern (f : Fmt) (nan x : Nat) : Nat :=
  match valueOf f x with
  | .nan => nan
  | .inf _ => x
  | .num neg m e =>
    if 0 ≤ e then x
    else
      let unit := 2 ^ (-e).toNat
      if neg then assemble f true (roundMag f ((m + (unit - 1)) / unit) 0)
      else assemble f false (roundMag f (m / unit) 0)

/-- A pattern of one format as the nearest pattern of another (R127). -/
def convertPattern (f g : Fmt) (nan x : Nat) : Nat :=
  match valueOf f x with
  | .nan => nan
  | .inf a => assemble g a (infMag g)
  | .num a m e => assemble g a (roundMag g m e)

/-- The integer a finite integral pattern stands for (R127: toInt is applied to no other). -/
def intOfPattern (f : Fmt) (x : Nat) : Int :=
  match valueOf f x with
  | .nan => 0
  | .inf _ => 0
  | .num neg m e => signed neg (if 0 ≤ e then m * 2 ^ e.toNat else m / 2 ^ (-e).toNat)

/-- The place of a non-NaN pattern in the order of the numbers: the magnitude bits, negated for a negative one
(so that -0.0 and +0.0 have the same place, R125). -/
def orderKey (f : Fmt) (x : Nat) : Int := signed (negOf f x) (magOf f x)

/-- A pattern is a NaN (R94). -/
def isNaNPattern (f : Fmt) (x : Nat) : Bool := decide (infMag f < magOf f x)

/-- A pattern is finite: neither an infinity nor a NaN (00_scope.md R13). -/
def isFinitePattern (f : Fmt) (x : Nat) : Bool := decide (magOf f x < infMag f)

/-- x < y, false when either is a NaN (R125). -/
def ltPattern (f : Fmt) (x y : Nat) : Bool :=
  !isNaNPattern f x && !isNaNPattern f y && decide (orderKey f x < orderKey f y)

/-- x <= y, false when either is a NaN (R125). -/
def lePattern (f : Fmt) (x y : Nat) : Bool :=
  !isNaNPattern f x && !isNaNPattern f y && decide (orderKey f x ≤ orderKey f y)

/-! ## binary64 -/

/-- +0.0. -/
def f64Zero : F64 := 0x0000000000000000#64
/-- 1.0. -/
def f64One : F64 := 0x3FF0000000000000#64

/-- `a + b` on F64 (R120). -/
def f64Add (nan a b : F64) : F64 := BitVec.ofNat 64 (addPattern binary64 nan.toNat a.toNat b.toNat)
/-- `a - b` on F64 (R120). -/
def f64Sub (nan a b : F64) : F64 := BitVec.ofNat 64 (subPattern binary64 nan.toNat a.toNat b.toNat)
/-- `a * b` on F64 (R120). -/
def f64Mul (nan a b : F64) : F64 := BitVec.ofNat 64 (mulPattern binary64 nan.toNat a.toNat b.toNat)
/-- `a / b` on F64 (R120). -/
def f64Div (nan a b : F64) : F64 := BitVec.ofNat 64 (divPattern binary64 nan.toNat a.toNat b.toNat)
/-- floor on F64 (R126). -/
def f64Floor (nan a : F64) : F64 := BitVec.ofNat 64 (floorPattern binary64 nan.toNat a.toNat)
/-- `a < b` on F64 (R125). -/
def f64Lt (a b : F64) : Bool := ltPattern binary64 a.toNat b.toNat
/-- `a <= b` on F64 (R125). -/
def f64Le (a b : F64) : Bool := lePattern binary64 a.toNat b.toNat
/-- `a` is a NaN. -/
def f64IsNaN (a : F64) : Bool := isNaNPattern binary64 a.toNat
/-- isFinite (00_scope.md R13). -/
def f64IsFinite (a : F64) : Bool := isFinitePattern binary64 a.toNat
/-- toInt of a finite integral value (R127). -/
def f64ToInt (a : F64) : Int := intOfPattern binary64 a.toNat
/-- toF64 of a natural number below 2^53, exact (R127). -/
def f64OfNat (n : Nat) : F64 := BitVec.ofNat 64 (roundMag binary64 n 0)

/-! ## binary32 -/

/-- +0.0. -/
def f32Zero : F32 := 0x00000000#32
/-- 1.0. -/
def f32One : F32 := 0x3F800000#32

/-- `a + b` on F32 (R121). -/
def f32Add (nan a b : F32) : F32 := BitVec.ofNat 32 (addPattern binary32 nan.toNat a.toNat b.toNat)
/-- `a - b` on F32 (R121). -/
def f32Sub (nan a b : F32) : F32 := BitVec.ofNat 32 (subPattern binary32 nan.toNat a.toNat b.toNat)
/-- `a * b` on F32 (R121). -/
def f32Mul (nan a b : F32) : F32 := BitVec.ofNat 32 (mulPattern binary32 nan.toNat a.toNat b.toNat)
/-- floor on F32 (R126). -/
def f32Floor (nan a : F32) : F32 := BitVec.ofNat 32 (floorPattern binary32 nan.toNat a.toNat)
/-- `a < b` on F32 (R125). -/
def f32Lt (a b : F32) : Bool := ltPattern binary32 a.toNat b.toNat
/-- `a <= b` on F32 (R125). -/
def f32Le (a b : F32) : Bool := lePattern binary32 a.toNat b.toNat
/-- `a` is a NaN. -/
def f32IsNaN (a : F32) : Bool := isNaNPattern binary32 a.toNat
/-- isFinite on F32. -/
def f32IsFinite (a : F32) : Bool := isFinitePattern binary32 a.toNat

/-! ## between the formats -/

/-- widen: F32 to F64, exact (R127). -/
def f64OfF32 (nan : F64) (a : F32) : F64 :=
  BitVec.ofNat 64 (convertPattern binary32 binary64 nan.toNat a.toNat)
/-- round32: F64 to F32, one rounding (R127). -/
def f32OfF64 (nan : F32) (a : F64) : F32 :=
  BitVec.ofNat 32 (convertPattern binary64 binary32 nan.toNat a.toNat)

/-! ## the numbers patterns stand for, in units -/

/-- The magnitude of a pattern's magnitude bits, in units of the least subnormal (30_encoding.md R94). For the
magnitude bits of infinity it is the power of two that would come after the largest number. -/
def magUnits (f : Fmt) (mag : Nat) : Nat :=
  if mag / 2 ^ f.fracBits = 0 then mag
  else (2 ^ f.fracBits + mag % 2 ^ f.fracBits) * 2 ^ (mag / 2 ^ f.fracBits - 1)

/-- The number a finite pattern stands for, in units of the least subnormal (30_encoding.md R94). -/
def unitsOf (f : Fmt) (x : Nat) : Int := signed (negOf f x) (magUnits f (magOf f x))

/-- The units of a binary64 pattern: multiples of 2^-1074. -/
def f64Units (a : F64) : Int := unitsOf binary64 a.toNat

/-- The units of a binary32 pattern: multiples of 2^-149. -/
def f32Units (a : F32) : Int := unitsOf binary32 a.toNat

/-- One, in units of the least subnormal: the weight that scales a product or a quotient. -/
def oneUnits (f : Fmt) : Nat := 2 ^ (-(minExp f)).toNat

end Sys2Proof.Machine
end

