-- ==== Sys2Proof/Machine/Draw.lean ====
section
/-! DEFINITION. Values made from draws (00_scope.md R13, 40_numerics.md R123). A draw stream gives one
unconstrained 64-bit pattern for each site of a group of evaluations; which NaN a NaN result is, is such a draw
made to be a NaN. -/

namespace Sys2Proof.Machine

/-- One group of draws: an unconstrained pattern for each site (00_scope.md R13). -/
abbrev Draws := Nat → F64

/-- A drawn binary64 NaN: the pattern drawn, if it is a NaN. Every NaN pattern can result (R123). -/
def nanOf64 (r : F64) : F64 := if f64IsNaN r then r else 0x7FF8000000000000#64

/-- A drawn binary32 pattern: the low half of a drawn binary64 pattern. -/
def draw32 (r : F64) : F32 := r.setWidth 32

/-- A drawn binary32 NaN. Every NaN pattern can result (R123). -/
def nanOf32 (r : F64) : F32 := if f32IsNaN (draw32 r) then draw32 r else 0x7FC00000#32

/-- A value drawn from 0 .. n. Each of them can result, for n < 2^64. -/
def drawUpTo (r : F64) (n : Nat) : Nat := r.toNat % (n + 1)

end Sys2Proof.Machine
end

