-- ==== Sys2Proof/Config.lean ====
section
/-! DEFINITION. The parameter record of 00_scope.md R7 (`Params`), the constraints the spec puts on it
(`Params.Valid`), and the record of the modelled instance (`Config.params`). A parameter the spec gives a value
has it here; a parameter the spec leaves OPEN is an uninterpreted constant, brought by a total function onto the
values its constraint allows, so that nothing can be proved of it but the constraint. The meanings take the record
as an argument: a statement can be about every instance, or about this one. -/

namespace Sys2Proof

open Machine

/-- WRAP_MODE: which comparison operators the index wrap uses (00_scope.md R7, 43_interpolated_read.md R193,
R194). -/
inductive WrapMode where
  | asSource
  | corrected
deriving DecidableEq, Repr

/-- OOR_POLICY: what a RING read at an index outside [0, CAP) returns (00_scope.md R7, 20_memory.md R78). -/
inductive OorPolicy where
  | draw
  | modulo
deriving DecidableEq, Repr

/-- BYTE_ORDER: where a platform maps elements to bytes; not observable inside the core (20_memory.md R66). -/
inductive ByteOrder where
  | little
  | big
deriving DecidableEq, Repr

/-- SOFTCLIP, an open configuration function of (x, drive) (40_numerics.md R131): the default instance
TANH(drive * x) / TANH(drive), a function of the implementation's, or the test instance SOFTCLIP_ID, which gives x
for every drive and "is not offered as the hardware's clipper". -/
inductive SoftclipImpl where
  | tanhRatio
  | configured (f : F64 → F64 → F64)
  | identity

/-- WAVE, an open configuration function (40_numerics.md R136): the default instance
round32(sin(2 * pi * widen(p))), or a function of the implementation's. -/
inductive WaveImpl where
  | sine
  | configured (f : F32 → F32)

/-- The parameter record (00_scope.md R7), with the configuration functions and the values `draw` returns, which
R16 lists as arguments of the step relation too. `draw n k` is the pattern drawn at site k of the n-th group of
draws. -/
structure Params where
  /-- CAP: the element count of RING and of LFOBUF. -/
  cap : Nat
  /-- XMEM_SIZE: the element count of XMEM. -/
  xmemSize : Nat
  /-- SR_UNCONF: the sentinel of an unconfigured sample rate. -/
  srUnconf : F64
  /-- K_FINE: the fine one-pole coefficient. -/
  kFine : F64
  /-- K_GENERIC: the slower one-pole coefficient. -/
  kGeneric : F64
  /-- FB_CLAMP: the upper clamp of feedbackSmoothed. -/
  fbClamp : F64
  /-- FB_GAIN_MAX: the top of the effective feedback-gain range. -/
  fbGainMax : F64
  /-- BASE_DELAY_S: the fixed base delay, in seconds. -/
  baseDelayS : F64
  /-- MOD_DEPTH_S: seconds per unit of modulation. -/
  modDepthS : F64
  /-- DRIVE_MAX: the top of the drive range. -/
  driveMax : F64
  /-- SC_FLOOR: what softClipSmoothed becomes on DLY.RESET. -/
  scFloor : F64
  /-- SC_POWERON: softClipSmoothed after hardware reset. -/
  scPowerOn : F64
  /-- SOFTCLIP. -/
  softclip : SoftclipImpl
  /-- TANH, used by the default SOFTCLIP (40_numerics.md R132). -/
  tanh : F64 → F64
  /-- TANH_ULP: the largest error of TANH against the real tanh, in units in the last place; it only qualifies
  test vectors, and no meaning reads it. -/
  tanhUlp : NNReal
  /-- WAVE. -/
  wave : WaveImpl
  /-- The sine of the default WAVE (40_numerics.md R136). -/
  sin : F64 → F64
  /-- WRAP_MODE. -/
  wrapMode : WrapMode
  /-- OOR_POLICY. -/
  oorPolicy : OorPolicy
  /-- BYTE_ORDER. -/
  byteOrder : ByteOrder
  /-- The values `draw` returns (00_scope.md R13, R16). -/
  draw : Nat → Draws

/-- 0 < K <= 1, the constraint on K_FINE and K_GENERIC (00_scope.md R7). -/
def validCoefficient (k : F64) : Bool := f64Lt f64Zero k && f64Le k f64One

/-- |r| <= 1 on F64 (an infinity or a NaN is not). -/
def unitBounded64 (r : F64) : Bool := f64Le 0xBFF0000000000000#64 r && f64Le r f64One

/-- |r| <= 1 on F32. -/
def unitBounded32 (r : F32) : Bool := f32Le 0xBF800000#32 r && f32Le r f32One

/-- A drive at which S2 of SOFTCLIP promises a bound: finite and not zero (40_numerics.md R131). -/
def finiteNonzero (drive : F64) : Bool := f64IsFinite drive && (f64Lt drive f64Zero || f64Lt f64Zero drive)

/-- What 40_numerics.md R131 lets a model assume of a configured SOFTCLIP. -/
structure SoftclipLaws (f : F64 → F64 → F64) : Prop where
  /-- S2: at a finite non-zero drive the result for a non-NaN x is finite. (A finite bound for each drive exists
  exactly when all results are finite, because there are finitely many patterns.) -/
  bounded : ∀ x drive : F64, f64IsNaN x = false → finiteNonzero drive = true → f64IsFinite (f x drive) = true
  /-- S3: a NaN for a NaN argument. -/
  nan : ∀ x drive : F64, (f64IsNaN x || f64IsNaN drive) = true → f64IsNaN (f x drive) = true

/-- |WAVE(p)| <= 1 (40_numerics.md R136, D21): a NaN for a NaN, otherwise a number of magnitude at most 1; for an
infinite p, of which R136 says nothing, also a NaN. -/
abbrev WaveBounded (f : F32 → F32) : Prop :=
  ∀ p : F32, (if f32IsNaN p then f32IsNaN (f p)
    else unitBounded32 (f p) || (f32IsNaN (f p) && !f32IsFinite p)) = true

/-- WAVE has period 1 on the reals (40_numerics.md R136, D21): at two finite phases that differ by an integer its
numbers agree. Two patterns differ by an integer only where no rounding came between them. -/
abbrev WavePeriodic (f : F32 → F32) : Prop :=
  ∀ p q : F32, f32IsFinite p = true → f32IsFinite q = true →
    (oneUnits binary32 : Int) ∣ f32Units q - f32Units p → f32Units (f q) = f32Units (f p)

/-- What 40_numerics.md R136 lets a model assume of a configured WAVE. -/
structure WaveLaws (f : F32 → F32) : Prop where
  bounded : WaveBounded f
  periodic : WavePeriodic f

/-- The sine of the default WAVE has magnitude at most 1 (40_numerics.md R136); of an infinity it may be a NaN. -/
def SinBounded (f : F64 → F64) : Prop :=
  ∀ x : F64, f64IsNaN x = false → (unitBounded64 (f x) || (f64IsNaN (f x) && !f64IsFinite x)) = true

/-- TANH(NaN) is a NaN, and otherwise |TANH(x)| <= 1 (40_numerics.md R132). -/
abbrev TanhBounded (f : F64 → F64) : Prop :=
  ∀ x : F64, (if f64IsNaN x then f64IsNaN (f x) else unitBounded64 (f x)) = true

/-- TANH(-x) = -TANH(x) (40_numerics.md R132). -/
abbrev TanhOdd (f : F64 → F64) : Prop :=
  ∀ x : F64, f64IsNaN x = false → f (x ^^^ 0x8000000000000000#64) = f x ^^^ 0x8000000000000000#64

/-- TANH is non-decreasing (40_numerics.md R132). -/
abbrev TanhMonotone (f : F64 → F64) : Prop := ∀ x y : F64, f64Le x y = true → f64Le (f x) (f y) = true

/-- TANH(+0.0) = +0.0 and TANH(-0.0) = -0.0 (40_numerics.md R132). -/
abbrev TanhAtZero (f : F64 → F64) : Prop :=
  f f64Zero = f64Zero ∧ f 0x8000000000000000#64 = 0x8000000000000000#64

/-- TANH(+infinity) = 1.0 and TANH(-infinity) = -1.0 (40_numerics.md R132). -/
abbrev TanhAtInfinity (f : F64 → F64) : Prop :=
  f 0x7FF0000000000000#64 = f64One ∧ f 0xFFF0000000000000#64 = 0xBFF0000000000000#64

/-- TANH(x) is not 0 for x not 0 (40_numerics.md R132). -/
abbrev TanhNonzero (f : F64 → F64) : Prop :=
  ∀ x : F64, f64IsNaN x = false → f64Units (f x) = 0 → f64Units x = 0

/-- What 40_numerics.md R132 requires of TANH. -/
structure TanhLaws (f : F64 → F64) : Prop where
  bounded : TanhBounded f
  odd : TanhOdd f
  monotone : TanhMonotone f
  atZero : TanhAtZero f
  atInfinity : TanhAtInfinity f
  nonzero : TanhNonzero f

/-- The constraints of 00_scope.md R7 and 92_eei_decisions.md part 2 on a parameter record. That TANH_ULP is at
least 0 is in its type; that TANH is as near to the real tanh as it says is `TanhAccurate`, which no meaning
needs (log entry 25). The default WAVE is its formula, and WavePeriodic is asked of a configured one only (log entry
10). -/
structure Params.Valid (P : Params) : Prop where
  cap_pos : 1 ≤ P.cap
  cap_le : P.cap ≤ 2 ^ 31 - 1
  xmemSize_le : P.xmemSize ≤ 2 ^ 31
  srUnconf : P.srUnconf = 0xBFF0000000000000#64
  kFine : validCoefficient P.kFine = true
  kGeneric : validCoefficient P.kGeneric = true
  fbClamp : P.fbClamp = f64One
  fbGainMax : P.fbGainMax = 0x3FEFAE147AE147AE#64
  modDepthS : f64IsFinite P.modDepthS = true
  driveMax : P.driveMax = 0x4024000000000000#64
  scFloor : f64Lt f64Zero P.scFloor = true
  scPowerOn : P.scPowerOn = f64Zero ∨ P.scPowerOn = P.scFloor
  softclip : ∀ f, P.softclip = .configured f → SoftclipLaws f
  /-- The test instance SOFTCLIP_ID is not the hardware's clipper (40_numerics.md R131). -/
  softclipHardware : P.softclip ≠ .identity
  tanh : TanhLaws P.tanh
  wave : ∀ f, P.wave = .configured f → WaveLaws f
  sin : SinBounded P.sin

namespace Config

/-! The uninterpreted constants: one for each OPEN parameter of 00_scope.md R7, one for the draws. -/

/-- CAP is OPEN (D35). -/
opaque capRaw : Nat
/-- XMEM_SIZE is OPEN (D4). -/
opaque xmemSizeRaw : Nat
/-- K_FINE is OPEN (D7). -/
opaque kFineRaw : F64
/-- K_GENERIC is OPEN (D7). -/
opaque kGenericRaw : F64
/-- MOD_DEPTH_S is OPEN (D10). -/
opaque modDepthRaw : F64
/-- SC_FLOOR is OPEN (D18). -/
opaque scFloorRaw : F64
/-- SC_POWERON is OPEN: +0.0 or SC_FLOOR (D18). -/
opaque scPowerOnIsFloor : Bool
/-- SOFTCLIP is OPEN (D11): whether it is the default instance. -/
opaque softclipIsDefault : Bool
/-- SOFTCLIP is OPEN (D11): the function, where it is not the default instance. -/
opaque softclipRaw : F64 → F64 → F64
/-- TANH is OPEN (D11). -/
opaque tanhRaw : F64 → F64
/-- TANH_ULP is OPEN, any real number at least 0 (D11). -/
opaque tanhUlp : NNReal
/-- WAVE is OPEN (D21): whether it is the default instance. -/
opaque waveIsDefault : Bool
/-- WAVE is OPEN (D21): the function, where it is not the default instance. -/
opaque waveRaw : F32 → F32
/-- The sine of the default WAVE has unstated accuracy (40_numerics.md R136). -/
opaque sinRaw : F64 → F64
/-- The free values: `draw n k` is unconstrained and chosen anew for each n and k (00_scope.md R13). -/
opaque draw : Nat → Nat → F64

/-- 1 <= CAP <= 2^31 - 1 (00_scope.md R7): every such value is possible. -/
def cap : Nat := capRaw % (2 ^ 31 - 1) + 1

/-- 0 <= XMEM_SIZE <= 2^31 (00_scope.md R7): every such value is possible. -/
def xmemSize : Nat := xmemSizeRaw % (2 ^ 31 + 1)

/-- A coefficient with 0 < K <= 1 (00_scope.md R7). -/
def coefficient (raw : F64) : F64 := if validCoefficient raw then raw else f64One

/-- A finite MOD_DEPTH_S (92_eei_decisions.md part 2). -/
def modDepthS : F64 := if f64IsFinite modDepthRaw then modDepthRaw else f64Zero

/-- SC_FLOOR > 0 (00_scope.md R7). -/
def scFloor : F64 := if f64Lt f64Zero scFloorRaw then scFloorRaw else f64One

/-- A SOFTCLIP with properties S2 and S3 (40_numerics.md R131): every such function is possible. -/
def softclip (x drive : F64) : F64 :=
  if f64IsNaN x || f64IsNaN drive then nanOf64 (softclipRaw x drive)
  else if finiteNonzero drive && !f64IsFinite (softclipRaw x drive) then f64Zero
  else softclipRaw x drive

/-- The sign of x, itself a zero at a zero and a NaN at a NaN: a function with the laws of TANH. -/
def tanhSign (x : F64) : F64 :=
  if f64IsNaN x || f64Units x = 0 then x else if x.msb then 0xBFF0000000000000#64 else f64One

/-- TANH (40_numerics.md R132): the uninterpreted function, where it has the laws R132 requires. Every function
with the laws is possible. -/
@[irreducible] def tanh (x : F64) : F64 :=
  if TanhBounded tanhRaw ∧ TanhOdd tanhRaw ∧ TanhMonotone tanhRaw ∧ TanhAtZero tanhRaw ∧ TanhAtInfinity tanhRaw ∧
    TanhNonzero tanhRaw then tanhRaw x
  else tanhSign x

/-- A configured WAVE (40_numerics.md R136): the uninterpreted function, where it has the laws R136 lets a model
assume, and otherwise the constant 0 with a NaN at a NaN. Every function with the laws is possible. -/
@[irreducible] def wave (p : F32) : F32 :=
  if WaveBounded waveRaw ∧ WavePeriodic waveRaw then waveRaw p else if f32IsNaN p then p else f32Zero

/-- A sine of magnitude at most 1 (40_numerics.md R136). -/
def sin (x : F64) : F64 :=
  if unitBounded64 (sinRaw x) || (f64IsNaN (sinRaw x) && !f64IsFinite x) then sinRaw x else f64Zero

/-- The parameter record of the modelled instance (00_scope.md R7): the values the spec fixes, WRAP_MODE
`as_source` (normative) and OOR_POLICY `draw` (the only one a model may rely on), the rest open. -/
def params : Params where
  cap := cap
  xmemSize := xmemSize
  srUnconf := 0xBFF0000000000000#64
  kFine := coefficient kFineRaw
  kGeneric := coefficient kGenericRaw
  fbClamp := f64One
  fbGainMax := 0x3FEFAE147AE147AE#64
  baseDelayS := 0x3F689374BC6A7EFA#64
  modDepthS := modDepthS
  driveMax := 0x4024000000000000#64
  scFloor := scFloor
  scPowerOn := if scPowerOnIsFloor then scFloor else f64Zero
  softclip := if softclipIsDefault then .tanhRatio else .configured softclip
  tanh := tanh
  tanhUlp := tanhUlp
  wave := if waveIsDefault then .sine else .configured wave
  sin := sin
  wrapMode := .asSource
  oorPolicy := .draw
  byteOrder := .little
  draw := draw

end Config

end Sys2Proof
end

