-- ==== Sys2Proof/Machine/Numerics.lean ====
section
/-! DEFINITION. The named numeric functions of 40_numerics.md (R128 to R137). Every operation that can return a
NaN has a site in the group of draws δ that picks which NaN (R123); a function of several operations uses
consecutive sites from `k` on. -/

namespace Sys2Proof.Machine

/-- The NaN drawn at a site. -/
def nan64 (δ : Draws) (k : Nat) : F64 := nanOf64 (δ k)

/-- The binary32 NaN drawn at a site. -/
def nan32 (δ : Draws) (k : Nat) : F32 := nanOf32 (δ k)

/-- SMOOTH(s, x, K) = s + K * (x - s), three operations in the order subtract, multiply, add (R128). -/
def smooth (δ : Draws) (k : Nat) (s x coef : F64) : F64 :=
  let e := f64Sub (nan64 δ k) x s
  let p := f64Mul (nan64 δ (k + 1)) coef e
  f64Add (nan64 δ (k + 2)) s p

/-- CLAMP_HI(v) = if v > FB_CLAMP then FB_CLAMP else v; a NaN passes through unchanged (R129). -/
def clampHi (P : Params) (v : F64) : F64 := if f64Lt P.fbClamp v then P.fbClamp else v

/-- MAPFB(v) = v * FB_GAIN_MAX (R130). -/
def mapFb (P : Params) (δ : Draws) (k : Nat) (v : F64) : F64 := f64Mul (nan64 δ k) v P.fbGainMax

/-- MAPDRIVE(v) = v * DRIVE_MAX (R130). -/
def mapDrive (P : Params) (δ : Draws) (k : Nat) (v : F64) : F64 := f64Mul (nan64 δ k) v P.driveMax

/-- A result that must be a NaN when `bad` holds, and whose NaN is drawn whenever it is one (R123). -/
def settleNaN (drawn : F64) (bad : Bool) (r : F64) : F64 := if bad || f64IsNaN r then nanOf64 drawn else r

/-- TANH(x); TANH(NaN) is a NaN (R132). -/
def tanhOp (P : Params) (δ : Draws) (k : Nat) (x : F64) : F64 := settleNaN (δ k) (f64IsNaN x) (P.tanh x)

/-- SOFTCLIP(x, drive) (R131). The default instance is TANH(drive * x) / TANH(drive), a multiplication, two TANH
evaluations and a division; a configured function is NaN when an argument is (S3). Sites k to k + 3.
R131 leaves two of its sentences at odds at a NaN drive: S3 asks a NaN of every SOFTCLIP, while SOFTCLIP_ID, "no
operation", gives x whatever the drive. DESIGN CHOICE (log entry 9): the test instance is a constructor of its own
and gives x at every drive, a NaN drive included; a configured function is held to S3, so that x for every drive
written as a configured function would be a NaN at a NaN drive. -/
def softClip (P : Params) (δ : Draws) (k : Nat) (x drive : F64) : F64 :=
  match P.softclip with
  | .tanhRatio =>
    let p := f64Mul (nan64 δ k) drive x
    f64Div (nan64 δ (k + 3)) (tanhOp P δ (k + 1) p) (tanhOp P δ (k + 2) drive)
  | .configured f => settleNaN (δ k) (f64IsNaN x || f64IsNaN drive) (f x drive)
  | .identity => x

/-- LERP(a, b, t) = a * (1.0 - t) + b * t, four operations (R133). Sites k to k + 3. -/
def lerp (δ : Draws) (k : Nat) (a b t : F64) : F64 :=
  let u := f64Sub (nan64 δ k) f64One t
  let p := f64Mul (nan64 δ (k + 1)) a u
  let q := f64Mul (nan64 δ (k + 2)) b t
  f64Add (nan64 δ (k + 3)) p q

/-- XFADE(dry, wet, m) = dry * (1.0 - m) + wet * m, four operations (R134). Sites k to k + 3. -/
def xfade (δ : Draws) (k : Nat) (dry wet m : F64) : F64 :=
  let u := f64Sub (nan64 δ k) f64One m
  let p := f64Mul (nan64 δ (k + 1)) dry u
  let q := f64Mul (nan64 δ (k + 2)) wet m
  f64Add (nan64 δ (k + 3)) p q

/-- 2 * pi as binary64: the nearest pattern to pi, doubled (R136; log entry 10). -/
def f64TwoPi : F64 := 0x401921FB54442D18#64

/-- A binary32 result that must be a NaN when `bad` holds, and whose NaN is drawn whenever it is one (R123). -/
def settleNaN32 (drawn : F64) (bad : Bool) (r : F32) : F32 := if bad || f32IsNaN r then nanOf32 drawn else r

/-- WAVE(p) (R136). The default instance is round32(sin(2 * pi * widen(p))), the product and the sine in F64; a
configured function is NaN for a NaN. Sites k to k + 3. -/
def waveOp (P : Params) (δ : Draws) (k : Nat) (p : F32) : F32 :=
  match P.wave with
  | .sine =>
    let w := f64OfF32 (nan64 δ k) p
    let a := f64Mul (nan64 δ (k + 1)) f64TwoPi w
    let v := settleNaN (δ (k + 2)) (f64IsNaN a) (P.sin a)
    f32OfF64 (nan32 δ (k + 3)) v
  | .configured f => settleNaN32 (δ k) (f32IsNaN p) (f p)

/-- PHASEWRAP(p): q = p - floor(p); +0.0 if q >= 1.0, else q (R137). Sites k, k + 1. -/
def phaseWrap (δ : Draws) (k : Nat) (p : F32) : F32 :=
  let q := f32Sub (nan32 δ (k + 1)) p (f32Floor (nan32 δ k) p)
  if f32Le f32One q then f32Zero else q

end Sys2Proof.Machine
end

