-- ==== Sys2Proof/Syntax.lean ====
section
/-! DEFINITION. The commands (one constructor for each row of spec/opcode_table.json), the bus registers' names,
the host's moves, and the textual command lines of 30_encoding.md R101 to R103 as data. -/

namespace Sys2Proof

/-- The seven commands (00_scope.md R6, 30_encoding.md R91). A command word carries no operand (R90): every
operand is a bus register latched at issue (R92). -/
inductive Instr where
  /-- DLY.SETSR, 41_delay_control.md R150. -/
  | dlySetsr
  /-- DLY.RESET, 41_delay_control.md R151. -/
  | dlyReset
  /-- DLY.PROC, 42_delay_process.md R160. -/
  | dlyProc
  /-- LFO.SETSR, 44_lfo.md R210. -/
  | lfoSetsr
  /-- LFO.RESET, 44_lfo.md R211. -/
  | lfoReset
  /-- LFO.PROC, 44_lfo.md R212. -/
  | lfoProc
  /-- LFO.GETBUF, 44_lfo.md R216. -/
  | lfoGetbuf
deriving DecidableEq, Repr

/-- The sixteen bus registers (10_state.md R36 to R51). -/
inductive RegName where
  | cmd | status | count | sr | fbBase | fbEnvAmt | wetDry | scAmt
  | hIn | hMod | hEnv | hOut | lfoRate | lfoDepth | lfoPhoff | result
deriving DecidableEq, Repr

/-- A move of the host (00_scope.md R15): what it can do to the core and to XMEM. -/
inductive HostMove where
  /-- A bus write (10_state.md section 5); a write of CMD issues a command (30_encoding.md R100), and the host's
  next move comes after the command has completed. -/
  | writeReg (addr : RegAddr) (data : BusData)
  /-- A write of CMD after which the host's next moves come while the command runs, one sample step at each `wait`:
  the sample as the step (00_scope.md R15). -/
  | startCmd (data : BusData)
  /-- A bus read (20_memory.md R64). -/
  | readReg (addr : RegAddr)
  /-- A write of one XMEM element (20_memory.md R63). -/
  | writeXmem (index : Nat) (value : F64)
  /-- A read of one XMEM element (20_memory.md R63). -/
  | readXmem (index : Nat)
  /-- The input rst is asserted (70_reset_and_hazards.md R260). -/
  | assertReset
  /-- The input rst is released (70_reset_and_hazards.md R260). -/
  | releaseReset
  /-- The host does nothing. -/
  | wait
deriving DecidableEq, Repr

/-- The operand names of a command line (30_encoding.md R101, R102). -/
inductive OperandName where
  | n | sr | fb | fbenv | wet | sc | input | modulation | env | out | rate | depth | phoff
deriving DecidableEq, Repr

/-- One `name=value` pair of a command line, its value as the bits written (30_encoding.md R101). -/
structure LineOperand where
  name : OperandName
  value : BusData
deriving DecidableEq, Repr

/-- One command line: a command and its operands, in any order; an operand left out leaves its register as it is
(30_encoding.md R101). -/
structure CmdLine where
  command : Instr
  operands : List LineOperand
deriving DecidableEq, Repr

/-- The pseudo-instruction CHORUS.BLOCK with its operands (30_encoding.md R103). -/
structure ChorusBlock where
  n : BitVec 32
  input : Handle
  envelope : Handle
  output : Handle
  rate : F32
  depth : F32
  phoff : F32
  fb : F64
  fbenv : F64
  wet : F64
  sc : F64
deriving DecidableEq, Repr

end Sys2Proof
end

