-- ==== Sys2Proof/Decode.lean ====
section
/-! DEFINITION. The command word's decoder, total and rejecting by name, and its encoder (30_encoding.md R90,
R91, R97), the register addresses (10_state.md R36 to R51), and the expansion of command lines into bus writes
(30_encoding.md R102, R103). -/

namespace Sys2Proof

/-- Why a 32-bit word is no command (30_encoding.md R97). -/
inductive DecodeError where
  /-- A bit of the ZERO field [31:8] is set. -/
  | zeroFieldSet
  /-- UNIT is above 1. -/
  | noSuchUnit
  /-- FUNC names no operation of the unit. -/
  | noSuchFunction
deriving DecidableEq, Repr

/-- The ZERO field, word[31:8] (30_encoding.md R90). -/
def zeroField (w : CmdWord) : Nat := w.toNat / 2 ^ 8

/-- The UNIT field, word[7:4] (30_encoding.md R90). -/
def unitField (w : CmdWord) : Nat := w.toNat / 2 ^ 4 % 2 ^ 4

/-- The FUNC field, word[3:0] (30_encoding.md R90). -/
def funcField (w : CmdWord) : Nat := w.toNat % 2 ^ 4

/-- FUNC of the DelayEngine: 1 SETSR, 2 RESET, 3 PROC; it has no GETBUF (30_encoding.md R91, R97). -/
def decodeDly : Nat → Except DecodeError Instr
  | 1 => .ok .dlySetsr
  | 2 => .ok .dlyReset
  | 3 => .ok .dlyProc
  | _ => .error .noSuchFunction

/-- FUNC of the LFO: 1 SETSR, 2 RESET, 3 PROC, 4 GETBUF (30_encoding.md R91). -/
def decodeLfo : Nat → Except DecodeError Instr
  | 1 => .ok .lfoSetsr
  | 2 => .ok .lfoReset
  | 3 => .ok .lfoProc
  | 4 => .ok .lfoGetbuf
  | _ => .error .noSuchFunction

/-- The command a 32-bit word selects, or why it is illegal (30_encoding.md R90, R91, R97). -/
def decode (w : CmdWord) : Except DecodeError Instr :=
  if zeroField w ≠ 0 then .error .zeroFieldSet
  else
    match unitField w with
    | 0 => decodeDly (funcField w)
    | 1 => decodeLfo (funcField w)
    | _ => .error .noSuchUnit

/-- The word of a command (30_encoding.md R91). -/
def encode : Instr → CmdWord
  | .dlySetsr => 0x00000001#32
  | .dlyReset => 0x00000002#32
  | .dlyProc => 0x00000003#32
  | .lfoSetsr => 0x00000011#32
  | .lfoReset => 0x00000012#32
  | .lfoProc => 0x00000013#32
  | .lfoGetbuf => 0x00000014#32

/-- The command word of a bus write to CMD: data bits [31:0]; bits [63:32] are ignored (30_encoding.md R90). -/
def busWord (d : BusData) : CmdWord := d.setWidth 32

/-- The bus data that carries an instruction of nbits bits numbered as spec/opcode_table.json numbers them, every
bit above nbits 0. The core fetches no bytes: the word is written to CMD whole (10_state.md R34, R36). -/
def tableBusData (nbits w : Nat) : BusData := BitVec.ofNat 64 (w % 2 ^ nbits)

/-- What the decoder reads from a word of spec/opcode_table.json. -/
def decodeTableWord (nbits w : Nat) : Option Instr :=
  match decode (busWord (tableBusData nbits w)) with
  | .ok i => some i
  | .error _ => none

/-- The register at a register address (10_state.md R36 to R51). -/
def regAt (a : RegAddr) : RegName :=
  match a.toNat with
  | 0 => .cmd
  | 1 => .status
  | 2 => .count
  | 3 => .sr
  | 4 => .fbBase
  | 5 => .fbEnvAmt
  | 6 => .wetDry
  | 7 => .scAmt
  | 8 => .hIn
  | 9 => .hMod
  | 10 => .hEnv
  | 11 => .hOut
  | 12 => .lfoRate
  | 13 => .lfoDepth
  | 14 => .lfoPhoff
  | _ => .result

/-- The address of a register (10_state.md R36 to R51). -/
def addrOf : RegName → RegAddr
  | .cmd => 0x0#4
  | .status => 0x1#4
  | .count => 0x2#4
  | .sr => 0x3#4
  | .fbBase => 0x4#4
  | .fbEnvAmt => 0x5#4
  | .wetDry => 0x6#4
  | .scAmt => 0x7#4
  | .hIn => 0x8#4
  | .hMod => 0x9#4
  | .hEnv => 0xA#4
  | .hOut => 0xB#4
  | .lfoRate => 0xC#4
  | .lfoDepth => 0xD#4
  | .lfoPhoff => 0xE#4
  | .result => 0xF#4

/-- The register an operand name stands for (the table of 30_encoding.md R102). -/
def registerOf : OperandName → RegName
  | .n => .count
  | .sr => .sr
  | .fb => .fbBase
  | .fbenv => .fbEnvAmt
  | .wet => .wetDry
  | .sc => .scAmt
  | .input => .hIn
  | .modulation => .hMod
  | .env => .hEnv
  | .out => .hOut
  | .rate => .lfoRate
  | .depth => .lfoDepth
  | .phoff => .lfoPhoff

/-- The bus write of one `name=value` pair (30_encoding.md R102). -/
def expandOperand (o : LineOperand) : HostMove := .writeReg (addrOf (registerOf o.name)) o.value

/-- The bus write that issues a command (30_encoding.md R102). -/
def issueMove (i : Instr) : HostMove := .writeReg (addrOf .cmd) ((encode i).setWidth 64)

/-- The bus writes of a command line: one for each operand, then the command word to CMD (30_encoding.md R102). -/
def expand (l : CmdLine) : List HostMove := l.operands.map expandOperand ++ [issueMove l.command]

/-- A handle `X:base` (30_encoding.md R101). -/
def xmemHandle (base : BitVec 31) : Handle := base.setWidth 32

/-- A handle `L:base` (30_encoding.md R101). -/
def lfoHandle (base : BitVec 31) : Handle := base.setWidth 32 ||| 0x80000000#32

/-- The three command lines of CHORUS.BLOCK, in order (30_encoding.md R103). -/
def expandBlock (b : ChorusBlock) : List CmdLine :=
  [ { command := .lfoProc
      operands := [⟨.n, b.n.setWidth 64⟩, ⟨.rate, b.rate.setWidth 64⟩, ⟨.depth, b.depth.setWidth 64⟩,
        ⟨.phoff, b.phoff.setWidth 64⟩] },
    { command := .lfoGetbuf, operands := [] },
    { command := .dlyProc
      operands := [⟨.n, b.n.setWidth 64⟩, ⟨.input, b.input.setWidth 64⟩,
        ⟨.modulation, (lfoHandle 0).setWidth 64⟩, ⟨.env, b.envelope.setWidth 64⟩, ⟨.out, b.output.setWidth 64⟩,
        ⟨.fb, b.fb⟩, ⟨.fbenv, b.fbenv⟩, ⟨.wet, b.wet⟩, ⟨.sc, b.sc⟩] } ]

end Sys2Proof
end

