-- ==== Sys2Proof/Machine/Memory.lean ====
section
/-! DEFINITION. An element-addressed memory (20_memory.md R60 to R63): a list of (element index, element) pairs in
one canonical form, indices strictly rising and no entry equal to what an unlisted index reads as. The spec's
smallest addressable unit is the element ("there are no bytes", R60), so the cells hold whole elements, where
Host.Cell would hold bytes (log entry 13). The default of a memory is `some v` where an unlisted index reads v,
and `none` where it holds no known value. -/

namespace Sys2Proof.Machine

/-- Elements of w bits, by element index. -/
abbrev Mem (w : Nat) := List (Nat × BitVec w)

/-- The element listed at an index. -/
def memFind {w : Nat} : Mem w → Nat → Option (BitVec w)
  | [], _ => none
  | (a, x) :: rest, k => if a = k then some x else memFind rest k

/-- The element read at an index: the listed one, or the memory's default. -/
def memRead {w : Nat} (dflt : Option (BitVec w)) (m : Mem w) (k : Nat) : Option (BitVec w) :=
  match memFind m k with
  | some x => some x
  | none => dflt

/-- The memory with an element written, in canonical form: writing the default removes the entry. -/
def memWrite {w : Nat} (dflt : Option (BitVec w)) (m : Mem w) (k : Nat) (v : BitVec w) : Mem w :=
  match m with
  | [] => if some v = dflt then [] else [(k, v)]
  | (a, x) :: rest =>
    if k < a then (if some v = dflt then (a, x) :: rest else (k, v) :: (a, x) :: rest)
    else if k = a then (if some v = dflt then rest else (k, v) :: rest)
    else (a, x) :: memWrite dflt rest k v

/-- The memory with the n elements from index lo on forgotten: none of them is listed any more. -/
def memForget {w : Nat} (lo n : Nat) (m : Mem w) : Mem w :=
  m.filter fun e => decide (e.1 < lo) || decide (lo + n ≤ e.1)

/-- A memory of n elements with the given values. -/
def memOf {w : Nat} (dflt : Option (BitVec w)) (values : Nat → BitVec w) : Nat → Mem w
  | 0 => []
  | n + 1 => memWrite dflt (memOf dflt values n) n (values n)

/-- Every listed index is at least `lo`, indices strictly rise, and no entry equals the default. -/
def memWfFrom {w : Nat} (dflt : Option (BitVec w)) (lo : Nat) : Mem w → Bool
  | [] => true
  | (a, x) :: rest => decide (lo ≤ a) && decide (some x ≠ dflt) && memWfFrom dflt (a + 1) rest

/-- The canonical form of a memory. -/
def memWf {w : Nat} (dflt : Option (BitVec w)) (m : Mem w) : Bool := memWfFrom dflt 0 m

/-- Every listed index is below n. -/
def memBelow {w : Nat} (n : Nat) (m : Mem w) : Bool := m.all fun e => decide (e.1 < n)

end Sys2Proof.Machine
end

