-- ==== Sys2Proof/Machine/State.lean ====
section
/-! DEFINITION. The state of one core (10_state.md R20 to R53), of XMEM (20_memory.md R63) and of the host's moves
still to come, all of it plain data; the state after hardware reset; the reasons a step can stop. -/

namespace Sys2Proof.Machine

/-- The DelayEngine's registers and RING (10_state.md R21 to R28). -/
structure DelayEngine where
  /-- dly.sampleRate, F64 (R21). -/
  sampleRate : F64
  /-- writeIndex, an integer in [0, CAP) (R22). -/
  writeIndex : Nat
  /-- feedbackSample, F64 (R23). -/
  feedbackSample : F64
  /-- timeSmoothed, F64, seconds (R24). -/
  timeSmoothed : F64
  /-- wetSmoothed, F64 (R25). -/
  wetSmoothed : F64
  /-- feedbackSmoothed, F64, stored clamped (R26). -/
  feedbackSmoothed : F64
  /-- softClipSmoothed, F64 (R27). -/
  softClipSmoothed : F64
  /-- RING, CAP elements of F64 (R28); an unlisted element is +0.0. -/
  ring : Mem 64
deriving DecidableEq, Repr

/-- The LFO's registers and LFOBUF (10_state.md R29 to R31). -/
structure Lfo where
  /-- lfo.sampleRate, F64 (R29). -/
  sampleRate : F64
  /-- phase, F32 (R30). -/
  phase : F32
  /-- LFO_VALID, an integer in [0, CAP] (R31). -/
  valid : Nat
  /-- LFOBUF, CAP elements of F32 (R31); an unlisted element is +0.0. -/
  buf : Mem 32
deriving DecidableEq, Repr

/-- The thirteen operand registers (10_state.md R38 to R50), as the bus holds them and as they are latched. -/
structure OperandRegs where
  count : BitVec 32
  sr : F64
  fbBase : F64
  fbEnvAmt : F64
  wetDry : F64
  scAmt : F64
  hIn : Handle
  hMod : Handle
  hEnv : Handle
  hOut : Handle
  lfoRate : F32
  lfoDepth : F32
  lfoPhoff : F32
deriving DecidableEq, Repr

/-- The sequencer but for BUSY (10_state.md R33): CMD_L, the latched operands, the sample counter i, drive. -/
structure Sequencer where
  cmd : CmdWord
  ops : OperandRegs
  i : BitVec 32
  drive : F64
deriving DecidableEq, Repr

/-- The cause of a fault, STATUS.CAUSE (60_exceptions.md R231). Codes 8 to 15 are never produced. -/
inductive Cause where
  | none
  | illegalCmd
  | busyViolation
  | dlyUnconfigured
  | lfoUnconfigured
  | lfoCount
  | badHandle
  | bounds
deriving DecidableEq, Repr

/-- The fields of STATUS (10_state.md R37, R35). -/
structure Status where
  busy : Bool
  fault : Bool
  oor : Bool
  cause : Cause
  info : BitVec 4
deriving DecidableEq, Repr

/-- The whole state. -/
structure State where
  /-- The DelayEngine (10_state.md section 2). -/
  dly : DelayEngine
  /-- The LFO (10_state.md section 3). -/
  lfo : Lfo
  /-- The sequencer (10_state.md R33). -/
  seq : Sequencer
  /-- STATUS (10_state.md R37). -/
  status : Status
  /-- The RW bus registers (10_state.md R38 to R50). -/
  regs : OperandRegs
  /-- RESULT (10_state.md R51). -/
  result : BitVec 32
  /-- The input rst: asserted or released (70_reset_and_hazards.md R260). -/
  rst : Bool
  /-- XMEM (20_memory.md R63); an unlisted element holds no known value. -/
  xmem : Mem 64
  /-- The model's own: the host's moves still to come, the next one first (00_scope.md R15; log entry 1). -/
  host : List HostMove
  /-- The model's own: what the host's last read returned (log entry 2). -/
  hostData : BusData
  /-- The model's own: how many groups of draws have been made (00_scope.md R13; log entry 6). -/
  drawCount : Nat
deriving DecidableEq, Repr

/-- Why the machine stops. No command stops it: every fault of the spec is a next state with STATUS.FAULT set
(60_exceptions.md R240). -/
inductive Fault where
  /-- A host move names an XMEM element at or above XMEM_SIZE: there is no such element (20_memory.md R63).
  Raised by the host's XMEM moves only. Safe. -/
  | noSuchXmemElement (index : Nat)
deriving DecidableEq, Repr

/-- What the model gives no meaning. -/
inductive Refusal where
  /-- A command without a meaning; raised by no arm, since every command has its meaning. Safe. -/
  | notModelled (mnemonic : String)
  /-- A host access to XMEM while STATUS.BUSY = 1: the spec gives it no meaning and the model no move
  (20_memory.md R74, 93_implementation_defined.md U11). Raised by the host's XMEM moves only. Safe. -/
  | xmemAccessWhileBusy
deriving DecidableEq, Repr

/-- Every operand register 0 (10_state.md R38 to R50). -/
def OperandRegs.reset : OperandRegs where
  count := 0
  sr := 0
  fbBase := 0
  fbEnvAmt := 0
  wetDry := 0
  scAmt := 0
  hIn := 0
  hMod := 0
  hEnv := 0
  hOut := 0
  lfoRate := 0
  lfoDepth := 0
  lfoPhoff := 0

/-- The machine right after hardware reset at power-on, rst released, for a parameter record (10_state.md R53,
70_reset_and_hazards.md R260). XMEM lists nothing: nothing has written it (20_memory.md R63). -/
def State.resetWith (P : Params) : State where
  dly :=
    { sampleRate := P.srUnconf
      writeIndex := 0
      feedbackSample := 0
      timeSmoothed := 0
      wetSmoothed := 0
      feedbackSmoothed := 0
      softClipSmoothed := P.scPowerOn
      ring := [] }
  lfo := { sampleRate := P.srUnconf, phase := 0, valid := 0, buf := [] }
  seq := { cmd := 0, ops := OperandRegs.reset, i := 0, drive := 0 }
  status := { busy := false, fault := false, oor := false, cause := .none, info := 0 }
  regs := OperandRegs.reset
  result := 0
  rst := false
  xmem := []
  host := []
  hostData := 0
  drawCount := 0

/-- The machine right after reset. -/
def State.reset : State := State.resetWith Config.params

end Sys2Proof.Machine
end

