-- ==== Sys2Proof/Machine/Flags.lean ====
section
/-! DEFINITION. STATUS and its flags (10_state.md R35, R37; 30_encoding.md R96; 60_exceptions.md R231, R243). The
core has no arithmetic flags (10_state.md R35). -/

namespace Sys2Proof.Machine

/-- The code of a cause (60_exceptions.md R231). -/
def causeCode : Cause → BitVec 4
  | .none => 0
  | .illegalCmd => 1
  | .busyViolation => 2
  | .dlyUnconfigured => 3
  | .lfoUnconfigured => 4
  | .lfoCount => 5
  | .badHandle => 6
  | .bounds => 7

/-- A flag as one bit. -/
def flagBit (b : Bool) : BitVec 1 := BitVec.ofBool b

/-- The STATUS word: [0] BUSY, [1] FAULT, [2] OOR, [7:3] zero, [11:8] CAUSE, [15:12] INFO, [31:16] zero
(10_state.md R37, 30_encoding.md R96). -/
def statusWord (t : Status) : BitVec 32 :=
  (0#16) ++ t.info ++ causeCode t.cause ++ (0#5) ++ flagBit t.oor ++ flagBit t.fault ++ flagBit t.busy

/-- The level output `done` = NOT BUSY (60_exceptions.md R243). -/
def doneOutput (s : State) : Bool := !s.status.busy

/-- The level output `fault` = FAULT (60_exceptions.md R243). -/
def faultOutput (s : State) : Bool := s.status.fault

/-- BUSY set or cleared (10_state.md R35). -/
def setBusy (b : Bool) (s : State) : State := { s with status := { s.status with busy := b } }

end Sys2Proof.Machine
end

