-- ==== Sys2Proof/Machine/Operands.lean ====
section
/-! DEFINITION. Operands: the bus registers and their latched copies (10_state.md section 5, R33; 30_encoding.md
R92, R98), handles (30_encoding.md R93) and the configured test of a sample rate (42_delay_process.md R161). -/

namespace Sys2Proof.Machine

/-- A handle's SPACE bit, h[31]: true names LFOBUF, false XMEM (30_encoding.md R93). -/
def handleIsLfo (h : Handle) : Bool := h.msb

/-- A handle's BASE, h[30:0] (30_encoding.md R93). -/
def handleBase (h : Handle) : Nat := h.toNat % 2 ^ 31

/-- A sample rate is configured: finite and above zero (42_delay_process.md R161, 44_lfo.md R213, D25). -/
def isConfigured (rate : F64) : Bool := f64IsFinite rate && f64Lt f64Zero rate

/-- The value of a register as the 64-bit bus reads it, a narrower one zero-extended; CMD reads 0
(10_state.md R36 to R51). -/
def readRegister (s : State) : RegName → BusData
  | .cmd => 0
  | .status => (statusWord s.status).setWidth 64
  | .count => s.regs.count.setWidth 64
  | .sr => s.regs.sr
  | .fbBase => s.regs.fbBase
  | .fbEnvAmt => s.regs.fbEnvAmt
  | .wetDry => s.regs.wetDry
  | .scAmt => s.regs.scAmt
  | .hIn => s.regs.hIn.setWidth 64
  | .hMod => s.regs.hMod.setWidth 64
  | .hEnv => s.regs.hEnv.setWidth 64
  | .hOut => s.regs.hOut.setWidth 64
  | .lfoRate => s.regs.lfoRate.setWidth 64
  | .lfoDepth => s.regs.lfoDepth.setWidth 64
  | .lfoPhoff => s.regs.lfoPhoff.setWidth 64
  | .result => s.result.setWidth 64

/-- The operand registers with one written from the bus: a 32-bit register takes bits [31:0], the upper bits are
ignored; CMD, STATUS and RESULT are no operand registers (10_state.md section 5, 30_encoding.md R98). -/
def writeOperand (r : OperandRegs) (d : BusData) : RegName → OperandRegs
  | .cmd => r
  | .status => r
  | .count => { r with count := d.setWidth 32 }
  | .sr => { r with sr := d }
  | .fbBase => { r with fbBase := d }
  | .fbEnvAmt => { r with fbEnvAmt := d }
  | .wetDry => { r with wetDry := d }
  | .scAmt => { r with scAmt := d }
  | .hIn => { r with hIn := d.setWidth 32 }
  | .hMod => { r with hMod := d.setWidth 32 }
  | .hEnv => { r with hEnv := d.setWidth 32 }
  | .hOut => { r with hOut := d.setWidth 32 }
  | .lfoRate => { r with lfoRate := d.setWidth 32 }
  | .lfoDepth => { r with lfoDepth := d.setWidth 32 }
  | .lfoPhoff => { r with lfoPhoff := d.setWidth 32 }
  | .result => r

/-- A bus write to a register other than CMD, in an idle and unfaulted core: RW registers hold the value, STATUS
and RESULT ignore it (10_state.md section 5). -/
def writeRegister (n : RegName) (d : BusData) (s : State) : State := { s with regs := writeOperand s.regs d n }

/-- The command word and all operand registers latched at issue (10_state.md R33, 30_encoding.md R100 (a)); the
sample counter starts at 0 (10_state.md R34). -/
def latch (w : CmdWord) (s : State) : State :=
  { s with seq := { s.seq with cmd := w, ops := s.regs, i := 0 } }

end Sys2Proof.Machine
end

