-- ==== Sys2Proof/Machine/Ops.lean ====
section
/-! DEFINITION. The named operations over memory and STATUS: RING, LFOBUF and XMEM accesses (20_memory.md R61 to
R65, R77, R78), the bounds check (R71), and taking a fault (60_exceptions.md R240). There is no return from a
fault (60_exceptions.md R241): hardware reset is the only way out. -/

namespace Sys2Proof.Machine

/-- MemRead(RING[k], 64); an element nothing is listed for is +0.0 (20_memory.md R61, 10_state.md R28). -/
def ringRead (ring : Mem 64) (k : Nat) : F64 := (memRead (some f64Zero) ring k).getD f64Zero

/-- MemWrite(RING[k], 64, v) (20_memory.md R61). -/
def ringWrite (ring : Mem 64) (k : Nat) (v : F64) : Mem 64 := memWrite (some f64Zero) ring k v

/-- A RING of CAP elements, each an unconstrained draw: element k is drawn at site k
(93_implementation_defined.md U10 and its `any value`). -/
def ringDrawn (P : Params) (δ : Draws) : Mem 64 := memOf (some f64Zero) δ P.cap

/-- MemRead(LFOBUF[k], 32); an element nothing is listed for is +0.0 (20_memory.md R62, 10_state.md R31). -/
def lfoRead (buf : Mem 32) (k : Nat) : F32 := (memRead (some f32Zero) buf k).getD f32Zero

/-- MemWrite(LFOBUF[k], 32, v) (20_memory.md R62). -/
def lfoWrite (buf : Mem 32) (k : Nat) (v : F32) : Mem 32 := memWrite (some f32Zero) buf k v

/-- An LFOBUF of CAP elements, each an unconstrained draw: element k is drawn at site k
(93_implementation_defined.md U10 and its `any value`). -/
def lfoDrawn (P : Params) (δ : Draws) : Mem 32 := memOf (some f32Zero) (fun k => draw32 (δ k)) P.cap

/-- MemRead(XMEM[k], 64): an element nothing has written since power-on reads as a draw (20_memory.md R63). -/
def xmemRead (drawn : F64) (xmem : Mem 64) (k : Nat) : F64 := (memRead none xmem k).getD drawn

/-- MemWrite(XMEM[k], 64, v) (20_memory.md R63). -/
def xmemWrite (xmem : Mem 64) (k : Nat) (v : F64) : Mem 64 := memWrite none xmem k v

/-- n elements of XMEM from index lo on hold unspecified values: each read of one draws anew, as of an element never
written (70_reset_and_hazards.md R260, 93_implementation_defined.md U19 and its `any value`). -/
def xmemForget (lo n : Nat) (xmem : Mem 64) : Mem 64 := memForget lo n xmem

/-- RdBuf(h, i): element i of the buffer a handle names, an LFOBUF element widened (20_memory.md R65, R77). The
draw serves an XMEM element never written, or the NaN of widening a NaN. -/
def rdBuf (drawn : F64) (h : Handle) (i : Nat) (s : State) : F64 :=
  if handleIsLfo h then f64OfF32 (nanOf64 drawn) (lfoRead s.lfo.buf (handleBase h + i))
  else xmemRead drawn s.xmem (handleBase h + i)

/-- WrBuf(h, i, v): h names XMEM (20_memory.md R65); a handle that names LFOBUF writes nothing, and BAD_HANDLE
keeps DLY.PROC from ever having one (60_exceptions.md R236). -/
def wrBuf (h : Handle) (i : Nat) (v : F64) (xmem : Mem 64) : Mem 64 :=
  if handleIsLfo h then xmem else xmemWrite xmem (handleBase h + i) v

/-- What RdRing answers: the value, and whether STATUS.OOR is set. -/
structure RingAnswer where
  value : F64
  oor : Bool
deriving DecidableEq, Repr

/-- RdRing(y) (20_memory.md R78): an index in [0, CAP) reads the element; any other sets STATUS.OOR and returns a
draw, or, under OOR_POLICY modulo, the element at y mod CAP. -/
def rdRing (P : Params) (drawn : F64) (ring : Mem 64) (y : Int) : RingAnswer :=
  if 0 ≤ y ∧ y < (P.cap : Int) then ⟨ringRead ring y.toNat, false⟩
  else
    match P.oorPolicy with
    | .draw => ⟨drawn, true⟩
    | .modulo => ⟨ringRead ring (y % (P.cap : Int)).toNat, true⟩

/-- The limit of the space a handle names: XMEM_SIZE, or LFO_VALID (20_memory.md R71). -/
def spaceLimit (P : Params) (h : Handle) (s : State) : Nat := if handleIsLfo h then s.lfo.valid else P.xmemSize

/-- A buffer of n elements does not fit the space its handle names (20_memory.md R71). -/
def overruns (P : Params) (h : Handle) (n : Nat) (s : State) : Bool :=
  decide (spaceLimit P h s < handleBase h + n)

/-- A cause and the value INFO takes with it. -/
structure Refused where
  cause : Cause
  info : BitVec 4
deriving DecidableEq, Repr

/-- raise Fault(cause, info) (60_exceptions.md R240): FAULT, CAUSE, INFO written, BUSY cleared; nothing else. -/
def raiseFault (r : Refused) (s : State) : State :=
  { s with status := { s.status with fault := true, cause := r.cause, info := r.info, busy := false } }

end Sys2Proof.Machine
end

