-- ==== Sys2Proof/Machine/Interp.lean ====
section
/-! DEFINITION. The interpolated read, INTERP(d) (43_interpolated_read.md R190 to R203): step 3 of every sample of
DLY.PROC. -/

namespace Sys2Proof.Machine

/-- rp: writeIndex - d, plus CAP once if that is below 0 (R191). Sites k, k + 1. -/
def readPosition (P : Params) (δ : Draws) (k : Nat) (writeIndex : Nat) (d : F64) : F64 :=
  let rp0 := f64Sub (nan64 δ k) (f64OfNat writeIndex) d
  if f64Lt rp0 f64Zero then f64Add (nan64 δ (k + 1)) rp0 (f64OfNat P.cap) else rp0

/-- y0 after its index wrap: the test is `<= 0` as in the source, or `< 0` corrected (R193, R194). -/
def wrapLow (P : Params) (y0 : Int) : Int :=
  match P.wrapMode with
  | .asSource => if y0 ≤ 0 then y0 + (P.cap : Int) else y0
  | .corrected => if y0 < 0 then y0 + (P.cap : Int) else y0

/-- y1 after its index wrap: the test is `> CAP` as in the source, or `>= CAP` corrected (R193, R194). -/
def wrapHigh (P : Params) (y1 : Int) : Int :=
  match P.wrapMode with
  | .asSource => if (P.cap : Int) < y1 then y1 - (P.cap : Int) else y1
  | .corrected => if (P.cap : Int) ≤ y1 then y1 - (P.cap : Int) else y1

/-- The two RING indices of an integer floor position fl: y1 = fl and y0 = fl - 1, each wrapped independently
(R192 to R194, the table of R198). -/
def tapIndices (P : Params) (fl : Int) : Int × Int := (wrapLow P (fl - 1), wrapHigh P fl)

/-- The two fetches, y0 then y1, and their linear interpolation with weight t (R195, R196). Sites k to k + 5. -/
def fetchTap (P : Params) (δ : Draws) (k : Nat) (ring : Mem 64) (fl : Int) (t : F64) : RingAnswer :=
  let a := rdRing P (δ k) ring (tapIndices P fl).1
  let b := rdRing P (δ (k + 1)) ring (tapIndices P fl).2
  ⟨lerp δ (k + 2) a.value b.value t, a.oor || b.oor⟩

/-- INTERP(d) (R190): the tap, and whether STATUS.OOR is set. A delay that is not finite gives a draw and sets OOR
(R197). Sites k to k + 10. -/
def interp (P : Params) (δ : Draws) (k : Nat) (ring : Mem 64) (writeIndex : Nat) (d : F64) : RingAnswer :=
  if f64IsFinite d then
    let rp := readPosition P δ (k + 1) writeIndex d
    let fl := f64Floor (nan64 δ (k + 3)) rp
    let t := f64Sub (nan64 δ (k + 4)) rp fl
    fetchTap P δ (k + 5) ring (f64ToInt fl) t
  else ⟨δ k, true⟩

end Sys2Proof.Machine
end

