-- ==== Sys2Proof/Machine/DelayEngine.lean ====
section
/-! DEFINITION. What the DelayEngine's commands do to the state, over the latched operands (41_delay_control.md
R150, R151; 42_delay_process.md R160 to R170). The issue checks and the BUSY protocol are the sequencer's. -/

namespace Sys2Proof.Machine

/-- dly.sampleRate <- SR_L (41_delay_control.md R150). -/
def setDlyRate (s : State) : State := { s with dly := { s.dly with sampleRate := s.seq.ops.sr } }

/-- The signal state cleared: every RING element +0.0 (no element listed), the smoothed registers and
feedbackSample +0.0, softClipSmoothed SC_FLOOR; sampleRate and writeIndex kept (41_delay_control.md R151). -/
def clearDly (P : Params) (s : State) : State :=
  { s with dly := { s.dly with
      feedbackSample := f64Zero
      timeSmoothed := f64Zero
      wetSmoothed := f64Zero
      feedbackSmoothed := f64Zero
      softClipSmoothed := P.scFloor
      ring := [] } }

/-- A DelayEngine of which nothing is specified: every F64 register and every RING element is an unconstrained draw,
writeIndex one within its range, which R22 gives it "at all times" (60_exceptions.md R233,
93_implementation_defined.md U10; log entry 18). Sites 0 to 6 of the group δ, and the group ρ. -/
def unspecifiedDly (P : Params) (δ ρ : Draws) : DelayEngine where
  sampleRate := δ 0
  writeIndex := drawUpTo (δ 1) (P.cap - 1)
  feedbackSample := δ 2
  timeSmoothed := δ 3
  wetSmoothed := δ 4
  feedbackSmoothed := δ 5
  softClipSmoothed := δ 6
  ring := ringDrawn P ρ

/-- The issue checks of DLY.PROC, in order, over the latched operands: DLY_UNCONFIGURED; BAD_HANDLE; BOUNDS for
IN, MOD, ENV, OUT (42_delay_process.md R161, 20_memory.md R71). -/
def checkDlyProc (P : Params) (s : State) : Option Refused :=
  let ops := s.seq.ops
  let n := ops.count.toNat
  if !isConfigured s.dly.sampleRate then some ⟨.dlyUnconfigured, 0⟩
  else if handleIsLfo ops.hOut then some ⟨.badHandle, 4⟩
  else if overruns P ops.hIn n s then some ⟨.bounds, 1⟩
  else if overruns P ops.hMod n s then some ⟨.bounds, 2⟩
  else if overruns P ops.hEnv n s then some ⟨.bounds, 3⟩
  else if overruns P ops.hOut n s then some ⟨.bounds, 4⟩
  else none

/-- The block-rate part of DLY.PROC, once before the samples, also when there are none: softClipSmoothed smoothed
toward SC_AMT_L with K_GENERIC, then drive (42_delay_process.md R162). -/
def startDlyBlock (P : Params) (s : State) : State :=
  let δ := P.draw s.drawCount
  let sc := smooth δ 0 s.dly.softClipSmoothed s.seq.ops.scAmt P.kGeneric
  { s with
    dly := { s.dly with softClipSmoothed := sc }
    seq := { s.seq with drive := mapDrive P δ 3 sc }
    drawCount := s.drawCount + 1 }

/-- Step 1 (42_delay_process.md R164): feedbackSmoothed after sample i, with envelope element e. Sites 3 to 7. -/
def nextFeedback (P : Params) (δ : Draws) (s : State) (e : F64) : F64 :=
  let target := f64Add (nan64 δ 4) s.seq.ops.fbBase (f64Mul (nan64 δ 3) e s.seq.ops.fbEnvAmt)
  clampHi P (smooth δ 5 s.dly.feedbackSmoothed target P.kFine)

/-- Step 2 (42_delay_process.md R165): timeSmoothed after sample i, with modulation element m. Sites 9 to 13. -/
def nextTime (P : Params) (δ : Draws) (s : State) (m : F64) : F64 :=
  let target := f64Add (nan64 δ 10) P.baseDelayS (f64Mul (nan64 δ 9) P.modDepthS m)
  smooth δ 11 s.dly.timeSmoothed target P.kFine

/-- Step 3 (42_delay_process.md R165, R166): the tap at the delay timeSmoothed * sampleRate. Sites 14 to 25. -/
def sampleTap (P : Params) (δ : Draws) (s : State) (time : F64) : RingAnswer :=
  interp P δ 15 s.dly.ring s.dly.writeIndex (f64Mul (nan64 δ 14) time s.dly.sampleRate)

/-- Step 4 (42_delay_process.md R167): the value written into RING, from the input element x, this sample's
feedbackSmoothed and the previous sample's tap. Sites 8 and 26 to 31. -/
def ringInput (P : Params) (δ : Draws) (s : State) (x feedback : F64) : F64 :=
  let g := mapFb P δ 8 feedback
  let v := f64Add (nan64 δ 27) x (f64Mul (nan64 δ 26) s.dly.feedbackSample g)
  softClip P δ 28 v s.seq.drive

/-- Step 6 (42_delay_process.md R169): wetSmoothed after sample i. Sites 32 to 34. -/
def nextWet (P : Params) (δ : Draws) (s : State) : F64 :=
  smooth δ 32 s.dly.wetSmoothed s.seq.ops.wetDry P.kFine

/-- Step 7 (42_delay_process.md R170): (writeIndex + 1) mod CAP. -/
def nextWriteIndex (P : Params) (w : Nat) : Nat := (w + 1) % P.cap

/-- One sample step of DLY.PROC, for the sample counter seq.i: steps 1 to 7 in the source's order
(42_delay_process.md R160, R163; accesses in the order of 20_memory.md R72). -/
def dlySample (P : Params) (s : State) : State :=
  let δ := P.draw s.drawCount
  let ops := s.seq.ops
  let k := s.seq.i.toNat
  let x := rdBuf (δ 0) ops.hIn k s
  let m := rdBuf (δ 1) ops.hMod k s
  let e := rdBuf (δ 2) ops.hEnv k s
  let feedback := nextFeedback P δ s e
  let time := nextTime P δ s m
  let tap := sampleTap P δ s time
  let wet := nextWet P δ s
  { s with
    dly := { s.dly with
      feedbackSmoothed := feedback
      timeSmoothed := time
      ring := ringWrite s.dly.ring s.dly.writeIndex (ringInput P δ s x feedback)
      feedbackSample := tap.value
      wetSmoothed := wet
      writeIndex := nextWriteIndex P s.dly.writeIndex }
    xmem := wrBuf ops.hOut k (xfade δ 35 x tap.value wet) s.xmem
    status := { s.status with oor := s.status.oor || tap.oor }
    seq := { s.seq with i := s.seq.i + 1 }
    drawCount := s.drawCount + 1 }

end Sys2Proof.Machine
end

