-- ==== Sys2Proof/Machine/LfoEngine.lean ====
section
/-! DEFINITION. What the LFO's commands do to the state, over the latched operands (44_lfo.md R210 to R217). -/

namespace Sys2Proof.Machine

/-- lfo.sampleRate <- SR_L (44_lfo.md R210). -/
def setLfoRate (s : State) : State := { s with lfo := { s.lfo with sampleRate := s.seq.ops.sr } }

/-- phase +0.0, every LFOBUF element +0.0 (no element listed), LFO_VALID 0; sampleRate kept (44_lfo.md R211). -/
def clearLfo (s : State) : State := { s with lfo := { s.lfo with phase := f32Zero, buf := [], valid := 0 } }

/-- An LFO of which nothing is specified: sampleRate, phase and every LFOBUF element are unconstrained draws, LFO_VALID
one within its range (60_exceptions.md R233, 93_implementation_defined.md U10; log entry 18). Sites 7 to 9 of the
group δ, and the group ρ. -/
def unspecifiedLfo (P : Params) (δ ρ : Draws) : Lfo where
  sampleRate := δ 7
  phase := draw32 (δ 8)
  valid := drawUpTo (δ 9) P.cap
  buf := lfoDrawn P ρ

/-- The issue checks of LFO.PROC, in order: LFO_UNCONFIGURED; LFO_COUNT (44_lfo.md R213). -/
def checkLfoProc (P : Params) (s : State) : Option Refused :=
  if !isConfigured s.lfo.sampleRate then some ⟨.lfoUnconfigured, 0⟩
  else if P.cap < s.seq.ops.count.toNat then some ⟨.lfoCount, 0⟩
  else none

/-- inc = round32(widen(LFO_RATE_L) / lfo.sampleRate) (44_lfo.md R215). Its operands are latched or unchanged
during the command, so it is the same value at every sample. Sites 0 to 2. -/
def phaseIncrement (δ : Draws) (s : State) : F32 :=
  f32OfF64 (nan32 δ 2) (f64Div (nan64 δ 1) (f64OfF32 (nan64 δ 0) s.seq.ops.lfoRate) s.lfo.sampleRate)

/-- The element of one sample: LFO_DEPTH_L * WAVE(phase + LFO_PHOFF_L), the sum not wrapped (44_lfo.md R214).
Sites 3 to 8. -/
def lfoElement (P : Params) (δ : Draws) (s : State) : F32 :=
  let a := f32Add (nan32 δ 3) s.lfo.phase s.seq.ops.lfoPhoff
  f32Mul (nan32 δ 8) s.seq.ops.lfoDepth (waveOp P δ 4 a)

/-- phase after one sample: PHASEWRAP(phase + inc) (44_lfo.md R215). Sites 9 to 11. -/
def nextPhase (δ : Draws) (s : State) : F32 :=
  phaseWrap δ 10 (f32Add (nan32 δ 9) s.lfo.phase (phaseIncrement δ s))

/-- One sample step of LFO.PROC, for the sample counter seq.i: the element from the phase before the advance, then
the advance (44_lfo.md R212, R214). -/
def lfoSample (P : Params) (s : State) : State :=
  let δ := P.draw s.drawCount
  { s with
    lfo := { s.lfo with
      buf := lfoWrite s.lfo.buf s.seq.i.toNat (lfoElement P δ s)
      phase := nextPhase δ s }
    seq := { s.seq with i := s.seq.i + 1 }
    drawCount := s.drawCount + 1 }

/-- The end of LFO.PROC: LFO_VALID <- N (44_lfo.md R212). -/
def endLfoBlock (s : State) : State := { s with lfo := { s.lfo with valid := s.seq.ops.count.toNat } }

/-- RESULT <- 0x80000000: LFOBUF, base 0 (44_lfo.md R216). -/
def giveLfoHandle (s : State) : State := { s with result := 0x80000000#32 }

end Sys2Proof.Machine
end

