-- ==== Sys2Proof/Machine/Sequencer.lean ====
section
/-! DEFINITION. The command sequencer: issue, BUSY, completion, and the abandonment of a running command
(30_encoding.md R100; 10_state.md R33; 60_exceptions.md R233, R239, R240). A command is a start, a number of
sample steps and an end; `issue` runs them as one atomic step, `advance` runs them one at a time
(00_scope.md R15). -/

namespace Sys2Proof.Machine

/-- How many sample steps a command has: COUNT_L for the two PROC commands, none for the others. -/
def sampleSteps (i : Instr) (s : State) : Nat :=
  match i with
  | .dlyProc => s.seq.ops.count.toNat
  | .lfoProc => s.seq.ops.count.toNat
  | .dlySetsr => 0
  | .dlyReset => 0
  | .lfoSetsr => 0
  | .lfoReset => 0
  | .lfoGetbuf => 0

/-- One sample step of a command (42_delay_process.md R163, 44_lfo.md R214). -/
def sampleStep (P : Params) (i : Instr) (s : State) : State :=
  match i with
  | .dlyProc => dlySample P s
  | .lfoProc => lfoSample P s
  | .dlySetsr => s
  | .dlyReset => s
  | .lfoSetsr => s
  | .lfoReset => s
  | .lfoGetbuf => s

/-- What a command does before its first sample step. -/
def startCommand (P : Params) (i : Instr) (s : State) : State :=
  match i with
  | .dlyProc => startDlyBlock P s
  | .lfoProc => s
  | .dlySetsr => s
  | .dlyReset => s
  | .lfoSetsr => s
  | .lfoReset => s
  | .lfoGetbuf => s

/-- What a command does after its last sample step; a command without samples has its whole effect here. -/
def endCommand (P : Params) (i : Instr) (s : State) : State :=
  match i with
  | .dlyProc => s
  | .lfoProc => endLfoBlock s
  | .dlySetsr => setDlyRate s
  | .dlyReset => clearDly P s
  | .lfoSetsr => setLfoRate s
  | .lfoReset => clearLfo s
  | .lfoGetbuf => giveLfoHandle s

/-- f applied n times, the first application innermost. -/
def repeatStep (f : State → State) : Nat → State → State
  | 0, s => s
  | n + 1, s => repeatStep f n (f s)

/-- One move of a busy core at the sample granularity: the next sample step of the command in CMD_L, or, when the
sample counter has reached the number of steps, its end and BUSY <- 0 (10_state.md R33, R34). A CMD_L that is no
command, which no issue latches, just completes. -/
def advance (P : Params) (s : State) : State :=
  match decode s.seq.cmd with
  | .error _ => setBusy false s
  | .ok i =>
    if s.seq.i.toNat < sampleSteps i s then sampleStep P i s
    else setBusy false (endCommand P i s)

/-- Some of the moves the running command has left, a free value picks how many: it is abandoned at an unspecified
sample boundary (60_exceptions.md R233). Of the state this leaves, BUSY_VIOLATION keeps OOR and RESULT. -/
def abandon (P : Params) (s : State) : State :=
  let left :=
    match decode s.seq.cmd with
    | .error _ => 0
    | .ok i => sampleSteps i s - s.seq.i.toNat + 1
  let ran := drawUpTo (P.draw s.drawCount 0) left
  repeatStep (advance P) ran { s with drawCount := s.drawCount + 1 }

/-- XMEM when the running command is interrupted, by rst or by a BUSY_VIOLATION: every element of the output range of a
DLY.PROC holds an unspecified value, every other element is as it was (70_reset_and_hazards.md R260,
60_exceptions.md R233, 93_implementation_defined.md U10, U19). -/
def interruptedXmem (s : State) : Mem 64 :=
  match decode s.seq.cmd with
  | .error _ => s.xmem
  | .ok .dlyProc => xmemForget (handleBase s.seq.ops.hOut) s.seq.ops.count.toNat s.xmem
  | .ok .dlySetsr => s.xmem
  | .ok .dlyReset => s.xmem
  | .ok .lfoSetsr => s.xmem
  | .ok .lfoReset => s.xmem
  | .ok .lfoProc => s.xmem
  | .ok .lfoGetbuf => s.xmem

/-- The contents of the DelayEngine and the LFO gone: each piece of them holds any value, an unconstrained draw,
whichever of the two the running command uses (60_exceptions.md R233, 93_implementation_defined.md U10). Three groups of
draws: the registers of both, RING, LFOBUF. -/
def loseContents (P : Params) (s : State) : State :=
  { s with
    dly := unspecifiedDly P (P.draw s.drawCount) (P.draw (s.drawCount + 1))
    lfo := unspecifiedLfo P (P.draw s.drawCount) (P.draw (s.drawCount + 2))
    drawCount := s.drawCount + 3 }

/-- BUSY_VIOLATION: a register write while BUSY. The value is discarded, the running command abandoned, the fault
recorded; DelayEngine, LFO and output-buffer contents hold any value (60_exceptions.md R233,
93_implementation_defined.md U10). OOR and RESULT, which neither names, are as the moves that ran leave them; the
operand registers and XMEM outside the output buffer are as they were (log entry 18). -/
def busyViolation (P : Params) (s : State) : State :=
  raiseFault ⟨.busyViolation, 0⟩ { loseContents P (abandon P s) with xmem := interruptedXmem s }

/-- The first checks of a bus write, before what it writes is looked at: with rst asserted the core ignores the bus
(70_reset_and_hazards.md R260), with FAULT = 1 the write is ignored, with BUSY = 1 it is a BUSY_VIOLATION
(60_exceptions.md R239 (0), (1)); otherwise the write does `accepted`. -/
def gate (P : Params) (accepted : State → State) (s : State) : State :=
  if s.rst then s
  else if s.status.fault then s
  else if s.status.busy then busyViolation P s
  else accepted s

/-- What every issue begins with (30_encoding.md R100): the gate; latch; the command's own checks, over the latched
operands, the first failing one raising its fault with all else as before the write (60_exceptions.md R230, R239,
R240); else BUSY <- 1 and `begin`. -/
def accept (P : Params) (word : CmdWord) (check : State → Option Refused) (begin : State → State) (s : State) : State :=
  gate P
    (fun s =>
      match check (latch word s) with
      | some r => raiseFault r s
      | none => begin (setBusy true (latch word s)))
    s

/-- Issuing a command as one atomic step (30_encoding.md R100): the command's start, `steps` sample steps, its end,
and BUSY <- 0. -/
def issue (P : Params) (word : CmdWord) (check : State → Option Refused) (start : State → State)
    (steps : State → Nat) (sample finish : State → State) (s : State) : State :=
  accept P word check
    (fun b =>
      let begun := start b
      setBusy false (finish (repeatStep sample (steps begun) begun)))
    s

/-- A command without issue checks or sample steps. -/
def issueSimple (P : Params) (word : CmdWord) (effect : State → State) (s : State) : State :=
  issue P word (fun _ => none) id (fun _ => 0) id effect s

/-- A command's own issue checks (60_exceptions.md R239 (3)). -/
def issueCheck (P : Params) (i : Instr) (s : State) : Option Refused :=
  match i with
  | .dlyProc => checkDlyProc P s
  | .lfoProc => checkLfoProc P s
  | .dlySetsr => none
  | .dlyReset => none
  | .lfoSetsr => none
  | .lfoReset => none
  | .lfoGetbuf => none

/-- Issuing a command and leaving it running, BUSY = 1, before its first sample step (00_scope.md R15). -/
def beginCommand (P : Params) (i : Instr) (s : State) : State :=
  accept P (encode i) (issueCheck P i) (startCommand P i) s

end Sys2Proof.Machine
end

