-- ==== Sys2Proof/Machine/DelayCommands.lean ====
section
/-! DEFINITION. The meanings of the DelayEngine's commands: DLY.SETSR, DLY.RESET (41_delay_control.md) and DLY.PROC
(42_delay_process.md). Each is given for any parameter record, then for the modelled instance. No command stops
the machine: a fault of the spec is a next state with STATUS.FAULT set (60_exceptions.md R240). -/

namespace Sys2Proof.Machine

/-- DLY.SETSR (41_delay_control.md R150). -/
def dlySetsrWith (P : Params) (s : State) : State := issueSimple P (encode .dlySetsr) setDlyRate s

/-- DLY.RESET (41_delay_control.md R151). -/
def dlyResetWith (P : Params) (s : State) : State := issueSimple P (encode .dlyReset) (clearDly P) s

/-- DLY.PROC (42_delay_process.md R160 to R171). -/
def dlyProcWith (P : Params) (s : State) : State :=
  issue P (encode .dlyProc) (checkDlyProc P) (startDlyBlock P) (fun b => b.seq.ops.count.toNat) (dlySample P) id s

/-- The meaning of DLY.SETSR. -/
def execDlySetsr (s : State) : Host.Outcome State Fault Refusal := .next (dlySetsrWith Config.params s)

/-- The meaning of DLY.RESET. -/
def execDlyReset (s : State) : Host.Outcome State Fault Refusal := .next (dlyResetWith Config.params s)

/-- The meaning of DLY.PROC. -/
def execDlyProc (s : State) : Host.Outcome State Fault Refusal := .next (dlyProcWith Config.params s)

end Sys2Proof.Machine
end

