-- ==== Sys2Proof/Machine/LfoCommands.lean ====
section
/-! DEFINITION. The meanings of the LFO's commands: LFO.SETSR, LFO.RESET, LFO.PROC, LFO.GETBUF (44_lfo.md). Each is
given for any parameter record, then for the modelled instance. -/

namespace Sys2Proof.Machine

/-- LFO.SETSR (44_lfo.md R210). -/
def lfoSetsrWith (P : Params) (s : State) : State := issueSimple P (encode .lfoSetsr) setLfoRate s

/-- LFO.RESET (44_lfo.md R211). -/
def lfoResetWith (P : Params) (s : State) : State := issueSimple P (encode .lfoReset) clearLfo s

/-- LFO.PROC (44_lfo.md R212 to R217). -/
def lfoProcWith (P : Params) (s : State) : State :=
  issue P (encode .lfoProc) (checkLfoProc P) id (fun b => b.seq.ops.count.toNat) (lfoSample P) endLfoBlock s

/-- LFO.GETBUF (44_lfo.md R216). -/
def lfoGetbufWith (P : Params) (s : State) : State := issueSimple P (encode .lfoGetbuf) giveLfoHandle s

/-- The meaning of LFO.SETSR. -/
def execLfoSetsr (s : State) : Host.Outcome State Fault Refusal := .next (lfoSetsrWith Config.params s)

/-- The meaning of LFO.RESET. -/
def execLfoReset (s : State) : Host.Outcome State Fault Refusal := .next (lfoResetWith Config.params s)

/-- The meaning of LFO.PROC. -/
def execLfoProc (s : State) : Host.Outcome State Fault Refusal := .next (lfoProcWith Config.params s)

/-- The meaning of LFO.GETBUF. -/
def execLfoGetbuf (s : State) : Host.Outcome State Fault Refusal := .next (lfoGetbufWith Config.params s)

end Sys2Proof.Machine
end

