-- ==== Sys2Proof/Machine/Dispatch.lean ====
section
/-! DEFINITION. One arm for each command (30_encoding.md R91). -/

namespace Sys2Proof.Machine

def exec (i : Instr) (s : State) : Host.Outcome State Fault Refusal :=
  match i with
  | .dlySetsr => Sys2Proof.Machine.execDlySetsr s
  | .dlyReset => Sys2Proof.Machine.execDlyReset s
  | .dlyProc => Sys2Proof.Machine.execDlyProc s
  | .lfoSetsr => Sys2Proof.Machine.execLfoSetsr s
  | .lfoReset => Sys2Proof.Machine.execLfoReset s
  | .lfoProc => Sys2Proof.Machine.execLfoProc s
  | .lfoGetbuf => Sys2Proof.Machine.execLfoGetbuf s

end Sys2Proof.Machine
end

