-- ==== Sys2Proof/Machine/Bus.lean ====
section
/-! DEFINITION. The host's moves (00_scope.md R15): bus writes and reads (10_state.md section 5, 60_exceptions.md
R239), XMEM accesses (20_memory.md R63, R74), the input rst (70_reset_and_hazards.md R260). A move takes the
parameter record and what runs a command, so that it can be stated of every instance. -/

namespace Sys2Proof.Machine

/-- What runs a command. -/
abbrev Runner := Instr → State → Host.Outcome State Fault Refusal

/-- A write of CMD (30_encoding.md R100): the command the word encodes is issued; an illegal word raises
ILLEGAL_CMD, behind the same first two checks (30_encoding.md R97, 60_exceptions.md R239). -/
def writeCommand (P : Params) (run : Runner) (word : CmdWord) (s : State) : Host.Outcome State Fault Refusal :=
  match decode word with
  | .ok i => run i s
  | .error _ => .next (gate P (raiseFault ⟨.illegalCmd, 0⟩) s)

/-- A bus write: of CMD, or of another register, which is checked only for rst, FAULT and BUSY
(60_exceptions.md R239). -/
def busWrite (P : Params) (run : Runner) (a : RegAddr) (d : BusData) (s : State) :
    Host.Outcome State Fault Refusal :=
  if regAt a = .cmd then writeCommand P run (busWord d) s
  else .next (gate P (writeRegister (regAt a) d) s)

/-- A write of CMD that leaves its command running (00_scope.md R15); an illegal word raises ILLEGAL_CMD. -/
def startWrite (P : Params) (word : CmdWord) (s : State) : State :=
  match decode word with
  | .ok i => beginCommand P i s
  | .error _ => gate P (raiseFault ⟨.illegalCmd, 0⟩) s

/-- A bus read: the core does not change (20_memory.md R64); the host has the value. With rst asserted the core
ignores the bus (70_reset_and_hazards.md R260), and what the host has is a draw. The model answers a read of every
register also in a faulted core, of which 60_exceptions.md R241 and U12 name STATUS and RESULT only, and also while
BUSY = 1 (DESIGN CHOICE, log entry 28). -/
def busRead (P : Params) (a : RegAddr) (s : State) : State :=
  if s.rst then { s with hostData := P.draw s.drawCount 0, drawCount := s.drawCount + 1 }
  else { s with hostData := readRegister s (regAt a) }

/-- The host's access to XMEM while the core is idle; there is no element at or above XMEM_SIZE
(20_memory.md R63, R74). A set FAULT or rst does not matter (log entries 22, 28). -/
def hostXmem (P : Params) (k : Nat) (access : State → State) (s : State) : Host.Outcome State Fault Refusal :=
  if s.status.busy then .refused .xmemAccessWhileBusy
  else if k < P.xmemSize then .next (access s)
  else .fault (.noSuchXmemElement k)

/-- The host writes an XMEM element. -/
def storeXmem (k : Nat) (v : F64) (s : State) : State := { s with xmem := xmemWrite s.xmem k v }

/-- The host reads an XMEM element; one never written reads as a draw, anew at each read (20_memory.md R63). -/
def loadXmem (P : Params) (k : Nat) (s : State) : State :=
  { s with hostData := xmemRead (P.draw s.drawCount 0) s.xmem k, drawCount := s.drawCount + 1 }

/-- Everything inside the core at its reset value, rst at the given level; XMEM is not reset by the core, and the
model's own fields go on (10_state.md R53, 70_reset_and_hazards.md R260). -/
def resetCore (P : Params) (level : Bool) (s : State) : State :=
  { State.resetWith P with
    rst := level, xmem := s.xmem, host := s.host, hostData := s.hostData, drawCount := s.drawCount }

/-- rst is asserted, at any time: the core is idle in its reset state; a running command is interrupted, which
leaves its output range of XMEM unspecified (70_reset_and_hazards.md R260). -/
def assertReset (P : Params) (s : State) : State :=
  resetCore P true (if s.status.busy then { s with xmem := interruptedXmem s } else s)

/-- rst is released: every piece of state has its reset value (70_reset_and_hazards.md R260). Releasing what is not
asserted does nothing. -/
def releaseReset (P : Params) (s : State) : State := if s.rst then resetCore P false s else s

/-- The host waits: an idle core does nothing, a busy one makes one move. -/
def waitMove (P : Params) (s : State) : State := if s.status.busy then advance P s else s

/-- One host move and all it causes. -/
def hostMove (P : Params) (run : Runner) (move : HostMove) (s : State) : Host.Outcome State Fault Refusal :=
  match move with
  | .writeReg a d => busWrite P run a d s
  | .startCmd d => .next (startWrite P (busWord d) s)
  | .readReg a => .next (busRead P a s)
  | .writeXmem k v => hostXmem P k (storeXmem k v) s
  | .readXmem k => hostXmem P k (loadXmem P k) s
  | .assertReset => .next (assertReset P s)
  | .releaseReset => .next (releaseReset P s)
  | .wait => .next (waitMove P s)

/-- The next host move is taken off the list and made; with none left the host waits. -/
def hostStep (P : Params) (run : Runner) (s : State) : Host.Outcome State Fault Refusal :=
  match s.host with
  | [] => .next (waitMove P s)
  | move :: rest => hostMove P run move { s with host := rest }

end Sys2Proof.Machine
end

