-- ==== Sys2Proof/Machine/Step.lean ====
section
/-! DEFINITION. One step of the machine: the host's next move, with the command it issues, if it issues one
(00_scope.md R15; log entry 1). -/

namespace Sys2Proof.Machine

/-- One step. -/
def step (s : State) : Host.Outcome State Fault Refusal := hostStep Config.params exec s

/-- The state whose next step is the host's write of CMD with the given word: the core fetches no commands, they
arrive through CMD (10_state.md R34, R36), so the next instruction is the host's next move. -/
def State.withFetchWord (s : State) (nbits w : Nat) : State :=
  { s with host := .writeReg (addrOf .cmd) (tableBusData nbits w) :: s.host }

end Sys2Proof.Machine
end

