-- ==== Sys2Proof/Safety.lean ====
section
/-! DEFINITION. The terms claims use: an idle core, the invariant of a core, a clean run, when a command passes its
issue checks, what a block of DLY.PROC or LFO.PROC does sample by sample, and what it means that a magnitude is the
nearest to an exact value (40_numerics.md R120). -/

namespace Sys2Proof.Machine

/-- The core accepts a command: FAULT = 0 and BUSY = 0 (30_encoding.md R100), and rst released
(70_reset_and_hazards.md R260). -/
abbrev Idle (s : State) : Prop := s.status.fault = false ∧ s.status.busy = false ∧ s.rst = false

/-- The core ignores a bus write: rst is asserted, or FAULT = 1
(70_reset_and_hazards.md R260, 60_exceptions.md R241). -/
abbrev Deaf (s : State) : Prop := s.rst = true ∨ s.status.fault = true

/-- A bus write is a BUSY_VIOLATION: rst released, FAULT = 0, BUSY = 1
(60_exceptions.md R233). -/
abbrev Violated (s : State) : Prop := s.rst = false ∧ s.status.fault = false ∧ s.status.busy = true

/-- A claim about a run takes FAULT = 0, and one about output values OOR = 0 (60_exceptions.md R241, R246). -/
abbrev Clean (s : State) : Prop := s.status.fault = false ∧ s.status.oor = false

/-- phase is in the cycle range [0, 1), or a NaN (10_state.md R30). -/
abbrev PhaseInRange (p : F32) : Prop := f32IsNaN p = true ∨ (f32Le f32Zero p = true ∧ f32Lt p f32One = true)

/-- feedbackSmoothed is at most 1.0, or a NaN (10_state.md R26). -/
abbrev FeedbackClamped (v : F64) : Prop := f64IsNaN v = true ∨ f64Le v f64One = true

/-- FAULT, CAUSE and INFO as the table of causes has them (60_exceptions.md R231). -/
def StatusConsistent (t : Status) : Prop :=
  match t.cause with
  | .none => t.fault = false ∧ t.info = 0
  | .illegalCmd => t.fault = true ∧ t.info = 0
  | .busyViolation => t.fault = true ∧ t.info = 0
  | .dlyUnconfigured => t.fault = true ∧ t.info = 0
  | .lfoUnconfigured => t.fault = true ∧ t.info = 0
  | .lfoCount => t.fault = true ∧ t.info = 0
  | .badHandle => t.fault = true ∧ t.info = 4
  | .bounds => t.fault = true ∧ 1 ≤ t.info.toNat ∧ t.info.toNat ≤ 4

/-- A memory of n elements is in canonical form and lists no element it does not have. -/
abbrev MemInv {w : Nat} (dflt : Option (BitVec w)) (n : Nat) (m : Mem w) : Prop :=
  memWf dflt m = true ∧ memBelow n m = true

/-- A running command, latched in CMD_L, has passed its issue checks as far as they bound what it writes
(42_delay_process.md R161, 44_lfo.md R213). -/
structure RunningInv (P : Params) (s : State) : Prop where
  /-- A faulted core runs nothing (60_exceptions.md R240). -/
  unfaulted : s.status.fault = false
  /-- DLY.PROC writes an output range that XMEM has. -/
  output : decode s.seq.cmd = .ok .dlyProc → s.seq.ops.hOut.msb = false ∧
    handleBase s.seq.ops.hOut + s.seq.ops.count.toNat ≤ P.xmemSize
  /-- LFO.PROC writes at most CAP elements. -/
  count : decode s.seq.cmd = .ok .lfoProc → s.seq.ops.count.toNat ≤ P.cap

/-- The invariant of a core. -/
structure CoreInv (P : Params) (s : State) : Prop where
  /-- With BUSY = 1 a command runs that was accepted (30_encoding.md R100). -/
  running : s.status.busy = true → RunningInv P s
  /-- While rst is asserted the core is idle (70_reset_and_hazards.md R260). -/
  held : s.rst = true → s.status.busy = false ∧ s.status.fault = false
  /-- 0 <= writeIndex < CAP at all times (10_state.md R22). -/
  writeIndex : s.dly.writeIndex < P.cap
  /-- feedbackSmoothed <= 1.0 or a NaN (10_state.md R26), but after a BUSY_VIOLATION any value (60_exceptions.md R233,
  93_implementation_defined.md U10). -/
  feedback : s.status.cause ≠ .busyViolation → FeedbackClamped s.dly.feedbackSmoothed
  /-- phase in its cycle range (10_state.md R30), but after a BUSY_VIOLATION any value. -/
  phase : s.status.cause ≠ .busyViolation → PhaseInRange s.lfo.phase
  /-- 0 <= LFO_VALID <= CAP (10_state.md R31). -/
  valid : s.lfo.valid ≤ P.cap
  /-- RING has CAP elements (20_memory.md R61). -/
  ring : MemInv (some f64Zero) P.cap s.dly.ring
  /-- LFOBUF has CAP elements (20_memory.md R62). -/
  buf : MemInv (some f32Zero) P.cap s.lfo.buf
  /-- XMEM has XMEM_SIZE elements (20_memory.md R63). -/
  xmem : MemInv none P.xmemSize s.xmem
  /-- STATUS records a fault as the table of causes has it (60_exceptions.md R231). -/
  status : StatusConsistent s.status

/-- The host's next move writes the word of command i to CMD (30_encoding.md R100). -/
def Issues (i : Instr) (s : State) : Prop :=
  ∃ d rest, decode (busWord d) = .ok i ∧
    ((∃ a, s.host = .writeReg a d :: rest ∧ regAt a = .cmd) ∨ s.host = .startCmd d :: rest)

/-- Command i runs: BUSY = 1 and CMD_L is its word (10_state.md R33). -/
def Runs (i : Instr) (s : State) : Prop := s.status.busy = true ∧ decode s.seq.cmd = .ok i

/-- Command i is issued by the host's next move, or runs. -/
def Acts (i : Instr) (s : State) : Prop := Issues i s ∨ Runs i s

/-- The host's next move writes the register n, other than by `startCmd` (20_memory.md R64). -/
def Writes (n : RegName) (s : State) : Prop := ∃ a d rest, s.host = .writeReg a d :: rest ∧ regAt a = n

/-- The host's next move is a CMD write by `startCmd` (00_scope.md R15). -/
def Starts (s : State) : Prop := ∃ d rest, s.host = .startCmd d :: rest

/-- The host's next move is a BUSY_VIOLATION: a bus write, of CMD or of another register, while BUSY
(60_exceptions.md R233). -/
def Abandons (s : State) : Prop := Violated s ∧ ((∃ n, Writes n s) ∨ Starts s)

/-- The host's next move is to wait; with no move left the host waits. -/
def Waits (s : State) : Prop := s.host = [] ∨ ∃ rest, s.host = .wait :: rest

/-- The host's next move asserts or releases rst (70_reset_and_hazards.md R260). -/
def Resets (s : State) : Prop := ∃ rest, s.host = .assertReset :: rest ∨ s.host = .releaseReset :: rest

/-- Element k of XMEM lies in the output range of a running DLY.PROC (42_delay_process.md R160). -/
def InRunningOutput (s : State) (k : Nat) : Prop :=
  Runs .dlyProc s ∧ handleBase s.seq.ops.hOut ≤ k ∧ k < handleBase s.seq.ops.hOut + s.seq.ops.count.toNat

/-- A sample rate is a finite value above zero (42_delay_process.md R161, 44_lfo.md R213). -/
abbrev Configured (rate : F64) : Prop := f64IsFinite rate = true ∧ f64Lt f64Zero rate = true

/-- n elements from a handle's base on lie in the space it names (20_memory.md R71). -/
def Fits (P : Params) (s : State) (h : Handle) (n : Nat) : Prop :=
  if h.msb then handleBase h + n ≤ s.lfo.valid else handleBase h + n ≤ P.xmemSize

/-- DLY.PROC, issued now, passes its issue checks (42_delay_process.md R161). -/
structure DlyProcReady (P : Params) (s : State) : Prop where
  idle : Idle s
  rate : Configured s.dly.sampleRate
  out : s.regs.hOut.msb = false
  fitsIn : Fits P s s.regs.hIn s.regs.count.toNat
  fitsMod : Fits P s s.regs.hMod s.regs.count.toNat
  fitsEnv : Fits P s s.regs.hEnv s.regs.count.toNat
  fitsOut : Fits P s s.regs.hOut s.regs.count.toNat

/-- LFO.PROC, issued now, passes its issue checks (44_lfo.md R213). -/
structure LfoProcReady (P : Params) (s : State) : Prop where
  idle : Idle s
  rate : Configured s.lfo.sampleRate
  count : s.regs.count.toNat ≤ P.cap

/-- A command, issued now, passes its issue checks (60_exceptions.md R239). -/
def Ready (P : Params) (i : Instr) (s : State) : Prop :=
  match i with
  | .dlyProc => DlyProcReady P s
  | .lfoProc => LfoProcReady P s
  | .dlySetsr => Idle s
  | .dlyReset => Idle s
  | .lfoSetsr => Idle s
  | .lfoReset => Idle s
  | .lfoGetbuf => Idle s

/-- v is element i of the buffer the handle h names, over the XMEM x and the LFOBUF buf: with SPACE 0 it is
XMEM[BASE + i], the draw where nothing has written that element; with SPACE 1 it is LFOBUF[BASE + i] widened, the
NaN of widening a NaN being drawn (20_memory.md R65, R77, R63; 30_encoding.md R93). -/
structure BufferElement (x : Mem 64) (buf : Mem 32) (drawn : F64) (h : Handle) (i : Nat) (v : F64) : Prop where
  xmem : h.getLsbD 31 = false → v = xmemRead drawn x ((h.extractLsb' 0 31).toNat + i)
  lfobuf : h.getLsbD 31 = true → v = f64OfF32 (nanOf64 drawn) (lfoRead buf ((h.extractLsb' 0 31).toNat + i))

/-- One iteration of the loop of 42_delay_process.md R160, for sample n: what it leaves (d', x', o') of what it finds
(d, x, o), with the operands and LFOBUF of s, the block's drive, and the draws δ. d is the DelayEngine, x XMEM,
o STATUS.OOR; a, m and e are the elements of the input, modulation and envelope buffers. -/
structure DlySampleRule (P : Params) (s : State) (drive : F64) (δ : Draws) (n : Nat) (a m e : F64)
    (d d' : DelayEngine) (x x' : Mem 64) (o o' : Bool) : Prop where
  /-- a is RdBuf(H_IN_L, n), read before anything of the sample is written (R160, 20_memory.md R72). -/
  input : BufferElement x s.lfo.buf (δ 0) s.regs.hIn n a
  /-- m is RdBuf(H_MOD_L, n). -/
  modulation : BufferElement x s.lfo.buf (δ 1) s.regs.hMod n m
  /-- e is RdBuf(H_ENV_L, n). -/
  envelope : BufferElement x s.lfo.buf (δ 2) s.regs.hEnv n e
  /-- Step 1 (R164): CLAMP_HI(SMOOTH(feedbackSmoothed, FB_BASE_L + e * FB_ENV_AMT_L, K_FINE)). -/
  feedback : d'.feedbackSmoothed = clampHi P (smooth δ 5 d.feedbackSmoothed
    (f64Add (nan64 δ 4) s.regs.fbBase (f64Mul (nan64 δ 3) e s.regs.fbEnvAmt)) P.kFine)
  /-- Step 2 (R165): SMOOTH(timeSmoothed, BASE_DELAY_S + MOD_DEPTH_S * m, K_FINE). -/
  time : d'.timeSmoothed = smooth δ 11 d.timeSmoothed
    (f64Add (nan64 δ 10) P.baseDelayS (f64Mul (nan64 δ 9) P.modDepthS m)) P.kFine
  /-- Steps 3 and 5 (R166, R168): feedbackSample is INTERP(timeSmoothed * dly.sampleRate). -/
  tap : d'.feedbackSample =
    (interp P δ 15 d.ring d.writeIndex (f64Mul (nan64 δ 14) d'.timeSmoothed d.sampleRate)).value
  /-- STATUS.OOR is set when the tap was read out of range, and never cleared (43_interpolated_read.md R195). -/
  oor : o' = (o || (interp P δ 15 d.ring d.writeIndex (f64Mul (nan64 δ 14) d'.timeSmoothed d.sampleRate)).oor)
  /-- Step 4 (R167): RING[writeIndex] is SOFTCLIP(a + feedbackSample * MAPFB(feedbackSmoothed), drive), with the
  previous sample's feedbackSample; every other element as before. -/
  ring : ∀ k, ringRead d'.ring k =
    if k = d.writeIndex then
      softClip P δ 28 (f64Add (nan64 δ 27) a
        (f64Mul (nan64 δ 26) d.feedbackSample (mapFb P δ 8 d'.feedbackSmoothed))) drive
    else ringRead d.ring k
  /-- Step 6 (R169): SMOOTH(wetSmoothed, WET_DRY_L, K_FINE). -/
  wet : d'.wetSmoothed = smooth δ 32 d.wetSmoothed s.regs.wetDry P.kFine
  /-- Step 6 (R169): the output element is XFADE(a, r, wetSmoothed), that is a * (1.0 - wetSmoothed) + r * wetSmoothed
  in four operations (40_numerics.md R134), r the tap; every other XMEM element as before. -/
  out : ∀ r k, xmemRead r x' k =
    if k = handleBase s.regs.hOut + n then
      f64Add (nan64 δ 38) (f64Mul (nan64 δ 36) a (f64Sub (nan64 δ 35) f64One d'.wetSmoothed))
        (f64Mul (nan64 δ 37) d'.feedbackSample d'.wetSmoothed)
    else xmemRead r x k
  /-- Step 7 (R170): (writeIndex + 1) mod CAP. -/
  writeIndex : d'.writeIndex = (d.writeIndex + 1) % P.cap
  /-- sampleRate is not written (R160). -/
  sampleRate : d'.sampleRate = d.sampleRate
  /-- softClipSmoothed is written once per block, not per sample (R162). -/
  softClip : d'.softClipSmoothed = d.softClipSmoothed

/-- One unit in the last place of a binary64 number, in units of the least subnormal (40_numerics.md R132). -/
def lastPlaceUnits (a : F64) : Nat := 2 ^ (magOf binary64 a.toNat / 2 ^ binary64.fracBits - 1)

/-- What TANH_ULP says (00_scope.md R7, 40_numerics.md R132): TANH of a finite x is within TANH_ULP units in the last
place of the real tanh. It qualifies test vectors; a claim that rests on it takes it as a premise (log entry 25). -/
def TanhAccurate (P : Params) : Prop :=
  ∀ x : F64, f64IsFinite x = true →
    |(f64Units (P.tanh x) : ℝ) - Real.tanh ((f64Units x : ℝ) / oneUnits binary64) * oneUnits binary64| ≤
      P.tanhUlp * lastPlaceUnits (P.tanh x)

/-- What DLY.PROC does to a state that passes its issue checks (42_delay_process.md R160): the block-rate part
(R162), with drive = MAPDRIVE(softClipSmoothed) = softClipSmoothed * DRIVE_MAX (40_numerics.md R130), then N iterations
in order (R163), each over its elements of the three input buffers; everything else as before. -/
def DlyProcRule (P : Params) (s t : State) : Prop :=
  ∃ (δ₀ : Draws) (δ : Nat → Draws) (d : Nat → DelayEngine) (x : Nat → Mem 64) (o : Nat → Bool),
    d 0 = { s.dly with softClipSmoothed := smooth δ₀ 0 s.dly.softClipSmoothed s.regs.scAmt P.kGeneric } ∧
    x 0 = s.xmem ∧ o 0 = s.status.oor ∧
    (∀ n, n < s.regs.count.toNat → ∃ a m e : F64,
      DlySampleRule P s (f64Mul (nan64 δ₀ 3) (d 0).softClipSmoothed P.driveMax) (δ n) n a m e (d n) (d (n + 1))
        (x n) (x (n + 1)) (o n) (o (n + 1))) ∧
    t.dly = d s.regs.count.toNat ∧ t.xmem = x s.regs.count.toNat ∧
    t.status = { s.status with oor := o s.regs.count.toNat } ∧
    t.lfo = s.lfo ∧ t.regs = s.regs ∧ t.result = s.result ∧ t.host = s.host ∧ t.hostData = s.hostData

/-- What LFO.PROC does to a state that passes its issue checks (44_lfo.md R212): with p n the phase before sample n,
element n is LFO_DEPTH_L * WAVE(p n + LFO_PHOFF_L) and p (n + 1) is PHASEWRAP(p n + inc), where
inc = round32(widen(LFO_RATE_L) / lfo.sampleRate) (R214, R215); LFO_VALID is N; everything else as before. -/
def LfoProcRule (P : Params) (s t : State) : Prop :=
  ∃ (δ : Nat → Draws) (p : Nat → F32),
    p 0 = s.lfo.phase ∧
    (∀ n, n < s.regs.count.toNat →
      p (n + 1) = phaseWrap (δ n) 10 (f32Add (nan32 (δ n) 9) (p n)
        (f32OfF64 (nan32 (δ n) 2)
          (f64Div (nan64 (δ n) 1) (f64OfF32 (nan64 (δ n) 0) s.regs.lfoRate) s.lfo.sampleRate)))) ∧
    (∀ k, lfoRead t.lfo.buf k =
      if k < s.regs.count.toNat then
        f32Mul (nan32 (δ k) 8) s.regs.lfoDepth (waveOp P (δ k) 4 (f32Add (nan32 (δ k) 3) (p k) s.regs.lfoPhoff))
      else lfoRead s.lfo.buf k) ∧
    t.lfo.phase = p s.regs.count.toNat ∧ t.lfo.valid = s.regs.count.toNat ∧
    t.lfo.sampleRate = s.lfo.sampleRate ∧
    t.dly = s.dly ∧ t.status = s.status ∧ t.regs = s.regs ∧ t.result = s.result ∧ t.xmem = s.xmem ∧
    t.host = s.host ∧ t.hostData = s.hostData

/-- The infinity of a sign, true for negative (30_encoding.md R94). -/
def f64Inf (neg : Bool) : F64 := if neg then 0xFFF0000000000000#64 else 0x7FF0000000000000#64

/-- The zero of a sign, true for negative (30_encoding.md R94). -/
def f64SignedZero (neg : Bool) : F64 := if neg then 0x8000000000000000#64 else f64Zero

/-- The binary32 infinity of a sign. -/
def f32Inf (neg : Bool) : F32 := if neg then 0xFF800000#32 else 0x7F800000#32

/-- The binary32 zero of a sign. -/
def f32SignedZero (neg : Bool) : F32 := if neg then 0x80000000#32 else f32Zero

/-- A finite number that is a zero, of either sign. -/
abbrev IsZero64 (a : F64) : Prop := f64IsFinite a = true ∧ f64Units a = 0

/-- A finite number that is a zero, of either sign. -/
abbrev IsZero32 (a : F32) : Prop := f32IsFinite a = true ∧ f32Units a = 0

/-- The distance of two naturals. -/
def natDist (a b : Nat) : Nat := (a - b) + (b - a)

/-- The magnitude bits `mag` are the exact magnitude num / den (in units, den above 0) rounded once: no magnitude
up to infinity is nearer, and between two equally near ones `mag` is the one with an even last bit
(40_numerics.md R120). With infinity at the place of the power of two after the largest number this is also the
IEEE 754 overflow rule (R124). -/
def RoundedTo (f : Fmt) (num den mag : Nat) : Prop :=
  mag ≤ infMag f ∧
  ∀ v, v ≤ infMag f →
    natDist (magUnits f mag * den) num ≤ natDist (magUnits f v * den) num ∧
    (natDist (magUnits f mag * den) num = natDist (magUnits f v * den) num → v = mag ∨ mag % 2 = 0)

end Sys2Proof.Machine
end

