-- ==== Sys2Proof/WellFormed.lean ====
section
/-! DEFINITION. What a well-formed term of the syntax is (30_encoding.md R90, R101 to R103). A command has no
operand inside its word, so every command is well-formed; a command line is well-formed when its operands are
those its command's textual form lists, each at most once and each within its register's width. -/

namespace Sys2Proof

/-- A command word carries no operand (30_encoding.md R90), so there is nothing to check: every command is
well-formed. -/
def Instr.wf : Instr → Bool
  | .dlySetsr => true
  | .dlyReset => true
  | .dlyProc => true
  | .lfoSetsr => true
  | .lfoReset => true
  | .lfoProc => true
  | .lfoGetbuf => true

/-- The operand names of a command's textual form (30_encoding.md R101). -/
def operandNames : Instr → List OperandName
  | .dlySetsr => [.sr]
  | .dlyReset => []
  | .dlyProc => [.n, .input, .modulation, .env, .out, .fb, .fbenv, .wet, .sc]
  | .lfoSetsr => [.sr]
  | .lfoReset => []
  | .lfoProc => [.n, .rate, .depth, .phoff]
  | .lfoGetbuf => []

/-- The width in bits of an operand: F64 operands 64, COUNT, handles and F32 operands 32 (30_encoding.md R92). -/
def operandWidth : OperandName → Nat
  | .sr | .fb | .fbenv | .wet | .sc => 64
  | .n | .input | .modulation | .env | .out | .rate | .depth | .phoff => 32

/-- An operand's value fits its register. -/
def LineOperand.fits (o : LineOperand) : Bool := decide (o.value.toNat < 2 ^ operandWidth o.name)

/-- A command line is well-formed (30_encoding.md R101): its operands are named in its command's form, none is
named twice, and every value fits. -/
def CmdLine.wf (l : CmdLine) : Bool :=
  l.command.wf &&
  l.operands.all (fun o => (operandNames l.command).contains o.name) &&
  decide ((l.operands.map LineOperand.name).Nodup) &&
  l.operands.all LineOperand.fits

/-- CHORUS.BLOCK requires N <= CAP (30_encoding.md R103). -/
def ChorusBlock.wf (P : Params) (b : ChorusBlock) : Bool := decide (b.n.toNat ≤ P.cap)

end Sys2Proof
end

