-- ==== Sys2Proof/Certificates/Slice0/Obligations.lean ====
section
/-! DEFINITION. The statements for the provers. Each docstring names the rule of spec/ it formalises. The fields
host, hostData and drawCount are the model's own (log entries 1, 2 and 6); what a statement says of the latched
copies after a command rests on 10_state.md R33 and log entry 14. -/

section

open Sys2Proof Sys2Proof.Machine

/-! ## encoding -/

/-- 30_encoding.md R91: the seven words of the opcode map decode to their commands. -/
def Obligations.CommandWords : Prop :=
  decodeTableWord 32 0x00000001 = some .dlySetsr ∧
  decodeTableWord 32 0x00000002 = some .dlyReset ∧
  decodeTableWord 32 0x00000003 = some .dlyProc ∧
  decodeTableWord 32 0x00000011 = some .lfoSetsr ∧
  decodeTableWord 32 0x00000012 = some .lfoReset ∧
  decodeTableWord 32 0x00000013 = some .lfoProc ∧
  decodeTableWord 32 0x00000014 = some .lfoGetbuf

/-- 30_encoding.md R91, R97: decoding and encoding agree in both directions, so that of the 2^32 words exactly the
seven encodings are commands. -/
def Obligations.EncodingIsExact : Prop :=
  (∀ i : Instr, decode (encode i) = .ok i) ∧ (∀ (w : CmdWord) (i : Instr), decode w = .ok i → w = encode i)

/-- 30_encoding.md R97: every word that is not one of the seven is illegal, and issuing it raises
Fault(ILLEGAL_CMD, 0) and changes nothing else. -/
def Obligations.IllegalWordFaults : Prop :=
  (∀ w : CmdWord, (∀ i, w ≠ encode i) ↔ ∃ e, decode w = .error e) ∧
  (∀ (s : State) (d : BusData) (rest : List HostMove), Idle s →
    s.host = .writeReg (addrOf .cmd) d :: rest ∨ s.host = .startCmd d :: rest → (∀ i, busWord d ≠ encode i) →
    step s = .next { s with
      host := rest
      status := { busy := false, fault := true, oor := s.status.oor, cause := .illegalCmd, info := 0 } })

/-- 30_encoding.md R93: bit 31 of a handle is its SPACE, bits 30:0 are its BASE, and every SPACE and BASE is some
handle's. -/
def Obligations.HandleFormat : Prop :=
  (∀ h : Handle, handleIsLfo h = h.getLsbD 31 ∧ handleBase h = (h.extractLsb' 0 31).toNat) ∧
  (∀ b : BitVec 31, handleIsLfo (xmemHandle b) = false ∧ handleBase (xmemHandle b) = b.toNat ∧
    handleIsLfo (lfoHandle b) = true ∧ handleBase (lfoHandle b) = b.toNat)

/-- 30_encoding.md R90, R98: of the 64-bit data of a bus write only bits [31:0] matter to CMD, COUNT, the handle
registers and the LFO's operand registers. -/
def Obligations.UpperHalfIgnored : Prop :=
  ∀ (s : State) (rest : List HostMove) (d d' : BusData), d.setWidth 32 = d'.setWidth 32 →
    (∀ a : RegAddr, regAt a ∉ [RegName.sr, .fbBase, .fbEnvAmt, .wetDry, .scAmt] →
      step { s with host := .writeReg a d :: rest } = step { s with host := .writeReg a d' :: rest }) ∧
    step { s with host := .startCmd d :: rest } = step { s with host := .startCmd d' :: rest }

/-- 30_encoding.md R102: a command line expands into one write for each operand, in order, then the command's word to
CMD; and the register address each operand name is written to. Also 10_state.md R36, R37, R51: the addresses of
CMD, STATUS and RESULT, and every address is its own register's. -/
def Obligations.OperandTable : Prop :=
  (∀ (c : Instr) (ops : List LineOperand),
    expand { command := c, operands := ops } =
      ops.map (fun o => HostMove.writeReg (addrOf (registerOf o.name)) o.value) ++
        [.writeReg 0x0#4 ((encode c).setWidth 64)]) ∧
  addrOf (registerOf .n) = 0x2#4 ∧ addrOf (registerOf .sr) = 0x3#4 ∧ addrOf (registerOf .fb) = 0x4#4 ∧
  addrOf (registerOf .fbenv) = 0x5#4 ∧ addrOf (registerOf .wet) = 0x6#4 ∧ addrOf (registerOf .sc) = 0x7#4 ∧
  addrOf (registerOf .input) = 0x8#4 ∧ addrOf (registerOf .modulation) = 0x9#4 ∧
  addrOf (registerOf .env) = 0xA#4 ∧ addrOf (registerOf .out) = 0xB#4 ∧ addrOf (registerOf .rate) = 0xC#4 ∧
  addrOf (registerOf .depth) = 0xD#4 ∧ addrOf (registerOf .phoff) = 0xE#4 ∧ addrOf .cmd = 0x0#4 ∧
  addrOf .status = 0x1#4 ∧ addrOf .result = 0xF#4 ∧
  (∀ n : RegName, regAt (addrOf n) = n)

/-- 30_encoding.md R101, R102: the bus writes of a well-formed command line, from an idle core, run its command with
every named operand in its register and every other register as it was. -/
def Obligations.CommandLineRuns : Prop :=
  ∀ (l : CmdLine) (s : State) (rest : List HostMove), l.wf = true → Idle s → s.host = expand l ++ rest →
    ∃ regs : OperandRegs,
      Host.Core.run Sys2Proof.core (l.operands.length + 1) s = exec l.command { s with regs := regs, host := rest } ∧
      (∀ o ∈ l.operands, readRegister { s with regs := regs } (registerOf o.name) = o.value) ∧
      (∀ r : RegName, (∀ o ∈ l.operands, registerOf o.name ≠ r) →
        readRegister { s with regs := regs } r = readRegister s r)

/-- 30_encoding.md R103: CHORUS.BLOCK, with both sample rates configured and its buffers in bounds, runs to its end:
no fault, RESULT = L:0, LFO_VALID = N, the write index N further, XMEM unchanged outside the output range, every
operand register as the block names it. -/
def Obligations.ChorusBlockRuns : Prop :=
  ∀ (b : ChorusBlock) (s : State) (rest : List HostMove), CoreInv Config.params s → Idle s →
    s.host = (expandBlock b).flatMap expand ++ rest → b.wf Config.params = true →
    Configured s.lfo.sampleRate → Configured s.dly.sampleRate → b.output.msb = false →
    (∀ h ∈ [b.input, b.envelope, b.output],
      if h.msb then handleBase h = 0 else handleBase h + b.n.toNat ≤ Config.params.xmemSize) →
    ∃ t : State,
      Host.Core.run Sys2Proof.core ((expandBlock b).flatMap expand).length s = .next t ∧
      t.host = rest ∧ Idle t ∧ t.result = 0x80000000#32 ∧ t.lfo.valid = b.n.toNat ∧
      t.dly.writeIndex = (s.dly.writeIndex + b.n.toNat) % Config.params.cap ∧
      t.dly.sampleRate = s.dly.sampleRate ∧ t.lfo.sampleRate = s.lfo.sampleRate ∧
      (∀ r k, k < handleBase b.output ∨ handleBase b.output + b.n.toNat ≤ k →
        xmemRead r t.xmem k = xmemRead r s.xmem k) ∧
      t.regs = { count := b.n, sr := s.regs.sr, fbBase := b.fb, fbEnvAmt := b.fbenv, wetDry := b.wet, scAmt := b.sc,
                 hIn := b.input, hMod := 0x80000000#32, hEnv := b.envelope, hOut := b.output, lfoRate := b.rate,
                 lfoDepth := b.depth, lfoPhoff := b.phoff }

/-! ## reset and invariant -/

/-- 10_state.md R53: the values after reset that the spec gives; softClipSmoothed is SC_POWERON, one of +0.0 and
SC_FLOOR; an XMEM element reads as whatever is drawn. -/
def Obligations.ResetValues : Prop :=
  State.reset.dly.sampleRate = 0xBFF0000000000000#64 ∧ State.reset.dly.writeIndex = 0 ∧
  State.reset.dly.feedbackSample = f64Zero ∧ State.reset.dly.timeSmoothed = f64Zero ∧
  State.reset.dly.wetSmoothed = f64Zero ∧ State.reset.dly.feedbackSmoothed = f64Zero ∧
  State.reset.dly.softClipSmoothed = Config.params.scPowerOn ∧
  (Config.params.scPowerOn = f64Zero ∨ Config.params.scPowerOn = Config.params.scFloor) ∧
  (∀ k, ringRead State.reset.dly.ring k = f64Zero) ∧
  State.reset.lfo.sampleRate = 0xBFF0000000000000#64 ∧ State.reset.lfo.phase = f32Zero ∧
  (∀ k, lfoRead State.reset.lfo.buf k = f32Zero) ∧ State.reset.lfo.valid = 0 ∧
  statusWord State.reset.status = 0 ∧
  State.reset.regs = { count := 0, sr := 0, fbBase := 0, fbEnvAmt := 0, wetDry := 0, scAmt := 0, hIn := 0, hMod := 0,
                       hEnv := 0, hOut := 0, lfoRate := 0, lfoDepth := 0, lfoPhoff := 0 } ∧
  State.reset.result = 0 ∧ State.reset.rst = false ∧ (∀ r k, xmemRead r State.reset.xmem k = r)

/-- The reset state meets the invariant. -/
def Obligations.ResetMeetsInvariant : Prop := CoreInv Config.params State.reset

/-- 10_state.md R22, R26, R30, R31, 20_memory.md R61 to R63, 60_exceptions.md R231: every step keeps the
invariant, also while a command runs (42_delay_process.md R161, 44_lfo.md R213) and while rst is asserted
(70_reset_and_hazards.md R260). -/
def Obligations.StepKeepsInvariant : Prop :=
  ∀ s t : State, CoreInv Config.params s → step s = .next t → CoreInv Config.params t

/-- 70_reset_and_hazards.md R260, 93_implementation_defined.md U19: rst, asserted from any state, also a faulted or
a busy one, gives every piece of the core's state its reset value and does not reset XMEM, of which only the output
range of an interrupted DLY.PROC becomes unspecified (each read of it is a draw). While rst is asserted the core
ignores the bus; released, it has its reset values. That the reset values are there from the assertion on, and that a
read under rst answers a draw, is the model's choice (log entry 22). -/
def Obligations.HardwareResetMove : Prop :=
  let inReset := fun (t : State) => t.dly = State.reset.dly ∧ t.lfo = State.reset.lfo ∧
    t.status = { busy := false, fault := false, oor := false, cause := .none, info := 0 } ∧
    t.regs = State.reset.regs ∧ t.result = 0
  (∀ (s : State) (rest : List HostMove), s.host = .assertReset :: rest →
    ∃ t : State, step s = .next t ∧ inReset t ∧ t.rst = true ∧ t.host = rest ∧ t.hostData = s.hostData ∧
      (∀ k r, ¬ InRunningOutput s k → xmemRead r t.xmem k = xmemRead r s.xmem k) ∧
      (∀ k r, InRunningOutput s k → xmemRead r t.xmem k = r)) ∧
  (∀ (s : State) (rest : List HostMove), s.host = .releaseReset :: rest → s.rst = true →
    ∃ t : State, step s = .next t ∧ inReset t ∧ t.rst = false ∧ t.host = rest ∧ t.hostData = s.hostData ∧
      t.xmem = s.xmem) ∧
  (∀ (s : State) (rest : List HostMove), s.rst = true →
    (∀ a d, s.host = .writeReg a d :: rest → step s = .next { s with host := rest }) ∧
    (∀ d, s.host = .startCmd d :: rest → step s = .next { s with host := rest }) ∧
    (∀ a, s.host = .readReg a :: rest → step s = .next { s with
      host := rest, hostData := Config.draw s.drawCount 0, drawCount := s.drawCount + 1 }))

/-- 00_scope.md R7, 40_numerics.md R131, R132, R136: the record of the modelled instance meets `Params.Valid`, the
constraints on the numbers of the record, every law of R132 on TANH, S2 and S3 on a configured SOFTCLIP, bound, NaN
rule and period of a configured WAVE, and the bound of the sine. Not in it, and not claimed: S2 and the period of the
default instances, which are their formulas (log entries 9, 10), and the accuracy TANH_ULP stands for (log entry
25). -/
def Obligations.ParamsMeetConstraints : Prop := Config.params.Valid

/-! ## the register bus and STATUS -/

/-- 20_memory.md R64, 30_encoding.md R95: in an idle core a read of a read-write register returns the last value
written, a 32-bit one zero-extended; no other register and no other state changes. -/
def Obligations.RegisterReadBack : Prop :=
  ∀ (s : State) (rest : List HostMove) (a : RegAddr) (d : BusData), Idle s →
    regAt a ∉ [RegName.cmd, .status, .result] → s.host = .writeReg a d :: .readReg a :: rest →
    ∃ t : State, Host.Core.run Sys2Proof.core 2 s = .next t ∧
      t.hostData = (if regAt a ∈ [RegName.sr, .fbBase, .fbEnvAmt, .wetDry, .scAmt] then d
        else (d.setWidth 32).setWidth 64) ∧
      (∀ n : RegName, n ≠ regAt a → readRegister t n = readRegister s n) ∧
      t = { s with regs := t.regs, host := rest, hostData := t.hostData }

/-- 10_state.md R36, R37, R51, 20_memory.md R64: an idle core ignores writes of STATUS and RESULT; with rst released a
read changes nothing but what the host has, and CMD reads 0. That every register answers also in a faulted core and
while BUSY is the model's choice (log entry 28). -/
def Obligations.ReadsAndReadOnly : Prop :=
  (∀ (s : State) (rest : List HostMove) (a : RegAddr) (d : BusData), Idle s → regAt a ∈ [RegName.status, .result] →
    s.host = .writeReg a d :: rest → step s = .next { s with host := rest }) ∧
  (∀ (s : State) (rest : List HostMove) (a : RegAddr), s.host = .readReg a :: rest →
    s.rst = false → step s = .next { s with host := rest, hostData := readRegister s (regAt a) }) ∧
  (∀ s : State, readRegister s .cmd = 0 ∧ readRegister s .status = (statusWord s.status).setWidth 64 ∧
    readRegister s .result = s.result.setWidth 64)

/-- 30_encoding.md R96: the layout of the STATUS word; and the cause codes of 60_exceptions.md R231. -/
def Obligations.StatusFormat : Prop :=
  (∀ t : Status,
    (statusWord t).getLsbD 0 = t.busy ∧ (statusWord t).getLsbD 1 = t.fault ∧ (statusWord t).getLsbD 2 = t.oor ∧
    (statusWord t).extractLsb' 3 5 = 0 ∧ (statusWord t).extractLsb' 8 4 = causeCode t.cause ∧
    (statusWord t).extractLsb' 12 4 = t.info ∧ (statusWord t).extractLsb' 16 16 = 0) ∧
  causeCode .none = 0 ∧ causeCode .illegalCmd = 1 ∧ causeCode .busyViolation = 2 ∧ causeCode .dlyUnconfigured = 3 ∧
  causeCode .lfoUnconfigured = 4 ∧ causeCode .lfoCount = 5 ∧ causeCode .badHandle = 6 ∧ causeCode .bounds = 7

/-- 10_state.md R35: while the host does not assert hardware reset, OOR stays set once set, and a faulted core keeps
FAULT, CAUSE and INFO. -/
def Obligations.StatusIsSticky : Prop :=
  ∀ s t : State, step s = .next t → ¬ Resets s →
    (s.status.oor = true → t.status.oor = true) ∧
    (s.status.fault = true →
      t.status.fault = true ∧ t.status.cause = s.status.cause ∧ t.status.info = s.status.info)

/-! ## faults -/

/-- 60_exceptions.md R241: a faulted core ignores every command and every register write. -/
def Obligations.FaultedCoreIgnores : Prop :=
  ∀ s : State, s.status.fault = true →
    (∀ i : Instr, exec i s = .next s) ∧
    (∀ (a : RegAddr) (d : BusData) (rest : List HostMove),
      s.host = .writeReg a d :: rest ∨ s.host = .startCmd d :: rest → step s = .next { s with host := rest })

/-- 60_exceptions.md R233, 93_implementation_defined.md U10: a register write while BUSY is a BUSY_VIOLATION. The value
is discarded, FAULT and CAUSE are set, BUSY is cleared, and some number of the running command's remaining moves has
run. The operand registers and XMEM outside the output buffer are as before; an element inside reads as a draw.
DelayEngine and LFO hold any value: for every such value that keeps writeIndex and LFO_VALID in their ranges, there
are draws that leave exactly it. That those two keep their ranges, and that OOR and RESULT are as the moves that ran
leave them, is the model's reading (log entry 18). -/
def Obligations.BusyViolation : Prop :=
  (∀ (s : State) (a : RegAddr) (d : BusData) (rest : List HostMove) (i : Instr),
    Violated s → s.host = .writeReg a d :: rest ∨ s.host = .startCmd d :: rest → decode s.seq.cmd = .ok i →
    ∃ (n : Nat) (t : State), n ≤ sampleSteps i s - s.seq.i.toNat + 1 ∧ step s = .next t ∧
      (let u := repeatStep (advance Config.params) n { s with host := rest, drawCount := s.drawCount + 1 }
       t.status = { busy := false, fault := true, oor := u.status.oor, cause := .busyViolation, info := 0 } ∧
       t.result = u.result) ∧
      t.regs = s.regs ∧ t.rst = false ∧ t.host = rest ∧ t.hostData = s.hostData ∧
      (∀ k r, ¬ InRunningOutput s k → xmemRead r t.xmem k = xmemRead r s.xmem k) ∧
      (∀ k r, InRunningOutput s k → xmemRead r t.xmem k = r) ∧
      t.dly.writeIndex < Config.params.cap ∧ t.lfo.valid ≤ Config.params.cap) ∧
  (∀ (P : Params) (run : Runner) (s : State) (rest : List HostMove) (d : DelayEngine) (l : Lfo), Violated s →
    (∃ a v, s.host = .writeReg a v :: rest ∧ regAt a ≠ .cmd) ∨ (∃ v, s.host = .startCmd v :: rest) →
    P.cap ≤ 2 ^ 31 - 1 → d.writeIndex < P.cap → l.valid ≤ P.cap →
    ∃ (draw : Nat → Draws) (t : State), hostStep { P with draw := draw } run s = .next t ∧
      t.dly = { d with ring := t.dly.ring } ∧ (∀ k, k < P.cap → ringRead t.dly.ring k = ringRead d.ring k) ∧
      t.lfo = { l with buf := t.lfo.buf } ∧ (∀ k, k < P.cap → lfoRead t.lfo.buf k = lfoRead l.buf k))

/-- 42_delay_process.md R161: the issue checks of DLY.PROC in their order, the first failing one raising its fault
with all state but STATUS unchanged; past all of them there is no fault. -/
def Obligations.DlyProcIssueChecks : Prop :=
  ∀ s : State, Idle s →
    let faulted := fun (c : Cause) (info : BitVec 4) =>
      exec .dlyProc s = .next { s with
        status := { busy := false, fault := true, oor := s.status.oor, cause := c, info := info } }
    (¬ Configured s.dly.sampleRate → faulted .dlyUnconfigured 0) ∧
    (Configured s.dly.sampleRate →
      (s.regs.hOut.msb = true → faulted .badHandle 4) ∧
      (s.regs.hOut.msb = false →
        (¬ Fits Config.params s s.regs.hIn s.regs.count.toNat → faulted .bounds 1) ∧
        (Fits Config.params s s.regs.hIn s.regs.count.toNat →
          (¬ Fits Config.params s s.regs.hMod s.regs.count.toNat → faulted .bounds 2) ∧
          (Fits Config.params s s.regs.hMod s.regs.count.toNat →
            (¬ Fits Config.params s s.regs.hEnv s.regs.count.toNat → faulted .bounds 3) ∧
            (Fits Config.params s s.regs.hEnv s.regs.count.toNat →
              (¬ Fits Config.params s s.regs.hOut s.regs.count.toNat → faulted .bounds 4) ∧
              (Fits Config.params s s.regs.hOut s.regs.count.toNat →
                ∃ t : State, exec .dlyProc s = .next t ∧ t.status.fault = false))))))

/-- 44_lfo.md R213: the issue checks of LFO.PROC in their order, the first failing one raising its fault with all
state but STATUS unchanged; past both, whatever the F32 operands, there is no fault. -/
def Obligations.LfoProcIssueChecks : Prop :=
  ∀ s : State, Idle s →
    (¬ Configured s.lfo.sampleRate →
      exec .lfoProc s = .next { s with
        status := { busy := false, fault := true, oor := s.status.oor, cause := .lfoUnconfigured, info := 0 } }) ∧
    (Configured s.lfo.sampleRate → Config.params.cap < s.regs.count.toNat →
      exec .lfoProc s = .next { s with
        status := { busy := false, fault := true, oor := s.status.oor, cause := .lfoCount, info := 0 } }) ∧
    (Configured s.lfo.sampleRate → s.regs.count.toNat ≤ Config.params.cap →
      ∃ t : State, exec .lfoProc s = .next t ∧ t.status.fault = false)

/-- 60_exceptions.md R230, R240: a command that ends faulted has changed FAULT, CAUSE and INFO of STATUS and nothing
else; and it ends so exactly when it does not pass its issue checks. -/
def Obligations.FaultsArePrecise : Prop :=
  ∀ (i : Instr) (s t : State), Idle s → exec i s = .next t →
    (t.status.fault = true →
      t = { s with status := { s.status with fault := true, cause := t.status.cause, info := t.status.info } }) ∧
    (t.status.fault = true ↔ ¬ Ready Config.params i s)

/-! ## the commands -/

/-- 41_delay_control.md R150. -/
def Obligations.DlySetsrResult : Prop :=
  ∀ s : State, Idle s →
    exec .dlySetsr s = .next { s with
      dly := { s.dly with sampleRate := s.regs.sr }
      seq := { s.seq with cmd := 0x00000001#32, ops := s.regs, i := 0 } }

/-- 41_delay_control.md R151. -/
def Obligations.DlyResetResult : Prop :=
  ∀ s : State, Idle s → ∃ t : State, exec .dlyReset s = .next t ∧
    t.dly.feedbackSample = f64Zero ∧ t.dly.timeSmoothed = f64Zero ∧ t.dly.wetSmoothed = f64Zero ∧
    t.dly.feedbackSmoothed = f64Zero ∧ t.dly.softClipSmoothed = Config.params.scFloor ∧
    (∀ k, ringRead t.dly.ring k = f64Zero) ∧
    t.dly.sampleRate = s.dly.sampleRate ∧ t.dly.writeIndex = s.dly.writeIndex ∧
    t = { s with dly := t.dly, seq := { s.seq with cmd := 0x00000002#32, ops := s.regs, i := 0 } }

/-- 41_delay_control.md R151 (a), 44_lfo.md R211: a reset command issued twice leaves what it leaves once. -/
def Obligations.ResetsAreIdempotent : Prop :=
  ∀ s t : State, Idle s →
    (exec .dlyReset s = .next t → exec .dlyReset t = .next t) ∧
    (exec .lfoReset s = .next t → exec .lfoReset t = .next t)

/-- 44_lfo.md R210. -/
def Obligations.LfoSetsrResult : Prop :=
  ∀ s : State, Idle s →
    exec .lfoSetsr s = .next { s with
      lfo := { s.lfo with sampleRate := s.regs.sr }
      seq := { s.seq with cmd := 0x00000011#32, ops := s.regs, i := 0 } }

/-- 44_lfo.md R211. -/
def Obligations.LfoResetResult : Prop :=
  ∀ s : State, Idle s → ∃ t : State, exec .lfoReset s = .next t ∧
    t.lfo.phase = f32Zero ∧ (∀ k, lfoRead t.lfo.buf k = f32Zero) ∧ t.lfo.valid = 0 ∧
    t.lfo.sampleRate = s.lfo.sampleRate ∧
    t = { s with lfo := t.lfo, seq := { s.seq with cmd := 0x00000012#32, ops := s.regs, i := 0 } }

/-- 44_lfo.md R216: RESULT is the handle of LFOBUF with base 0. -/
def Obligations.LfoGetbufResult : Prop :=
  (∀ s : State, Idle s →
    exec .lfoGetbuf s = .next { s with
      result := 0x80000000#32
      seq := { s.seq with cmd := 0x00000014#32, ops := s.regs, i := 0 } }) ∧
  handleIsLfo 0x80000000#32 = true ∧ handleBase 0x80000000#32 = 0

/-- 42_delay_process.md R160, R162 to R171: DLY.PROC past its issue checks completes with the block-rate part and N
iterations of its seven steps in order, over the elements that the three input handles name (20_memory.md R65,
R77); for every parameter record, and for exec. -/
def Obligations.DlyProcRuns : Prop :=
  (∀ (P : Params) (s : State), DlyProcReady P s → memWf (some f64Zero) s.dly.ring = true →
    memWf none s.xmem = true → DlyProcRule P s (dlyProcWith P s)) ∧
  (∀ s : State, DlyProcReady Config.params s → memWf (some f64Zero) s.dly.ring = true →
    memWf none s.xmem = true → ∃ t : State, exec .dlyProc s = .next t ∧ DlyProcRule Config.params s t)

/-- 42_delay_process.md R174 (a), R162: with N = 0 only the block-rate soft-clip smoothing runs, and drive is
softClipSmoothed * DRIVE_MAX (40_numerics.md R130). -/
def Obligations.DlyProcEmptyBlock : Prop :=
  ∀ s : State, DlyProcReady Config.params s → s.regs.count = 0 →
    let sc := smooth (Config.draw s.drawCount) 0 s.dly.softClipSmoothed s.regs.scAmt Config.params.kGeneric
    exec .dlyProc s = .next { s with
      dly := { s.dly with softClipSmoothed := sc }
      seq := { cmd := 0x00000003#32, ops := s.regs, i := 0,
               drive := f64Mul (nan64 (Config.draw s.drawCount) 3) sc Config.params.driveMax }
      drawCount := s.drawCount + 1 }

/-- 42_delay_process.md R160, R170, 20_memory.md R61: what DLY.PROC leaves unchanged, and where the write index
ends; for every parameter record, and for exec. -/
def Obligations.DlyProcFrame : Prop :=
  let frame := fun (P : Params) (s t : State) =>
    t.dly.writeIndex = (s.dly.writeIndex + s.regs.count.toNat) % P.cap ∧
    t.dly.sampleRate = s.dly.sampleRate ∧
    (∀ k, (∀ j, j < s.regs.count.toNat → k ≠ (s.dly.writeIndex + j) % P.cap) →
      ringRead t.dly.ring k = ringRead s.dly.ring k) ∧
    (∀ r k, k < handleBase s.regs.hOut ∨ handleBase s.regs.hOut + s.regs.count.toNat ≤ k →
      xmemRead r t.xmem k = xmemRead r s.xmem k) ∧
    (s.status.oor = true → t.status.oor = true) ∧ t.status = { s.status with oor := t.status.oor } ∧
    t.lfo = s.lfo ∧ t.regs = s.regs ∧ t.result = s.result ∧ t.host = s.host ∧ t.hostData = s.hostData
  (∀ (P : Params) (s : State), CoreInv P s → DlyProcReady P s → frame P s (dlyProcWith P s)) ∧
  (∀ s : State, CoreInv Config.params s → DlyProcReady Config.params s →
    ∃ t : State, exec .dlyProc s = .next t ∧ frame Config.params s t)

/-- 44_lfo.md R212, R214, R215: LFO.PROC past its issue checks completes with N elements and N advances of the
phase. -/
def Obligations.LfoProcRuns : Prop :=
  ∀ s : State, LfoProcReady Config.params s → memWf (some f32Zero) s.lfo.buf = true →
    ∃ t : State, exec .lfoProc s = .next t ∧ LfoProcRule Config.params s t

/-- 44_lfo.md R217 (a): with N = 0 no element is written, the phase stays and LFO_VALID becomes 0. -/
def Obligations.LfoProcEmptyBlock : Prop :=
  ∀ s : State, LfoProcReady Config.params s → s.regs.count = 0 →
    exec .lfoProc s = .next { s with
      lfo := { s.lfo with valid := 0 }
      seq := { s.seq with cmd := 0x00000013#32, ops := s.regs, i := 0 } }

/-- 44_lfo.md R217 (c): with depth a zero, every element LFO.PROC computes is a zero unless WAVE of its phase is a
NaN; with a phase of the cycle range and a finite offset the first element is a zero. -/
def Obligations.LfoDepthZero : Prop :=
  (∀ (P : Params) (δ : Draws) (s : State), P.Valid → IsZero32 s.seq.ops.lfoDepth →
    let w := waveOp P δ 4 (f32Add (nan32 δ 3) s.lfo.phase s.seq.ops.lfoPhoff)
    (f32IsNaN w = false → IsZero32 (lfoElement P δ s)) ∧ (f32IsNaN w = true → f32IsNaN (lfoElement P δ s) = true)) ∧
  (∀ s : State, LfoProcReady Config.params s → memWf (some f32Zero) s.lfo.buf = true → IsZero32 s.regs.lfoDepth →
    ∃ t : State, exec .lfoProc s = .next t ∧
      (∀ k, k < s.regs.count.toNat → IsZero32 (lfoRead t.lfo.buf k) ∨ f32IsNaN (lfoRead t.lfo.buf k) = true) ∧
      (0 < s.regs.count.toNat → f32Le f32Zero s.lfo.phase = true → f32Lt s.lfo.phase f32One = true →
        f32IsFinite s.regs.lfoPhoff = true → IsZero32 (lfoRead t.lfo.buf 0)))

/-- 44_lfo.md R215: with a configured sample rate and a finite increment, LFO.PROC leaves the phase in [0, 1). -/
def Obligations.LfoPhaseStaysInCycle : Prop :=
  ∀ s : State, LfoProcReady Config.params s → f32IsFinite s.regs.lfoRate = true →
    f32IsFinite (f32OfF64 0 (f64Div 0 (f64OfF32 0 s.regs.lfoRate) s.lfo.sampleRate)) = true →
    f32Le f32Zero s.lfo.phase = true → f32Lt s.lfo.phase f32One = true →
    ∃ t : State, exec .lfoProc s = .next t ∧ f32Le f32Zero t.lfo.phase = true ∧ f32Lt t.lfo.phase f32One = true

/-- 30_encoding.md R100, 70_reset_and_hazards.md R280: every command issued to an idle core completes, with BUSY 0
again; a command past its issue checks leaves FAULT 0. -/
def Obligations.CommandsComplete : Prop :=
  ∀ (i : Instr) (s : State), Idle s →
    ∃ t : State, exec i s = .next t ∧ t.status.busy = false ∧ (Ready Config.params i s → t.status.fault = false)

/-! ## steps -/

/-- The host's write of a command's word to CMD runs the command: step at that state is exec of the decoded command
(30_encoding.md R100); so also for the word withFetchWord places. -/
def Obligations.StepRunsDecoded : Prop :=
  (∀ (s : State) (a : RegAddr) (d : BusData) (rest : List HostMove) (i : Instr), s.host = .writeReg a d :: rest →
    regAt a = .cmd → decode (busWord d) = .ok i → i.wf = true → step s = exec i { s with host := rest }) ∧
  (∀ (s : State) (w : Nat) (i : Instr), decodeTableWord 32 w = some i → step (s.withFetchWord 32 w) = exec i s)

/-- 00_scope.md R15: a command left running by the host and taken one sample step at each wait ends in the very state
that exec gives, BUSY being 1 from the issue until then; one that fails its issue checks faults as exec does. -/
def Obligations.AtomicIsSampleGranular : Prop :=
  ∀ (i : Instr) (s : State), Idle s → s.host = [] →
    let started := { s with host := [.startCmd ((encode i).setWidth 64)] }
    let steps := sampleSteps i (latch (encode i) s)
    (Ready Config.params i s →
      (∀ n, n ≤ steps → ∃ u : State,
        Host.Core.run Sys2Proof.core (n + 1) started = .next u ∧ u.status.busy = true) ∧
      Host.Core.run Sys2Proof.core (steps + 2) started = exec i s) ∧
    (¬ Ready Config.params i s → step started = exec i s)

/-- 10_state.md R21 to R31, R35, R38 to R51, 20_memory.md R62 to R64, 60_exceptions.md R233, 70_reset_and_hazards.md R260:
what writes what. A step that changes a piece of state is an assertion or release of rst, the issue or a move of one
of the commands the rule names (`Acts`), the host's own write, or, for the DelayEngine and the LFO, a BUSY_VIOLATION,
which leaves them any value (`Abandons`; U10). BUSY is seen set only where a command is left running. -/
def Obligations.WrittenOnlyBy : Prop :=
  ∀ s t : State, step s = .next t →
    (t.dly.sampleRate ≠ s.dly.sampleRate → Resets s ∨ Acts .dlySetsr s ∨ Abandons s) ∧
    (t.dly.writeIndex ≠ s.dly.writeIndex → Resets s ∨ Acts .dlyProc s ∨ Abandons s) ∧
    (t.dly.feedbackSample ≠ s.dly.feedbackSample → Resets s ∨ Acts .dlyReset s ∨ Acts .dlyProc s ∨ Abandons s) ∧
    (t.dly.timeSmoothed ≠ s.dly.timeSmoothed → Resets s ∨ Acts .dlyReset s ∨ Acts .dlyProc s ∨ Abandons s) ∧
    (t.dly.wetSmoothed ≠ s.dly.wetSmoothed → Resets s ∨ Acts .dlyReset s ∨ Acts .dlyProc s ∨ Abandons s) ∧
    (t.dly.feedbackSmoothed ≠ s.dly.feedbackSmoothed → Resets s ∨ Acts .dlyReset s ∨ Acts .dlyProc s ∨ Abandons s) ∧
    (t.dly.softClipSmoothed ≠ s.dly.softClipSmoothed → Resets s ∨ Acts .dlyReset s ∨ Acts .dlyProc s ∨ Abandons s) ∧
    (t.dly.ring ≠ s.dly.ring → Resets s ∨ Acts .dlyReset s ∨ Acts .dlyProc s ∨ Abandons s) ∧
    (t.lfo.sampleRate ≠ s.lfo.sampleRate → Resets s ∨ Acts .lfoSetsr s ∨ Abandons s) ∧
    (t.lfo.phase ≠ s.lfo.phase → Resets s ∨ Acts .lfoReset s ∨ Acts .lfoProc s ∨ Abandons s) ∧
    (t.lfo.buf ≠ s.lfo.buf → Resets s ∨ Acts .lfoReset s ∨ Acts .lfoProc s ∨ Abandons s) ∧
    (t.lfo.valid ≠ s.lfo.valid → Resets s ∨ Acts .lfoReset s ∨ Acts .lfoProc s ∨ Abandons s) ∧
    (t.result ≠ s.result → Resets s ∨ Acts .lfoGetbuf s) ∧
    (∀ n : RegName, n ∉ [RegName.cmd, .status, .result] → readRegister t n ≠ readRegister s n →
      Resets s ∨ Writes n s) ∧
    (t.status.oor ≠ s.status.oor → Resets s ∨ Acts .dlyProc s) ∧
    (t.status.fault ≠ s.status.fault ∨ t.status.cause ≠ s.status.cause ∨ t.status.info ≠ s.status.info →
      Resets s ∨ (∃ n, Writes n s) ∨ Starts s) ∧
    (s.status.busy = false → t.status.busy = true → Starts s ∧ ∃ i, Issues i s) ∧
    (s.status.busy = true → t.status.busy = false → Resets s ∨ (∃ n, Writes n s) ∨ Starts s ∨ Waits s) ∧
    (t.rst ≠ s.rst → Resets s) ∧
    (t.xmem ≠ s.xmem → Acts .dlyProc s ∨ ∃ k v rest, s.host = .writeXmem k v :: rest)

/-- The machine stops only at a host access to XMEM, while BUSY or at an index that is no element: never at a command
(60_exceptions.md R245; log entries 20, 21). -/
def Obligations.StopsOnlyAtXmem : Prop :=
  ∀ s : State, (∃ t, step s = .next t) ∨
    ∃ k rest, (s.host = .readXmem k :: rest ∨ ∃ v, s.host = .writeXmem k v :: rest) ∧
      ((s.status.busy = true ∧ step s = .refused .xmemAccessWhileBusy) ∨
        (Config.params.xmemSize ≤ k ∧ step s = .fault (.noSuchXmemElement k)))

/-! ## memories -/

/-- 20_memory.md R63: while no command runs the host reads back what it wrote to an XMEM element, and no other
element and no other state changes; an element never written reads as the draw; for every parameter record and
whatever runs commands. In an idle core that is R63. BUSY = 0 also admits a faulted core and one held in reset: that
XMEM accesses work in a faulted core is the model's choice (log entry 28, against U12's "only STATUS and RESULT reads and
hardware reset remain"), and that they work under rst is the model's inference (log entry 22). -/
def Obligations.HostXmemAccess : Prop :=
  ∀ (P : Params) (run : Runner) (s : State) (k : Nat) (v : F64) (rest : List HostMove),
    s.status.busy = false → memWf none s.xmem = true → k < P.xmemSize →
    (s.host = .writeXmem k v :: .readXmem k :: rest →
      ∃ u t : State, hostStep P run s = .next u ∧ hostStep P run u = .next t ∧ t.hostData = v ∧
        (∀ r j, xmemRead r t.xmem j = if j = k then v else xmemRead r s.xmem j) ∧
        t = { s with xmem := t.xmem, host := rest, hostData := v, drawCount := s.drawCount + 1 }) ∧
    (s.host = .readXmem k :: rest → (∀ r, xmemRead r s.xmem k = r) →
      ∃ t : State, hostStep P run s = .next t ∧ t.hostData = P.draw s.drawCount 0)

/-- 20_memory.md R78: a RING read inside [0, CAP) returns the element and leaves OOR; any other sets OOR and returns
the draw, or under OOR_POLICY = modulo the element at the index mod CAP. -/
def Obligations.RingReadRule : Prop :=
  ∀ (P : Params) (drawn : F64) (ring : Mem 64) (y : Int),
    (0 ≤ y ∧ y < (P.cap : Int) → rdRing P drawn ring y = ⟨ringRead ring y.toNat, false⟩) ∧
    (¬ (0 ≤ y ∧ y < (P.cap : Int)) →
      (P.oorPolicy = .draw → rdRing P drawn ring y = ⟨drawn, true⟩) ∧
      (P.oorPolicy = .modulo → rdRing P drawn ring y = ⟨ringRead ring (y % (P.cap : Int)).toNat, true⟩))

/-! ## what depends on what -/

/-- 10_state.md R33, 70_reset_and_hazards.md R266: a running command reads only the latched copies: whatever the
operand registers hold, a busy core's move does the same. -/
def Obligations.OperandsAreLatched : Prop :=
  ∀ (P : Params) (s : State) (r : OperandRegs),
    advance P { s with regs := r } = { advance P s with regs := r }

/-- 44_lfo.md R218: the DelayEngine does not depend on the LFO: DLY.PROC with no handle into LFOBUF does the same
whatever the LFO holds. -/
def Obligations.DelayIgnoresLfo : Prop :=
  ∀ (s t : State) (l : Lfo), Idle s → s.regs.hIn.msb = false → s.regs.hMod.msb = false → s.regs.hEnv.msb = false →
    exec .dlyProc s = .next t → exec .dlyProc { s with lfo := l } = .next { t with lfo := l }

/-! ## numerics -/

/-- 40_numerics.md R120: on finite F64 operands each operation returns the exact result rounded once, to nearest,
ties to even. Its sign is the exact result's (R124; of a zero quotient by log entry 15). -/
def Obligations.RoundingF64 : Prop :=
  ∀ nan a b : F64, f64IsFinite a = true → f64IsFinite b = true →
    RoundedTo binary64 (f64Units a + f64Units b).natAbs 1 (magOf binary64 (f64Add nan a b).toNat) ∧
    (f64Units a + f64Units b ≠ 0 → (f64Add nan a b).msb = decide (f64Units a + f64Units b < 0)) ∧
    RoundedTo binary64 (f64Units a - f64Units b).natAbs 1 (magOf binary64 (f64Sub nan a b).toNat) ∧
    (f64Units a - f64Units b ≠ 0 → (f64Sub nan a b).msb = decide (f64Units a - f64Units b < 0)) ∧
    RoundedTo binary64 ((f64Units a).natAbs * (f64Units b).natAbs) (oneUnits binary64)
      (magOf binary64 (f64Mul nan a b).toNat) ∧
    (f64Mul nan a b).msb = (a.msb ^^ b.msb) ∧
    (f64Units b ≠ 0 →
      RoundedTo binary64 ((f64Units a).natAbs * oneUnits binary64) (f64Units b).natAbs
        (magOf binary64 (f64Div nan a b).toNat) ∧
      (f64Div nan a b).msb = (a.msb ^^ b.msb))

/-- 40_numerics.md R121: the same of the F32 operations the core has. -/
def Obligations.RoundingF32 : Prop :=
  ∀ nan a b : F32, f32IsFinite a = true → f32IsFinite b = true →
    RoundedTo binary32 (f32Units a + f32Units b).natAbs 1 (magOf binary32 (f32Add nan a b).toNat) ∧
    (f32Units a + f32Units b ≠ 0 → (f32Add nan a b).msb = decide (f32Units a + f32Units b < 0)) ∧
    RoundedTo binary32 (f32Units a - f32Units b).natAbs 1 (magOf binary32 (f32Sub nan a b).toNat) ∧
    (f32Units a - f32Units b ≠ 0 → (f32Sub nan a b).msb = decide (f32Units a - f32Units b < 0)) ∧
    RoundedTo binary32 ((f32Units a).natAbs * (f32Units b).natAbs) (oneUnits binary32)
      (magOf binary32 (f32Mul nan a b).toNat) ∧
    (f32Mul nan a b).msb = (a.msb ^^ b.msb)

/-- 40_numerics.md R123, R124: NaN operands and invalid operations give NaNs, in both signs and orders; x - x is
+0.0 for finite x; a product with a zero and a finite factor is a zero with the exclusive-or of the signs. What
infinities and zero divisors give otherwise is IEEE 754's, as R124 says in general (log entry 15). On F64, and on
F32 for its three operations. -/
def Obligations.SpecialValues : Prop :=
  (∀ nan a b : F64, f64IsNaN nan = true →
    (f64IsNaN a = true ∨ f64IsNaN b = true →
      f64IsNaN (f64Add nan a b) = true ∧ f64IsNaN (f64Sub nan a b) = true ∧ f64IsNaN (f64Mul nan a b) = true ∧
      f64IsNaN (f64Div nan a b) = true) ∧
    (∀ s, f64IsNaN (f64Sub nan (f64Inf s) (f64Inf s)) = true ∧ f64IsNaN (f64Add nan (f64Inf s) (f64Inf !s)) = true ∧
      f64Add nan (f64Inf s) (f64Inf s) = f64Inf s ∧ f64Sub nan (f64Inf s) (f64Inf !s) = f64Inf s) ∧
    (∀ s s', f64IsNaN (f64Div nan (f64Inf s) (f64Inf s')) = true ∧
      f64Mul nan (f64Inf s) (f64Inf s') = f64Inf (s ^^ s')) ∧
    (f64IsFinite a = true → ∀ s,
      f64Sub nan a a = f64Zero ∧
      f64Add nan (f64Inf s) a = f64Inf s ∧ f64Add nan a (f64Inf s) = f64Inf s ∧
      f64Sub nan (f64Inf s) a = f64Inf s ∧ f64Sub nan a (f64Inf s) = f64Inf (!s) ∧
      f64Div nan (f64Inf s) a = f64Inf (s ^^ a.msb) ∧ f64Div nan a (f64Inf s) = f64SignedZero (a.msb ^^ s) ∧
      (f64Units a = 0 → f64IsNaN (f64Mul nan (f64Inf s) a) = true ∧ f64IsNaN (f64Mul nan a (f64Inf s)) = true) ∧
      (f64Units a ≠ 0 →
        f64Mul nan (f64Inf s) a = f64Inf (s ^^ a.msb) ∧ f64Mul nan a (f64Inf s) = f64Inf (a.msb ^^ s))) ∧
    (f64IsFinite a = true → f64IsFinite b = true →
      (f64Units a = 0 ∨ f64Units b = 0 → f64Mul nan a b = f64SignedZero (a.msb ^^ b.msb)) ∧
      (f64Units a = 0 → f64Units b = 0 → f64IsNaN (f64Div nan a b) = true) ∧
      (f64Units a ≠ 0 → f64Units b = 0 → f64Div nan a b = f64Inf (a.msb ^^ b.msb)) ∧
      (f64Units a = 0 → f64Units b ≠ 0 → f64Div nan a b = f64SignedZero (a.msb ^^ b.msb)))) ∧
  (∀ nan a b : F32, f32IsNaN nan = true →
    (f32IsNaN a = true ∨ f32IsNaN b = true →
      f32IsNaN (f32Add nan a b) = true ∧ f32IsNaN (f32Sub nan a b) = true ∧ f32IsNaN (f32Mul nan a b) = true) ∧
    (∀ s, f32IsNaN (f32Sub nan (f32Inf s) (f32Inf s)) = true ∧ f32IsNaN (f32Add nan (f32Inf s) (f32Inf !s)) = true ∧
      f32Add nan (f32Inf s) (f32Inf s) = f32Inf s ∧ f32Sub nan (f32Inf s) (f32Inf !s) = f32Inf s) ∧
    (∀ s s', f32Mul nan (f32Inf s) (f32Inf s') = f32Inf (s ^^ s')) ∧
    (f32IsFinite a = true → ∀ s,
      f32Sub nan a a = f32Zero ∧
      f32Add nan (f32Inf s) a = f32Inf s ∧ f32Add nan a (f32Inf s) = f32Inf s ∧
      f32Sub nan (f32Inf s) a = f32Inf s ∧ f32Sub nan a (f32Inf s) = f32Inf (!s) ∧
      (f32Units a = 0 → f32IsNaN (f32Mul nan (f32Inf s) a) = true ∧ f32IsNaN (f32Mul nan a (f32Inf s)) = true) ∧
      (f32Units a ≠ 0 →
        f32Mul nan (f32Inf s) a = f32Inf (s ^^ a.msb) ∧ f32Mul nan a (f32Inf s) = f32Inf (a.msb ^^ s))) ∧
    (f32IsFinite a = true → f32IsFinite b = true → f32Units a = 0 ∨ f32Units b = 0 →
      f32Mul nan a b = f32SignedZero (a.msb ^^ b.msb)))

/-- 40_numerics.md R125: a comparison is false with a NaN operand, otherwise it compares the numbers, so that -0.0
and +0.0 are equal; on F64 and F32. -/
def Obligations.Comparisons : Prop :=
  (∀ a b : F64,
    (f64Lt a b = true ↔ f64IsNaN a = false ∧ f64IsNaN b = false ∧ f64Units a < f64Units b) ∧
    (f64Le a b = true ↔ f64IsNaN a = false ∧ f64IsNaN b = false ∧ f64Units a ≤ f64Units b)) ∧
  (∀ a b : F32,
    (f32Lt a b = true ↔ f32IsNaN a = false ∧ f32IsNaN b = false ∧ f32Units a < f32Units b) ∧
    (f32Le a b = true ↔ f32IsNaN a = false ∧ f32IsNaN b = false ∧ f32Units a ≤ f32Units b)) ∧
  f64Le 0x8000000000000000#64 f64Zero = true ∧ f64Le f64Zero 0x8000000000000000#64 = true

/-- 40_numerics.md R126: floor of a finite value is the largest integral value not above it, with its sign (so
floor(-0.0) = -0.0); of an infinity it is that infinity, of a NaN a NaN; on F64 and F32. -/
def Obligations.FloorRule : Prop :=
  (∀ nan a : F64,
    (f64IsFinite a = true → f64IsFinite (f64Floor nan a) = true ∧ (f64Floor nan a).msb = a.msb ∧
      ∃ n : Int, f64Units (f64Floor nan a) = n * oneUnits binary64 ∧ n * oneUnits binary64 ≤ f64Units a ∧
        f64Units a < (n + 1) * oneUnits binary64) ∧
    (f64IsNaN a = false → f64IsFinite a = false → f64Floor nan a = a) ∧
    (f64IsNaN nan = true → f64IsNaN a = true → f64IsNaN (f64Floor nan a) = true)) ∧
  (∀ nan a : F32,
    (f32IsFinite a = true → f32IsFinite (f32Floor nan a) = true ∧ (f32Floor nan a).msb = a.msb ∧
      ∃ n : Int, f32Units (f32Floor nan a) = n * oneUnits binary32 ∧ n * oneUnits binary32 ≤ f32Units a ∧
        f32Units a < (n + 1) * oneUnits binary32) ∧
    (f32IsNaN a = false → f32IsFinite a = false → f32Floor nan a = a) ∧
    (f32IsNaN nan = true → f32IsNaN a = true → f32IsNaN (f32Floor nan a) = true))

/-- 40_numerics.md R127: toF64 below 2^53, toInt of integral values and widen are exact; round32 rounds once; both
take an infinity to that infinity and a NaN to a NaN. -/
def Obligations.Conversions : Prop :=
  (∀ n : Nat, n < 2 ^ 53 → f64IsFinite (f64OfNat n) = true ∧ f64Units (f64OfNat n) = n * oneUnits binary64) ∧
  (∀ (a : F64) (n : Int), f64IsFinite a = true → f64Units a = n * oneUnits binary64 → f64ToInt a = n) ∧
  (∀ (nan : F64) (a : F32), f32IsFinite a = true →
    f64IsFinite (f64OfF32 nan a) = true ∧ f64Units (f64OfF32 nan a) = f32Units a * 2 ^ 925 ∧
    (f64OfF32 nan a).msb = a.msb) ∧
  (∀ (nan : F32) (a : F64), f64IsFinite a = true →
    RoundedTo binary32 (f64Units a).natAbs (2 ^ 925) (magOf binary32 (f32OfF64 nan a).toNat) ∧
    (f32OfF64 nan a).msb = a.msb) ∧
  (∀ (nan : F64) (nan' : F32) (s : Bool), f64OfF32 nan (f32Inf s) = f64Inf s ∧ f32OfF64 nan' (f64Inf s) = f32Inf s) ∧
  (∀ (nan : F64) (a : F32), f64IsNaN nan = true → f32IsNaN a = true → f64IsNaN (f64OfF32 nan a) = true) ∧
  (∀ (nan : F32) (a : F64), f32IsNaN nan = true → f64IsNaN a = true → f32IsNaN (f32OfF64 nan a) = true)

/-- 40_numerics.md R129, R130, 42_delay_process.md R173 (a): CLAMP_HI(v) is 1.0 if v > 1.0, else v; MAPFB(v) is
v * 0.99 and MAPDRIVE(v) is v * 10.0; so the feedback gain MAPFB(CLAMP_HI(v)) is at most 0.99 for every v that is no
NaN, and a NaN for a NaN. -/
def Obligations.FeedbackGainBound : Prop :=
  ∀ (δ : Draws) (k : Nat) (v : F64),
    clampHi Config.params v = (if f64Lt f64One v then f64One else v) ∧
    mapFb Config.params δ k v = f64Mul (nan64 δ k) v 0x3FEFAE147AE147AE#64 ∧
    mapDrive Config.params δ k v = f64Mul (nan64 δ k) v 0x4024000000000000#64 ∧
    (f64IsNaN v = false → f64Le (mapFb Config.params δ k (clampHi Config.params v)) 0x3FEFAE147AE147AE#64 = true) ∧
    (f64IsNaN v = true → f64IsNaN (mapFb Config.params δ k (clampHi Config.params v)) = true)

/-- 40_numerics.md R137: PHASEWRAP(p) is q = p - floor(p), or +0.0 where q >= 1.0; of a finite phase it is in [0, 1), of
an infinity or a NaN a NaN. -/
def Obligations.PhaseWrapRange : Prop :=
  ∀ (δ : Draws) (k : Nat) (p : F32),
    (let q := f32Sub (nan32 δ (k + 1)) p (f32Floor (nan32 δ k) p)
     phaseWrap δ k p = if f32Le f32One q then f32Zero else q) ∧
    (f32IsFinite p = true →
      f32Le f32Zero (phaseWrap δ k p) = true ∧ f32Lt (phaseWrap δ k p) f32One = true) ∧
    (f32IsFinite p = false → f32IsNaN (phaseWrap δ k p) = true)

/-- 40_numerics.md R128, 42_delay_process.md R175: SMOOTH(s, x, K) is s + K * (x - s) in three operations; SMOOTH from
+0.0 with K = 1 reaches the target; a state at its target stays; a NaN operand gives a NaN. Numbers are compared by
value, so the sign of a zero is left out. -/
def Obligations.SmoothRules : Prop :=
  ∀ (δ : Draws) (k : Nat),
    (∀ s x coef : F64, smooth δ k s x coef =
      f64Add (nan64 δ (k + 2)) s (f64Mul (nan64 δ (k + 1)) coef (f64Sub (nan64 δ k) x s))) ∧
    (∀ x : F64, f64IsFinite x = true →
      f64IsFinite (smooth δ k f64Zero x f64One) = true ∧ f64Units (smooth δ k f64Zero x f64One) = f64Units x) ∧
    (∀ x coef : F64, f64IsFinite x = true → f64IsFinite coef = true →
      f64IsFinite (smooth δ k x x coef) = true ∧ f64Units (smooth δ k x x coef) = f64Units x) ∧
    (∀ s x coef : F64, f64IsNaN s = true ∨ f64IsNaN x = true ∨ f64IsNaN coef = true →
      f64IsNaN (smooth δ k s x coef) = true)

/-- 40_numerics.md R131, R132: SOFTCLIP of a NaN, or with a NaN drive, is a NaN (S3); a configured SOFTCLIP of a
non-NaN is finite at a finite non-zero drive (S2); the default instance is TANH(drive * x) / TANH(drive), at drive +0.0
or -0.0 a NaN for every finite x; TANH as the core evaluates it is a NaN for a NaN, and non-decreasing. Apart from the
records of `Params.Valid`, the test instance SOFTCLIP_ID gives x at every drive; that it does so also at a NaN drive,
against S3, is the model's choice (log entry 9). -/
def Obligations.SoftclipCorners : Prop :=
  ∀ (P : Params) (δ : Draws) (k : Nat) (x drive : F64), P.Valid →
    (f64IsNaN x = true ∨ f64IsNaN drive = true → f64IsNaN (softClip P δ k x drive) = true) ∧
    (P.softclip ≠ .tanhRatio → f64IsNaN x = false → f64IsFinite drive = true → f64Units drive ≠ 0 →
      f64IsFinite (softClip P δ k x drive) = true) ∧
    (P.softclip = .tanhRatio → softClip P δ k x drive =
      f64Div (nan64 δ (k + 3)) (tanhOp P δ (k + 1) (f64Mul (nan64 δ k) drive x)) (tanhOp P δ (k + 2) drive)) ∧
    (P.softclip = .tanhRatio → f64IsFinite x = true →
      f64IsNaN (softClip P δ k x f64Zero) = true ∧ f64IsNaN (softClip P δ k x 0x8000000000000000#64) = true) ∧
    softClip { P with softclip := .identity } δ k x drive = x ∧
    (f64IsNaN x = true → f64IsNaN (tanhOp P δ k x) = true) ∧
    (∀ j y, f64Le x y = true → f64Le (tanhOp P δ k x) (tanhOp P δ j y) = true)

/-- 40_numerics.md R136, D21: |WAVE(p)| <= 1 for finite p; for an infinite p also a NaN is possible, no other value;
WAVE of a NaN is a NaN; for the default instance and for a configured function. A configured WAVE has period 1: at
two finite phases an integer apart it gives the same number (of the default instance see log entry 10). The default
instance is round32(sin(2 * pi * widen(p))), a NaN for a NaN argument. -/
def Obligations.WaveBound : Prop :=
  ∀ (P : Params) (δ : Draws) (k : Nat) (p : F32), P.Valid →
    (P.wave = .sine →
      let a := f64Mul (nan64 δ (k + 1)) f64TwoPi (f64OfF32 (nan64 δ k) p)
      waveOp P δ k p = f32OfF64 (nan32 δ (k + 3))
        (if f64IsNaN a || f64IsNaN (P.sin a) then nan64 δ (k + 2) else P.sin a)) ∧
    (f32IsFinite p = true →
      f32Le 0xBF800000#32 (waveOp P δ k p) = true ∧ f32Le (waveOp P δ k p) f32One = true) ∧
    (f32IsNaN (waveOp P δ k p) = true ∨
      f32Le 0xBF800000#32 (waveOp P δ k p) = true ∧ f32Le (waveOp P δ k p) f32One = true) ∧
    (f32IsNaN p = true → f32IsNaN (waveOp P δ k p) = true) ∧
    (P.wave ≠ .sine → ∀ (j : Nat) (q : F32), f32IsFinite p = true → f32IsFinite q = true →
      (oneUnits binary32 : Int) ∣ f32Units q - f32Units p →
      f32Units (waveOp P δ j q) = f32Units (waveOp P δ k p))

/-! ## the interpolated read -/

/-- 40_numerics.md R133, R134: LERP(a, b, t) and XFADE(a, b, t) are a * (1.0 - t) + b * t in four operations; with
t = +0.0 LERP is a for finite a and b (compared by value), and a NaN when b is an infinity or a NaN. -/
def Obligations.LerpAtZero : Prop :=
  (∀ (δ : Draws) (k : Nat) (a b t : F64),
    let blend := f64Add (nan64 δ (k + 3)) (f64Mul (nan64 δ (k + 1)) a (f64Sub (nan64 δ k) f64One t))
      (f64Mul (nan64 δ (k + 2)) b t)
    lerp δ k a b t = blend ∧ xfade δ k a b t = blend) ∧
  (∀ (δ : Draws) (k : Nat) (a b : F64), f64IsFinite a = true →
    (f64IsFinite b = true →
      f64IsFinite (lerp δ k a b f64Zero) = true ∧ f64Units (lerp δ k a b f64Zero) = f64Units a) ∧
    (f64IsFinite b = false → f64IsNaN (lerp δ k a b f64Zero) = true))

/-- 43_interpolated_read.md R198: the case table of the two indices, in both modes. -/
def Obligations.TapIndexTable : Prop :=
  ∀ (P : Params) (fl : Int), 2 ≤ P.cap →
    let C : Int := P.cap
    (P.wrapMode = .asSource →
      (fl < 0 → tapIndices P fl = (fl - 1 + C, fl)) ∧
      (fl = 0 → tapIndices P fl = (C - 1, 0)) ∧
      (fl = 1 → tapIndices P fl = (C, 1)) ∧
      (2 ≤ fl ∧ fl ≤ C → tapIndices P fl = (fl - 1, fl)) ∧
      (C < fl → tapIndices P fl = (fl - 1, fl - C))) ∧
    (P.wrapMode = .corrected →
      (fl < 0 → tapIndices P fl = (fl - 1 + C, fl)) ∧
      (fl = 0 → tapIndices P fl = (C - 1, 0)) ∧
      (1 ≤ fl ∧ fl ≤ C - 1 → tapIndices P fl = (fl - 1, fl)) ∧
      (fl = C → tapIndices P fl = (C - 1, 0)) ∧
      (C < fl → tapIndices P fl = (fl - 1, fl - C)))

/-- 43_interpolated_read.md R190, line by line: a delay that is no finite value gives the draw and sets OOR; for a
finite one the read position, its split, the index wraps of the mode, the two fetches and their LERP. -/
def Obligations.InterpRule : Prop :=
  ∀ (P : Params) (δ : Draws) (k : Nat) (ring : Mem 64) (w : Nat) (d : F64),
    (f64IsFinite d = false → interp P δ k ring w d = ⟨δ k, true⟩) ∧ (f64IsFinite d = true →
    let rp0 := f64Sub (nan64 δ (k + 1)) (f64OfNat w) d
    let rp := if f64Lt rp0 f64Zero = true then f64Add (nan64 δ (k + 2)) rp0 (f64OfNat P.cap) else rp0
    let fl := f64Floor (nan64 δ (k + 3)) rp
    let t := f64Sub (nan64 δ (k + 4)) rp fl
    let y1 := f64ToInt fl
    let y0 := y1 - 1
    (P.wrapMode = .asSource →
      let a := rdRing P (δ (k + 5)) ring (if y0 ≤ 0 then y0 + P.cap else y0)
      let b := rdRing P (δ (k + 6)) ring (if y1 > P.cap then y1 - P.cap else y1)
      interp P δ k ring w d = ⟨lerp δ (k + 7) a.value b.value t, a.oor || b.oor⟩) ∧
    (P.wrapMode = .corrected →
      let a := rdRing P (δ (k + 5)) ring (if y0 < 0 then y0 + P.cap else y0)
      let b := rdRing P (δ (k + 6)) ring (if y1 ≥ P.cap then y1 - P.cap else y1)
      interp P δ k ring w d = ⟨lerp δ (k + 7) a.value b.value t, a.oor || b.oor⟩))

/-- 43_interpolated_read.md R198: for a finite delay in [0, CAP] the corrected mode never reads out of range,
and the as_source mode does exactly when floor(rp) is 1 or CAP. -/
def Obligations.DelayStaysInRing : Prop :=
  ∀ (P : Params) (δ : Draws) (k : Nat) (ring : Mem 64) (w : Nat) (d : F64), P.cap ≤ 2 ^ 31 - 1 → w < P.cap →
    f64IsFinite d = true → f64Le f64Zero d = true → f64Le d (f64OfNat P.cap) = true →
    let fl := f64ToInt (f64Floor (nan64 δ (k + 3)) (readPosition P δ (k + 1) w d))
    (0 ≤ fl ∧ fl ≤ (P.cap : Int)) ∧
    (P.wrapMode = .corrected → (interp P δ k ring w d).oor = false) ∧
    (P.wrapMode = .asSource → ((interp P δ k ring w d).oor = true ↔ fl = 1 ∨ fl = (P.cap : Int)))

/-- 43_interpolated_read.md R200: an integer delay D in the usable window reads exactly the value written D + 1
samples ago, for a finite RING[y1] (a finite value compared as a number, an infinity as itself, a NaN as some NaN),
in corrected mode always, in as_source mode but for the one sample per revolution where y0 is out of range. -/
def Obligations.IntegerDelayExact : Prop :=
  ∀ (P : Params) (δ : Draws) (k : Nat) (ring : Mem 64) (w D : Nat), P.cap ≤ 2 ^ 31 - 1 → w < P.cap → 0 < D →
    D + 2 ≤ P.cap → (P.wrapMode = .corrected ∨ (w + P.cap - D) % P.cap ≠ 1) →
    f64IsFinite (ringRead ring ((w + P.cap - D) % P.cap)) = true →
    let a := ringRead ring ((w + P.cap - (D + 1)) % P.cap)
    let r := interp P δ k ring w (f64OfNat D)
    r.oor = false ∧
    (f64IsFinite a = true → f64IsFinite r.value = true ∧ f64Units r.value = f64Units a) ∧
    (f64IsFinite a = false → f64IsNaN a = false → r.value = a) ∧
    (f64IsNaN a = true → f64IsNaN r.value = true)

end
end

