-- ==== Sys2Proof/Laws/State.lean ====
section
/-! SUPPORT. One lemma for each field of each state update, true by rfl, so that no later proof unfolds a record
update; and the same for `repeatStep`. -/

namespace Sys2Proof.Machine

/-! ## setBusy -/

@[simp] theorem setBusy_dly (b : Bool) (s : State) : (setBusy b s).dly = s.dly := rfl
@[simp] theorem setBusy_lfo (b : Bool) (s : State) : (setBusy b s).lfo = s.lfo := rfl
@[simp] theorem setBusy_seq (b : Bool) (s : State) : (setBusy b s).seq = s.seq := rfl
@[simp] theorem setBusy_status (b : Bool) (s : State) : (setBusy b s).status = { s.status with busy := b } := rfl
@[simp] theorem setBusy_regs (b : Bool) (s : State) : (setBusy b s).regs = s.regs := rfl
@[simp] theorem setBusy_result (b : Bool) (s : State) : (setBusy b s).result = s.result := rfl
@[simp] theorem setBusy_rst (b : Bool) (s : State) : (setBusy b s).rst = s.rst := rfl
@[simp] theorem setBusy_xmem (b : Bool) (s : State) : (setBusy b s).xmem = s.xmem := rfl
@[simp] theorem setBusy_host (b : Bool) (s : State) : (setBusy b s).host = s.host := rfl
@[simp] theorem setBusy_hostData (b : Bool) (s : State) : (setBusy b s).hostData = s.hostData := rfl
@[simp] theorem setBusy_drawCount (b : Bool) (s : State) : (setBusy b s).drawCount = s.drawCount := rfl

/-! ## raiseFault -/

@[simp] theorem raiseFault_dly (r : Refused) (s : State) : (raiseFault r s).dly = s.dly := rfl
@[simp] theorem raiseFault_lfo (r : Refused) (s : State) : (raiseFault r s).lfo = s.lfo := rfl
@[simp] theorem raiseFault_seq (r : Refused) (s : State) : (raiseFault r s).seq = s.seq := rfl
@[simp] theorem raiseFault_status (r : Refused) (s : State) : (raiseFault r s).status = { s.status with fault := true, cause := r.cause, info := r.info, busy := false } := rfl
@[simp] theorem raiseFault_regs (r : Refused) (s : State) : (raiseFault r s).regs = s.regs := rfl
@[simp] theorem raiseFault_result (r : Refused) (s : State) : (raiseFault r s).result = s.result := rfl
@[simp] theorem raiseFault_rst (r : Refused) (s : State) : (raiseFault r s).rst = s.rst := rfl
@[simp] theorem raiseFault_xmem (r : Refused) (s : State) : (raiseFault r s).xmem = s.xmem := rfl
@[simp] theorem raiseFault_host (r : Refused) (s : State) : (raiseFault r s).host = s.host := rfl
@[simp] theorem raiseFault_hostData (r : Refused) (s : State) : (raiseFault r s).hostData = s.hostData := rfl
@[simp] theorem raiseFault_drawCount (r : Refused) (s : State) : (raiseFault r s).drawCount = s.drawCount := rfl

/-! ## latch -/

@[simp] theorem latch_dly (w : CmdWord) (s : State) : (latch w s).dly = s.dly := rfl
@[simp] theorem latch_lfo (w : CmdWord) (s : State) : (latch w s).lfo = s.lfo := rfl
@[simp] theorem latch_seq (w : CmdWord) (s : State) : (latch w s).seq = { s.seq with cmd := w, ops := s.regs, i := 0 } := rfl
@[simp] theorem latch_status (w : CmdWord) (s : State) : (latch w s).status = s.status := rfl
@[simp] theorem latch_regs (w : CmdWord) (s : State) : (latch w s).regs = s.regs := rfl
@[simp] theorem latch_result (w : CmdWord) (s : State) : (latch w s).result = s.result := rfl
@[simp] theorem latch_rst (w : CmdWord) (s : State) : (latch w s).rst = s.rst := rfl
@[simp] theorem latch_xmem (w : CmdWord) (s : State) : (latch w s).xmem = s.xmem := rfl
@[simp] theorem latch_host (w : CmdWord) (s : State) : (latch w s).host = s.host := rfl
@[simp] theorem latch_hostData (w : CmdWord) (s : State) : (latch w s).hostData = s.hostData := rfl
@[simp] theorem latch_drawCount (w : CmdWord) (s : State) : (latch w s).drawCount = s.drawCount := rfl

/-! ## writeRegister -/

@[simp] theorem writeRegister_dly (n : RegName) (d : BusData) (s : State) : (writeRegister n d s).dly = s.dly := rfl
@[simp] theorem writeRegister_lfo (n : RegName) (d : BusData) (s : State) : (writeRegister n d s).lfo = s.lfo := rfl
@[simp] theorem writeRegister_seq (n : RegName) (d : BusData) (s : State) : (writeRegister n d s).seq = s.seq := rfl
@[simp] theorem writeRegister_status (n : RegName) (d : BusData) (s : State) : (writeRegister n d s).status = s.status := rfl
@[simp] theorem writeRegister_regs (n : RegName) (d : BusData) (s : State) : (writeRegister n d s).regs = writeOperand s.regs d n := rfl
@[simp] theorem writeRegister_result (n : RegName) (d : BusData) (s : State) : (writeRegister n d s).result = s.result := rfl
@[simp] theorem writeRegister_rst (n : RegName) (d : BusData) (s : State) : (writeRegister n d s).rst = s.rst := rfl
@[simp] theorem writeRegister_xmem (n : RegName) (d : BusData) (s : State) : (writeRegister n d s).xmem = s.xmem := rfl
@[simp] theorem writeRegister_host (n : RegName) (d : BusData) (s : State) : (writeRegister n d s).host = s.host := rfl
@[simp] theorem writeRegister_hostData (n : RegName) (d : BusData) (s : State) : (writeRegister n d s).hostData = s.hostData := rfl
@[simp] theorem writeRegister_drawCount (n : RegName) (d : BusData) (s : State) : (writeRegister n d s).drawCount = s.drawCount := rfl

/-! ## setDlyRate -/

@[simp] theorem setDlyRate_dly (s : State) : (setDlyRate s).dly = { s.dly with sampleRate := s.seq.ops.sr } := rfl
@[simp] theorem setDlyRate_lfo (s : State) : (setDlyRate s).lfo = s.lfo := rfl
@[simp] theorem setDlyRate_seq (s : State) : (setDlyRate s).seq = s.seq := rfl
@[simp] theorem setDlyRate_status (s : State) : (setDlyRate s).status = s.status := rfl
@[simp] theorem setDlyRate_regs (s : State) : (setDlyRate s).regs = s.regs := rfl
@[simp] theorem setDlyRate_result (s : State) : (setDlyRate s).result = s.result := rfl
@[simp] theorem setDlyRate_rst (s : State) : (setDlyRate s).rst = s.rst := rfl
@[simp] theorem setDlyRate_xmem (s : State) : (setDlyRate s).xmem = s.xmem := rfl
@[simp] theorem setDlyRate_host (s : State) : (setDlyRate s).host = s.host := rfl
@[simp] theorem setDlyRate_hostData (s : State) : (setDlyRate s).hostData = s.hostData := rfl
@[simp] theorem setDlyRate_drawCount (s : State) : (setDlyRate s).drawCount = s.drawCount := rfl

/-! ## clearDly -/

@[simp] theorem clearDly_lfo (P : Params) (s : State) : (clearDly P s).lfo = s.lfo := rfl
@[simp] theorem clearDly_seq (P : Params) (s : State) : (clearDly P s).seq = s.seq := rfl
@[simp] theorem clearDly_status (P : Params) (s : State) : (clearDly P s).status = s.status := rfl
@[simp] theorem clearDly_regs (P : Params) (s : State) : (clearDly P s).regs = s.regs := rfl
@[simp] theorem clearDly_result (P : Params) (s : State) : (clearDly P s).result = s.result := rfl
@[simp] theorem clearDly_rst (P : Params) (s : State) : (clearDly P s).rst = s.rst := rfl
@[simp] theorem clearDly_xmem (P : Params) (s : State) : (clearDly P s).xmem = s.xmem := rfl
@[simp] theorem clearDly_host (P : Params) (s : State) : (clearDly P s).host = s.host := rfl
@[simp] theorem clearDly_hostData (P : Params) (s : State) : (clearDly P s).hostData = s.hostData := rfl
@[simp] theorem clearDly_drawCount (P : Params) (s : State) : (clearDly P s).drawCount = s.drawCount := rfl
@[simp] theorem clearDly_dly_sampleRate (P : Params) (s : State) : (clearDly P s).dly.sampleRate = s.dly.sampleRate := rfl
@[simp] theorem clearDly_dly_writeIndex (P : Params) (s : State) : (clearDly P s).dly.writeIndex = s.dly.writeIndex := rfl
@[simp] theorem clearDly_dly_feedbackSample (P : Params) (s : State) : (clearDly P s).dly.feedbackSample = f64Zero := rfl
@[simp] theorem clearDly_dly_timeSmoothed (P : Params) (s : State) : (clearDly P s).dly.timeSmoothed = f64Zero := rfl
@[simp] theorem clearDly_dly_wetSmoothed (P : Params) (s : State) : (clearDly P s).dly.wetSmoothed = f64Zero := rfl
@[simp] theorem clearDly_dly_feedbackSmoothed (P : Params) (s : State) : (clearDly P s).dly.feedbackSmoothed = f64Zero := rfl
@[simp] theorem clearDly_dly_softClipSmoothed (P : Params) (s : State) : (clearDly P s).dly.softClipSmoothed = P.scFloor := rfl
@[simp] theorem clearDly_dly_ring (P : Params) (s : State) : (clearDly P s).dly.ring = [] := rfl

/-! ## startDlyBlock -/

@[simp] theorem startDlyBlock_lfo (P : Params) (s : State) : (startDlyBlock P s).lfo = s.lfo := rfl
@[simp] theorem startDlyBlock_status (P : Params) (s : State) : (startDlyBlock P s).status = s.status := rfl
@[simp] theorem startDlyBlock_regs (P : Params) (s : State) : (startDlyBlock P s).regs = s.regs := rfl
@[simp] theorem startDlyBlock_result (P : Params) (s : State) : (startDlyBlock P s).result = s.result := rfl
@[simp] theorem startDlyBlock_rst (P : Params) (s : State) : (startDlyBlock P s).rst = s.rst := rfl
@[simp] theorem startDlyBlock_xmem (P : Params) (s : State) : (startDlyBlock P s).xmem = s.xmem := rfl
@[simp] theorem startDlyBlock_host (P : Params) (s : State) : (startDlyBlock P s).host = s.host := rfl
@[simp] theorem startDlyBlock_hostData (P : Params) (s : State) : (startDlyBlock P s).hostData = s.hostData := rfl
@[simp] theorem startDlyBlock_drawCount (P : Params) (s : State) : (startDlyBlock P s).drawCount = s.drawCount + 1 := rfl
@[simp] theorem startDlyBlock_dly_sampleRate (P : Params) (s : State) : (startDlyBlock P s).dly.sampleRate = s.dly.sampleRate := rfl
@[simp] theorem startDlyBlock_dly_writeIndex (P : Params) (s : State) : (startDlyBlock P s).dly.writeIndex = s.dly.writeIndex := rfl
@[simp] theorem startDlyBlock_dly_feedbackSample (P : Params) (s : State) : (startDlyBlock P s).dly.feedbackSample = s.dly.feedbackSample := rfl
@[simp] theorem startDlyBlock_dly_timeSmoothed (P : Params) (s : State) : (startDlyBlock P s).dly.timeSmoothed = s.dly.timeSmoothed := rfl
@[simp] theorem startDlyBlock_dly_wetSmoothed (P : Params) (s : State) : (startDlyBlock P s).dly.wetSmoothed = s.dly.wetSmoothed := rfl
@[simp] theorem startDlyBlock_dly_feedbackSmoothed (P : Params) (s : State) : (startDlyBlock P s).dly.feedbackSmoothed = s.dly.feedbackSmoothed := rfl
@[simp] theorem startDlyBlock_dly_ring (P : Params) (s : State) : (startDlyBlock P s).dly.ring = s.dly.ring := rfl
@[simp] theorem startDlyBlock_seq_cmd (P : Params) (s : State) : (startDlyBlock P s).seq.cmd = s.seq.cmd := rfl
@[simp] theorem startDlyBlock_seq_ops (P : Params) (s : State) : (startDlyBlock P s).seq.ops = s.seq.ops := rfl
@[simp] theorem startDlyBlock_seq_i (P : Params) (s : State) : (startDlyBlock P s).seq.i = s.seq.i := rfl

/-! ## dlySample -/

@[simp] theorem dlySample_lfo (P : Params) (s : State) : (dlySample P s).lfo = s.lfo := rfl
@[simp] theorem dlySample_seq (P : Params) (s : State) : (dlySample P s).seq = { s.seq with i := s.seq.i + 1 } := rfl
@[simp] theorem dlySample_regs (P : Params) (s : State) : (dlySample P s).regs = s.regs := rfl
@[simp] theorem dlySample_result (P : Params) (s : State) : (dlySample P s).result = s.result := rfl
@[simp] theorem dlySample_rst (P : Params) (s : State) : (dlySample P s).rst = s.rst := rfl
@[simp] theorem dlySample_host (P : Params) (s : State) : (dlySample P s).host = s.host := rfl
@[simp] theorem dlySample_hostData (P : Params) (s : State) : (dlySample P s).hostData = s.hostData := rfl
@[simp] theorem dlySample_drawCount (P : Params) (s : State) : (dlySample P s).drawCount = s.drawCount + 1 := rfl
@[simp] theorem dlySample_dly_sampleRate (P : Params) (s : State) : (dlySample P s).dly.sampleRate = s.dly.sampleRate := rfl
@[simp] theorem dlySample_dly_softClipSmoothed (P : Params) (s : State) : (dlySample P s).dly.softClipSmoothed = s.dly.softClipSmoothed := rfl
@[simp] theorem dlySample_dly_writeIndex (P : Params) (s : State) : (dlySample P s).dly.writeIndex = nextWriteIndex P s.dly.writeIndex := rfl
@[simp] theorem dlySample_status_busy (P : Params) (s : State) : (dlySample P s).status.busy = s.status.busy := rfl
@[simp] theorem dlySample_status_fault (P : Params) (s : State) : (dlySample P s).status.fault = s.status.fault := rfl
@[simp] theorem dlySample_status_cause (P : Params) (s : State) : (dlySample P s).status.cause = s.status.cause := rfl
@[simp] theorem dlySample_status_info (P : Params) (s : State) : (dlySample P s).status.info = s.status.info := rfl

/-! ## setLfoRate -/

@[simp] theorem setLfoRate_dly (s : State) : (setLfoRate s).dly = s.dly := rfl
@[simp] theorem setLfoRate_lfo (s : State) : (setLfoRate s).lfo = { s.lfo with sampleRate := s.seq.ops.sr } := rfl
@[simp] theorem setLfoRate_seq (s : State) : (setLfoRate s).seq = s.seq := rfl
@[simp] theorem setLfoRate_status (s : State) : (setLfoRate s).status = s.status := rfl
@[simp] theorem setLfoRate_regs (s : State) : (setLfoRate s).regs = s.regs := rfl
@[simp] theorem setLfoRate_result (s : State) : (setLfoRate s).result = s.result := rfl
@[simp] theorem setLfoRate_rst (s : State) : (setLfoRate s).rst = s.rst := rfl
@[simp] theorem setLfoRate_xmem (s : State) : (setLfoRate s).xmem = s.xmem := rfl
@[simp] theorem setLfoRate_host (s : State) : (setLfoRate s).host = s.host := rfl
@[simp] theorem setLfoRate_hostData (s : State) : (setLfoRate s).hostData = s.hostData := rfl
@[simp] theorem setLfoRate_drawCount (s : State) : (setLfoRate s).drawCount = s.drawCount := rfl

/-! ## clearLfo -/

@[simp] theorem clearLfo_dly (s : State) : (clearLfo s).dly = s.dly := rfl
@[simp] theorem clearLfo_lfo (s : State) : (clearLfo s).lfo = { s.lfo with phase := f32Zero, buf := [], valid := 0 } := rfl
@[simp] theorem clearLfo_seq (s : State) : (clearLfo s).seq = s.seq := rfl
@[simp] theorem clearLfo_status (s : State) : (clearLfo s).status = s.status := rfl
@[simp] theorem clearLfo_regs (s : State) : (clearLfo s).regs = s.regs := rfl
@[simp] theorem clearLfo_result (s : State) : (clearLfo s).result = s.result := rfl
@[simp] theorem clearLfo_rst (s : State) : (clearLfo s).rst = s.rst := rfl
@[simp] theorem clearLfo_xmem (s : State) : (clearLfo s).xmem = s.xmem := rfl
@[simp] theorem clearLfo_host (s : State) : (clearLfo s).host = s.host := rfl
@[simp] theorem clearLfo_hostData (s : State) : (clearLfo s).hostData = s.hostData := rfl
@[simp] theorem clearLfo_drawCount (s : State) : (clearLfo s).drawCount = s.drawCount := rfl

/-! ## lfoSample -/

@[simp] theorem lfoSample_dly (P : Params) (s : State) : (lfoSample P s).dly = s.dly := rfl
@[simp] theorem lfoSample_seq (P : Params) (s : State) : (lfoSample P s).seq = { s.seq with i := s.seq.i + 1 } := rfl
@[simp] theorem lfoSample_status (P : Params) (s : State) : (lfoSample P s).status = s.status := rfl
@[simp] theorem lfoSample_regs (P : Params) (s : State) : (lfoSample P s).regs = s.regs := rfl
@[simp] theorem lfoSample_result (P : Params) (s : State) : (lfoSample P s).result = s.result := rfl
@[simp] theorem lfoSample_rst (P : Params) (s : State) : (lfoSample P s).rst = s.rst := rfl
@[simp] theorem lfoSample_xmem (P : Params) (s : State) : (lfoSample P s).xmem = s.xmem := rfl
@[simp] theorem lfoSample_host (P : Params) (s : State) : (lfoSample P s).host = s.host := rfl
@[simp] theorem lfoSample_hostData (P : Params) (s : State) : (lfoSample P s).hostData = s.hostData := rfl
@[simp] theorem lfoSample_drawCount (P : Params) (s : State) : (lfoSample P s).drawCount = s.drawCount + 1 := rfl
@[simp] theorem lfoSample_lfo_sampleRate (P : Params) (s : State) : (lfoSample P s).lfo.sampleRate = s.lfo.sampleRate := rfl
@[simp] theorem lfoSample_lfo_valid (P : Params) (s : State) : (lfoSample P s).lfo.valid = s.lfo.valid := rfl
@[simp] theorem lfoSample_lfo_phase (P : Params) (s : State) : (lfoSample P s).lfo.phase = nextPhase (P.draw s.drawCount) s := rfl
@[simp] theorem lfoSample_lfo_buf (P : Params) (s : State) : (lfoSample P s).lfo.buf = lfoWrite s.lfo.buf s.seq.i.toNat (lfoElement P (P.draw s.drawCount) s) := rfl

/-! ## endLfoBlock -/

@[simp] theorem endLfoBlock_dly (s : State) : (endLfoBlock s).dly = s.dly := rfl
@[simp] theorem endLfoBlock_lfo (s : State) : (endLfoBlock s).lfo = { s.lfo with valid := s.seq.ops.count.toNat } := rfl
@[simp] theorem endLfoBlock_seq (s : State) : (endLfoBlock s).seq = s.seq := rfl
@[simp] theorem endLfoBlock_status (s : State) : (endLfoBlock s).status = s.status := rfl
@[simp] theorem endLfoBlock_regs (s : State) : (endLfoBlock s).regs = s.regs := rfl
@[simp] theorem endLfoBlock_result (s : State) : (endLfoBlock s).result = s.result := rfl
@[simp] theorem endLfoBlock_rst (s : State) : (endLfoBlock s).rst = s.rst := rfl
@[simp] theorem endLfoBlock_xmem (s : State) : (endLfoBlock s).xmem = s.xmem := rfl
@[simp] theorem endLfoBlock_host (s : State) : (endLfoBlock s).host = s.host := rfl
@[simp] theorem endLfoBlock_hostData (s : State) : (endLfoBlock s).hostData = s.hostData := rfl
@[simp] theorem endLfoBlock_drawCount (s : State) : (endLfoBlock s).drawCount = s.drawCount := rfl

/-! ## giveLfoHandle -/

@[simp] theorem giveLfoHandle_dly (s : State) : (giveLfoHandle s).dly = s.dly := rfl
@[simp] theorem giveLfoHandle_lfo (s : State) : (giveLfoHandle s).lfo = s.lfo := rfl
@[simp] theorem giveLfoHandle_seq (s : State) : (giveLfoHandle s).seq = s.seq := rfl
@[simp] theorem giveLfoHandle_status (s : State) : (giveLfoHandle s).status = s.status := rfl
@[simp] theorem giveLfoHandle_regs (s : State) : (giveLfoHandle s).regs = s.regs := rfl
@[simp] theorem giveLfoHandle_result (s : State) : (giveLfoHandle s).result = 0x80000000#32 := rfl
@[simp] theorem giveLfoHandle_rst (s : State) : (giveLfoHandle s).rst = s.rst := rfl
@[simp] theorem giveLfoHandle_xmem (s : State) : (giveLfoHandle s).xmem = s.xmem := rfl
@[simp] theorem giveLfoHandle_host (s : State) : (giveLfoHandle s).host = s.host := rfl
@[simp] theorem giveLfoHandle_hostData (s : State) : (giveLfoHandle s).hostData = s.hostData := rfl
@[simp] theorem giveLfoHandle_drawCount (s : State) : (giveLfoHandle s).drawCount = s.drawCount := rfl

/-! ## loseContents -/

@[simp] theorem loseContents_dly (P : Params) (s : State) : (loseContents P s).dly = unspecifiedDly P (P.draw s.drawCount) (P.draw (s.drawCount + 1)) := rfl
@[simp] theorem loseContents_lfo (P : Params) (s : State) : (loseContents P s).lfo = unspecifiedLfo P (P.draw s.drawCount) (P.draw (s.drawCount + 2)) := rfl
@[simp] theorem loseContents_seq (P : Params) (s : State) : (loseContents P s).seq = s.seq := rfl
@[simp] theorem loseContents_status (P : Params) (s : State) : (loseContents P s).status = s.status := rfl
@[simp] theorem loseContents_regs (P : Params) (s : State) : (loseContents P s).regs = s.regs := rfl
@[simp] theorem loseContents_result (P : Params) (s : State) : (loseContents P s).result = s.result := rfl
@[simp] theorem loseContents_rst (P : Params) (s : State) : (loseContents P s).rst = s.rst := rfl
@[simp] theorem loseContents_xmem (P : Params) (s : State) : (loseContents P s).xmem = s.xmem := rfl
@[simp] theorem loseContents_host (P : Params) (s : State) : (loseContents P s).host = s.host := rfl
@[simp] theorem loseContents_hostData (P : Params) (s : State) : (loseContents P s).hostData = s.hostData := rfl
@[simp] theorem loseContents_drawCount (P : Params) (s : State) : (loseContents P s).drawCount = s.drawCount + 3 := rfl

/-! ## resetCore -/

@[simp] theorem resetCore_dly (P : Params) (level : Bool) (s : State) : (resetCore P level s).dly = (State.resetWith P).dly := rfl
@[simp] theorem resetCore_lfo (P : Params) (level : Bool) (s : State) : (resetCore P level s).lfo = (State.resetWith P).lfo := rfl
@[simp] theorem resetCore_seq (P : Params) (level : Bool) (s : State) : (resetCore P level s).seq = (State.resetWith P).seq := rfl
@[simp] theorem resetCore_status (P : Params) (level : Bool) (s : State) : (resetCore P level s).status = { busy := false, fault := false, oor := false, cause := .none, info := 0 } := rfl
@[simp] theorem resetCore_regs (P : Params) (level : Bool) (s : State) : (resetCore P level s).regs = OperandRegs.reset := rfl
@[simp] theorem resetCore_result (P : Params) (level : Bool) (s : State) : (resetCore P level s).result = 0 := rfl
@[simp] theorem resetCore_rst (P : Params) (level : Bool) (s : State) : (resetCore P level s).rst = level := rfl
@[simp] theorem resetCore_xmem (P : Params) (level : Bool) (s : State) : (resetCore P level s).xmem = s.xmem := rfl
@[simp] theorem resetCore_host (P : Params) (level : Bool) (s : State) : (resetCore P level s).host = s.host := rfl
@[simp] theorem resetCore_hostData (P : Params) (level : Bool) (s : State) : (resetCore P level s).hostData = s.hostData := rfl
@[simp] theorem resetCore_drawCount (P : Params) (level : Bool) (s : State) : (resetCore P level s).drawCount = s.drawCount := rfl

/-! ## storeXmem -/

@[simp] theorem storeXmem_dly (k : Nat) (v : F64) (s : State) : (storeXmem k v s).dly = s.dly := rfl
@[simp] theorem storeXmem_lfo (k : Nat) (v : F64) (s : State) : (storeXmem k v s).lfo = s.lfo := rfl
@[simp] theorem storeXmem_seq (k : Nat) (v : F64) (s : State) : (storeXmem k v s).seq = s.seq := rfl
@[simp] theorem storeXmem_status (k : Nat) (v : F64) (s : State) : (storeXmem k v s).status = s.status := rfl
@[simp] theorem storeXmem_regs (k : Nat) (v : F64) (s : State) : (storeXmem k v s).regs = s.regs := rfl
@[simp] theorem storeXmem_result (k : Nat) (v : F64) (s : State) : (storeXmem k v s).result = s.result := rfl
@[simp] theorem storeXmem_rst (k : Nat) (v : F64) (s : State) : (storeXmem k v s).rst = s.rst := rfl
@[simp] theorem storeXmem_xmem (k : Nat) (v : F64) (s : State) : (storeXmem k v s).xmem = xmemWrite s.xmem k v := rfl
@[simp] theorem storeXmem_host (k : Nat) (v : F64) (s : State) : (storeXmem k v s).host = s.host := rfl
@[simp] theorem storeXmem_hostData (k : Nat) (v : F64) (s : State) : (storeXmem k v s).hostData = s.hostData := rfl
@[simp] theorem storeXmem_drawCount (k : Nat) (v : F64) (s : State) : (storeXmem k v s).drawCount = s.drawCount := rfl

/-! ## loadXmem -/

@[simp] theorem loadXmem_dly (P : Params) (k : Nat) (s : State) : (loadXmem P k s).dly = s.dly := rfl
@[simp] theorem loadXmem_lfo (P : Params) (k : Nat) (s : State) : (loadXmem P k s).lfo = s.lfo := rfl
@[simp] theorem loadXmem_seq (P : Params) (k : Nat) (s : State) : (loadXmem P k s).seq = s.seq := rfl
@[simp] theorem loadXmem_status (P : Params) (k : Nat) (s : State) : (loadXmem P k s).status = s.status := rfl
@[simp] theorem loadXmem_regs (P : Params) (k : Nat) (s : State) : (loadXmem P k s).regs = s.regs := rfl
@[simp] theorem loadXmem_result (P : Params) (k : Nat) (s : State) : (loadXmem P k s).result = s.result := rfl
@[simp] theorem loadXmem_rst (P : Params) (k : Nat) (s : State) : (loadXmem P k s).rst = s.rst := rfl
@[simp] theorem loadXmem_xmem (P : Params) (k : Nat) (s : State) : (loadXmem P k s).xmem = s.xmem := rfl
@[simp] theorem loadXmem_host (P : Params) (k : Nat) (s : State) : (loadXmem P k s).host = s.host := rfl
@[simp] theorem loadXmem_hostData (P : Params) (k : Nat) (s : State) : (loadXmem P k s).hostData = xmemRead (P.draw s.drawCount 0) s.xmem k := rfl
@[simp] theorem loadXmem_drawCount (P : Params) (k : Nat) (s : State) : (loadXmem P k s).drawCount = s.drawCount + 1 := rfl

/-! ## repeatStep -/

@[simp] theorem repeatStep_zero (f : State → State) (s : State) : repeatStep f 0 s = s := rfl

theorem repeatStep_succ (f : State → State) (n : Nat) (s : State) :
    repeatStep f (n + 1) s = repeatStep f n (f s) := rfl

/-- The last application can be taken off as well as the first. -/
theorem repeatStep_succ' (f : State → State) (n : Nat) (s : State) :
    repeatStep f (n + 1) s = f (repeatStep f n s) := by
  induction n generalizing s with
  | zero => rfl
  | succ n ih => exact ih (f s)

/-- What one application keeps, any number of applications keep. -/
theorem repeatStep_keeps {f : State → State} {Inv : State → Prop} (hf : ∀ s, Inv s → Inv (f s)) (n : Nat) (s : State)
    (h : Inv s) : Inv (repeatStep f n s) := by
  induction n generalizing s with
  | zero => exact h
  | succ n ih => exact ih (f s) (hf s h)

/-- What one application leaves as it is, any number of applications leave as it is. -/
theorem repeatStep_const {α : Type} {f : State → State} (g : State → α) (hf : ∀ s, g (f s) = g s) (n : Nat)
    (s : State) : g (repeatStep f n s) = g s :=
  repeatStep_keeps (Inv := fun t => g t = g s) (fun t h => (hf t).trans h) n s rfl

end Sys2Proof.Machine
end

