-- ==== Sys2Proof/Laws/Memory.lean ====
section
/-! SUPPORT. The laws of an element memory: a read after a write, the canonical form and the range of indices kept
by every write; then the same for RING, LFOBUF and XMEM. -/

namespace Sys2Proof.Machine

variable {w : Nat} {dflt : Option (BitVec w)}

@[simp] theorem memRead_nil (dflt : Option (BitVec w)) (k : Nat) : memRead dflt [] k = dflt := rfl

theorem memWfFrom_cons {lo a : Nat} {x : BitVec w} {m : Mem w} :
    memWfFrom dflt lo ((a, x) :: m) = true ↔ lo ≤ a ∧ some x ≠ dflt ∧ memWfFrom dflt (a + 1) m = true := by
  simp [memWfFrom, Bool.and_eq_true, and_assoc]

theorem memWfFrom_weaken {lo lo' : Nat} (h : lo' ≤ lo) {m : Mem w} (hm : memWfFrom dflt lo m = true) :
    memWfFrom dflt lo' m = true := by
  cases m with
  | nil => rfl
  | cons e m =>
    obtain ⟨a, x⟩ := e
    rw [memWfFrom_cons] at hm ⊢
    exact ⟨Nat.le_trans h hm.1, hm.2⟩

/-- Nothing is listed below the least index of a canonical memory. -/
theorem memFind_none {lo k : Nat} (hk : k < lo) {m : Mem w} (hm : memWfFrom dflt lo m = true) :
    memFind m k = none := by
  induction m generalizing lo with
  | nil => rfl
  | cons e m ih =>
    obtain ⟨a, x⟩ := e
    rw [memWfFrom_cons] at hm
    rw [memFind, if_neg (by omega)]
    exact ih (by omega) hm.2.2

/-- A read after a write: the written element at the written index, every other element as before. -/
theorem memRead_memWrite_from {lo : Nat} {m : Mem w} (hm : memWfFrom dflt lo m = true) (k j : Nat) (v : BitVec w) :
    memRead dflt (memWrite dflt m k v) j = if j = k then some v else memRead dflt m j := by
  induction m generalizing lo with
  | nil =>
    unfold memWrite
    split <;> rename_i hd
    · by_cases hj : j = k <;> simp [hj, hd]
    · by_cases hj : j = k
      · simp [memRead, memFind, hj]
      · simp [memRead, memFind, hj, Ne.symm hj]
  | cons e m ih =>
    obtain ⟨a, x⟩ := e
    rw [memWfFrom_cons] at hm
    obtain ⟨hlo, hx, hrest⟩ := hm
    have hak : k < a → memFind ((a, x) :: m) k = none := fun h => by
      rw [memFind, if_neg (by omega)]; exact memFind_none (by omega) hrest
    unfold memWrite
    by_cases h1 : k < a
    · rw [if_pos h1]
      split <;> rename_i hd
      · by_cases hj : j = k
        · subst hj; simp [memRead, hak h1, hd]
        · simp [hj]
      · by_cases hj : j = k
        · simp [memRead, memFind, hj]
        · simp [memRead, memFind, hj, Ne.symm hj]
    · rw [if_neg h1]
      by_cases h2 : k = a
      · subst h2
        rw [if_pos rfl]
        split <;> rename_i hd
        · by_cases hj : j = k
          · subst hj; simp [memRead, memFind_none (Nat.lt_succ_self j) hrest, hd]
          · simp [memRead, memFind, hj, Ne.symm hj]
        · by_cases hj : j = k
          · simp [memRead, memFind, hj]
          · simp [memRead, memFind, hj, Ne.symm hj]
      · rw [if_neg h2]
        have ih' := ih hrest
        by_cases hja : a = j
        · subst hja
          simp [memRead, memFind, Ne.symm h2]
        · simpa [memRead, memFind, hja] using ih'

theorem memRead_memWrite {m : Mem w} (hm : memWf dflt m = true) (k j : Nat) (v : BitVec w) :
    memRead dflt (memWrite dflt m k v) j = if j = k then some v else memRead dflt m j :=
  memRead_memWrite_from hm k j v

theorem memWfFrom_memWrite {lo : Nat} {m : Mem w} (hm : memWfFrom dflt lo m = true) {k : Nat} (hk : lo ≤ k)
    (v : BitVec w) : memWfFrom dflt lo (memWrite dflt m k v) = true := by
  induction m generalizing lo with
  | nil =>
    unfold memWrite
    split <;> rename_i hd
    · rfl
    · exact memWfFrom_cons.mpr ⟨hk, hd, rfl⟩
  | cons e m ih =>
    obtain ⟨a, x⟩ := e
    have hm' := hm
    rw [memWfFrom_cons] at hm
    obtain ⟨hlo, hx, hrest⟩ := hm
    unfold memWrite
    by_cases h1 : k < a
    · rw [if_pos h1]
      split <;> rename_i hd
      · exact hm'
      · exact memWfFrom_cons.mpr ⟨hk, hd, memWfFrom_cons.mpr ⟨by omega, hx, hrest⟩⟩
    · rw [if_neg h1]
      by_cases h2 : k = a
      · subst h2
        rw [if_pos rfl]
        split <;> rename_i hd
        · exact memWfFrom_weaken (by omega) hrest
        · exact memWfFrom_cons.mpr ⟨hlo, hd, hrest⟩
      · rw [if_neg h2]
        exact memWfFrom_cons.mpr ⟨hlo, hx, ih hrest (by omega)⟩

/-- A write keeps the canonical form. -/
theorem memWf_memWrite {m : Mem w} (hm : memWf dflt m = true) (k : Nat) (v : BitVec w) :
    memWf dflt (memWrite dflt m k v) = true :=
  memWfFrom_memWrite hm (Nat.zero_le k) v

theorem memBelow_cons {n a : Nat} {x : BitVec w} {m : Mem w} :
    memBelow n ((a, x) :: m) = true ↔ a < n ∧ memBelow n m = true := by
  simp [memBelow]

/-- A write below n keeps every listed index below n. -/
theorem memBelow_memWrite {n : Nat} {m : Mem w} (hm : memBelow n m = true) {k : Nat} (hk : k < n) (v : BitVec w) :
    memBelow n (memWrite dflt m k v) = true := by
  induction m with
  | nil =>
    unfold memWrite
    split
    · rfl
    · exact memBelow_cons.mpr ⟨hk, rfl⟩
  | cons e m ih =>
    obtain ⟨a, x⟩ := e
    have hm' := memBelow_cons.mp hm
    unfold memWrite
    split
    · split
      · exact hm
      · exact memBelow_cons.mpr ⟨hk, hm⟩
    · split
      · split
        · exact hm'.2
        · exact memBelow_cons.mpr ⟨hk, hm'.2⟩
      · exact memBelow_cons.mpr ⟨hm'.1, ih hm'.2⟩

/-- A write to an element that exists keeps a memory's invariant. -/
theorem MemInv.memWrite {n : Nat} {m : Mem w} (h : MemInv dflt n m) {k : Nat} (hk : k < n) (v : BitVec w) :
    MemInv dflt n (memWrite dflt m k v) :=
  ⟨memWf_memWrite h.1 k v, memBelow_memWrite h.2 hk v⟩

theorem MemInv.nil (dflt : Option (BitVec w)) (n : Nat) : MemInv dflt n [] := ⟨rfl, rfl⟩

/-- Writing an unlisted index what it reads as leaves a canonical memory as it is. -/
theorem memWrite_default {m : Mem w} (hm : memWf (some v) m = true) (k : Nat) (h : memFind m k = none) :
    memWrite (some v) m k v = m := by
  induction m with
  | nil => simp [memWrite]
  | cons e m ih =>
    obtain ⟨a, x⟩ := e
    have hne : a ≠ k := by rintro rfl; simp [memFind] at h
    have hrest : memFind m k = none := by simpa [memFind, hne] using h
    unfold memWf at hm
    rw [memWfFrom_cons] at hm
    unfold memWrite
    by_cases h1 : k < a
    · simp [h1]
    · rw [if_neg h1, if_neg (Ne.symm hne)]
      rw [ih (memWfFrom_weaken (Nat.zero_le _) hm.2.2) hrest]

/-! ## forgetting -/

theorem memForget_cons (lo n a : Nat) (x : BitVec w) (m : Mem w) :
    memForget lo n ((a, x) :: m) =
      if lo ≤ a ∧ a < lo + n then memForget lo n m else (a, x) :: memForget lo n m := by
  unfold memForget
  by_cases h : lo ≤ a ∧ a < lo + n
  · rw [if_pos h, List.filter_cons_of_neg (by simp; omega)]
  · rw [if_neg h, List.filter_cons_of_pos (by simp; omega)]

/-- A read after forgetting: the default inside the range, as before outside it. -/
theorem memRead_memForget (lo n k : Nat) (m : Mem w) :
    memRead dflt (memForget lo n m) k = if lo ≤ k ∧ k < lo + n then dflt else memRead dflt m k := by
  induction m with
  | nil => simp [memForget]
  | cons e m ih =>
    obtain ⟨a, x⟩ := e
    rw [memForget_cons]
    by_cases hr : lo ≤ a ∧ a < lo + n
    · rw [if_pos hr, ih]
      by_cases hk : lo ≤ k ∧ k < lo + n
      · rw [if_pos hk, if_pos hk]
      · have hak : a ≠ k := fun h => hk (h ▸ hr)
        rw [if_neg hk, if_neg hk, memRead, memRead, memFind, if_neg hak]
    · rw [if_neg hr]
      by_cases hak : a = k
      · subst hak; rw [if_neg hr]; simp [memRead, memFind]
      · unfold memRead at ih ⊢; rw [memFind, memFind, if_neg hak, if_neg hak]; exact ih

theorem memWfFrom_memForget {lo : Nat} {m : Mem w} (hm : memWfFrom dflt lo m = true) (b n : Nat) :
    memWfFrom dflt lo (memForget b n m) = true := by
  induction m generalizing lo with
  | nil => rfl
  | cons e m ih =>
    obtain ⟨a, x⟩ := e
    rw [memWfFrom_cons] at hm
    rw [memForget_cons]
    split
    · exact ih (memWfFrom_weaken (by omega) hm.2.2)
    · exact memWfFrom_cons.mpr ⟨hm.1, hm.2.1, ih hm.2.2⟩

/-- Forgetting keeps a memory's invariant. -/
theorem MemInv.memForget {n : Nat} {m : Mem w} (h : MemInv dflt n m) (b l : Nat) :
    MemInv dflt n (memForget b l m) := by
  refine ⟨memWfFrom_memForget h.1 b l, ?_⟩
  have h2 := h.2
  unfold memBelow Machine.memForget at *
  rw [List.all_eq_true] at h2 ⊢
  exact fun e he => h2 e (List.mem_filter.mp he).1

/-! ## a memory of given values -/

/-- A memory of n elements of given values is canonical and lists none beyond them. -/
theorem MemInv.memOf (dflt : Option (BitVec w)) (values : Nat → BitVec w) (n : Nat) :
    MemInv dflt n (memOf dflt values n) := by
  induction n with
  | zero => exact MemInv.nil dflt 0
  | succ n ih =>
    refine MemInv.memWrite ⟨ih.1, ?_⟩ (Nat.lt_succ_self n) (values n)
    have h := ih.2
    unfold memBelow at h ⊢
    rw [List.all_eq_true] at h ⊢
    exact fun e he => decide_eq_true (Nat.lt_succ_of_lt (of_decide_eq_true (h e he)))

/-- Its elements read as the values. -/
theorem memRead_memOf (dflt : Option (BitVec w)) (values : Nat → BitVec w) (n k : Nat) :
    memRead dflt (memOf dflt values n) k = if k < n then some (values k) else dflt := by
  induction n with
  | zero => rfl
  | succ n ih =>
    unfold Machine.memOf
    rw [memRead_memWrite (MemInv.memOf dflt values n).1, ih]
    by_cases hk : k = n
    · subst hk; rw [if_pos rfl, if_pos (Nat.lt_succ_self k)]
    · rw [if_neg hk]; exact if_congr (by omega) rfl rfl

/-! ## RING, LFOBUF, XMEM -/

/-- A drawn RING meets the invariant, and its elements are the draws. -/
theorem ringDrawn_inv (P : Params) (δ : Draws) : MemInv (some f64Zero) P.cap (ringDrawn P δ) :=
  MemInv.memOf _ _ _

theorem ringRead_ringDrawn (P : Params) (δ : Draws) {k : Nat} (h : k < P.cap) : ringRead (ringDrawn P δ) k = δ k := by
  unfold ringRead ringDrawn; rw [memRead_memOf, if_pos h]; rfl

/-- A drawn LFOBUF meets the invariant, and its elements are the draws. -/
theorem lfoDrawn_inv (P : Params) (δ : Draws) : MemInv (some f32Zero) P.cap (lfoDrawn P δ) :=
  MemInv.memOf _ _ _

theorem lfoRead_lfoDrawn (P : Params) (δ : Draws) {k : Nat} (h : k < P.cap) :
    lfoRead (lfoDrawn P δ) k = draw32 (δ k) := by
  unfold lfoRead lfoDrawn; rw [memRead_memOf, if_pos h]; rfl

@[simp] theorem ringRead_nil (k : Nat) : ringRead [] k = f64Zero := rfl
@[simp] theorem lfoRead_nil (k : Nat) : lfoRead [] k = f32Zero := rfl
@[simp] theorem xmemRead_nil (d : F64) (k : Nat) : xmemRead d [] k = d := rfl

/-- A RING read after a RING write. -/
theorem ringRead_ringWrite {m : Mem 64} (hm : memWf (some f64Zero) m = true) (k j : Nat) (v : F64) :
    ringRead (ringWrite m k v) j = if j = k then v else ringRead m j := by
  unfold ringRead ringWrite
  rw [memRead_memWrite hm]
  split <;> rfl

/-- An LFOBUF read after an LFOBUF write. -/
theorem lfoRead_lfoWrite {m : Mem 32} (hm : memWf (some f32Zero) m = true) (k j : Nat) (v : F32) :
    lfoRead (lfoWrite m k v) j = if j = k then v else lfoRead m j := by
  unfold lfoRead lfoWrite
  rw [memRead_memWrite hm]
  split <;> rfl

/-- An XMEM read after an XMEM write; the draw serves an element never written. -/
theorem xmemRead_xmemWrite {m : Mem 64} (hm : memWf none m = true) (k j : Nat) (v d : F64) :
    xmemRead d (xmemWrite m k v) j = if j = k then v else xmemRead d m j := by
  unfold xmemRead xmemWrite
  rw [memRead_memWrite hm]
  split <;> rfl

/-- An XMEM read after forgetting: the draw inside the range. -/
theorem xmemRead_xmemForget (lo n k : Nat) (m : Mem 64) (d : F64) :
    xmemRead d (xmemForget lo n m) k = if lo ≤ k ∧ k < lo + n then d else xmemRead d m k := by
  unfold xmemRead xmemForget
  rw [memRead_memForget]
  split <;> rfl

theorem memWf_ringWrite {m : Mem 64} (hm : memWf (some f64Zero) m = true) (k : Nat) (v : F64) :
    memWf (some f64Zero) (ringWrite m k v) = true := memWf_memWrite hm k v

theorem memWf_lfoWrite {m : Mem 32} (hm : memWf (some f32Zero) m = true) (k : Nat) (v : F32) :
    memWf (some f32Zero) (lfoWrite m k v) = true := memWf_memWrite hm k v

theorem memWf_xmemWrite {m : Mem 64} (hm : memWf none m = true) (k : Nat) (v : F64) :
    memWf none (xmemWrite m k v) = true := memWf_memWrite hm k v

/-- An output handle names XMEM: WrBuf is one XMEM write. -/
theorem wrBuf_eq {h : Handle} (hh : handleIsLfo h = false) (i : Nat) (v : F64) (m : Mem 64) :
    wrBuf h i v m = xmemWrite m (handleBase h + i) v := by simp [wrBuf, hh]

/-- WrBuf keeps the canonical form, whatever the handle. -/
theorem memWf_wrBuf {m : Mem 64} (hm : memWf none m = true) (h : Handle) (i : Nat) (v : F64) :
    memWf none (wrBuf h i v m) = true := by
  unfold wrBuf; split
  · exact hm
  · exact memWf_xmemWrite hm _ _

end Sys2Proof.Machine
end

