-- ==== Sys2Proof/Laws/Sequencer.lean ====
section
/-! SUPPORT. What the sequencer's shared operations can do: the gate of a register write, issue, an abandoned
command, one move of a busy core; and the issue checks as the conditions of `Ready`. -/

namespace Sys2Proof.Machine

/-! ## the gate and issue -/

theorem gate_held (P : Params) (f : State → State) {s : State} (h : s.rst = true) : gate P f s = s := by
  simp [gate, h]

theorem gate_faulted (P : Params) (f : State → State) {s : State} (h : s.status.fault = true) : gate P f s = s := by
  simp [gate, h]

theorem gate_busy (P : Params) (f : State → State) {s : State} (hr : s.rst = false) (hf : s.status.fault = false)
    (hb : s.status.busy = true) : gate P f s = busyViolation P s := by simp [gate, hr, hf, hb]

theorem gate_idle (P : Params) (f : State → State) {s : State} (h : Idle s) : gate P f s = f s := by
  simp [gate, h.1, h.2.1, h.2.2]

theorem gate_deaf (P : Params) (f : State → State) {s : State} (h : Deaf s) : gate P f s = s :=
  h.elim (gate_held P f) (gate_faulted P f)

theorem gate_violated (P : Params) (f : State → State) {s : State} (h : Violated s) :
    gate P f s = busyViolation P s := gate_busy P f h.1 h.2.1 h.2.2

/-- A core is deaf, violated or idle. -/
theorem gate_states (s : State) : Deaf s ∨ Violated s ∨ Idle s := by
  unfold Deaf Violated Idle
  cases s.rst <;> cases s.status.fault <;> cases s.status.busy <;> decide

/-- Everything a gated write can do. -/
theorem gate_cases (P : Params) (f : State → State) (s : State) :
    (Deaf s ∧ gate P f s = s) ∨ (Violated s ∧ gate P f s = busyViolation P s) ∨ (Idle s ∧ gate P f s = f s) :=
  (gate_states s).imp (fun h => ⟨h, gate_deaf P f h⟩)
    (Or.imp (fun h => ⟨h, gate_violated P f h⟩) fun h => ⟨h, gate_idle P f h⟩)

theorem Idle.not_deaf {s : State} (h : Idle s) : ¬ Deaf s := by
  rintro (h' | h')
  · exact absurd (h.2.2.symm.trans h') (by decide)
  · exact absurd (h.1.symm.trans h') (by decide)

/-- Clearing BUSY in a state whose BUSY is 0 changes nothing. -/
theorem status_busy_false {t : Status} (h : t.busy = false) : { t with busy := false } = t := by
  cases t; simp_all

/-- A command without checks, issued to an idle core: latched, and its effect. -/
theorem issueSimple_idle (P : Params) (w : CmdWord) (effect : State → State) {s : State} (h : Idle s) :
    issueSimple P w effect s = setBusy false (effect (setBusy true (latch w s))) := by
  simp [issueSimple, issue, accept, gate_idle P _ h]

/-- A command refused at issue. -/
theorem issue_refused (P : Params) (w : CmdWord) (check : State → Option Refused) (start : State → State)
    (steps : State → Nat) (sample finish : State → State) {s : State} (h : Idle s) {r : Refused}
    (hr : check (latch w s) = some r) : issue P w check start steps sample finish s = raiseFault r s := by
  simp [issue, accept, gate_idle P _ h, hr]

/-- A command that passes its checks. -/
theorem issue_accepted (P : Params) (w : CmdWord) (check : State → Option Refused) (start : State → State)
    (steps : State → Nat) (sample finish : State → State) {s : State} (h : Idle s)
    (hr : check (latch w s) = none) :
    issue P w check start steps sample finish s =
      setBusy false (finish (repeatStep sample (steps (start (setBusy true (latch w s))))
        (start (setBusy true (latch w s))))) := by
  simp [issue, accept, gate_idle P _ h, hr]

/-! ## issue checks -/

theorem isConfigured_iff (rate : F64) : isConfigured rate = true ↔ Configured rate := by
  simp [isConfigured, Bool.and_eq_true]

theorem overruns_iff (P : Params) (h : Handle) (n : Nat) (s : State) :
    overruns P h n s = true ↔ ¬ Fits P s h n := by
  unfold overruns Fits spaceLimit handleIsLfo
  cases h.msb <;> simp

theorem overruns_eq_false (P : Params) (h : Handle) (n : Nat) (s : State) :
    overruns P h n s = false ↔ Fits P s h n := by
  rw [← Bool.not_eq_true, overruns_iff, Classical.not_not]

theorem isConfigured_eq_false (rate : F64) : isConfigured rate = false ↔ ¬ Configured rate := by
  rw [← isConfigured_iff, Bool.not_eq_true]

/-- The checks of DLY.PROC at issue, over the operand registers just latched (42_delay_process.md R161). -/
theorem checkDlyProc_latch (P : Params) (w : CmdWord) (s : State) :
    checkDlyProc P (latch w s) =
      if isConfigured s.dly.sampleRate = false then some ⟨.dlyUnconfigured, 0⟩
      else if s.regs.hOut.msb = true then some ⟨.badHandle, 4⟩
      else if overruns P s.regs.hIn s.regs.count.toNat s = true then some ⟨.bounds, 1⟩
      else if overruns P s.regs.hMod s.regs.count.toNat s = true then some ⟨.bounds, 2⟩
      else if overruns P s.regs.hEnv s.regs.count.toNat s = true then some ⟨.bounds, 3⟩
      else if overruns P s.regs.hOut s.regs.count.toNat s = true then some ⟨.bounds, 4⟩
      else none := by
  cases h : isConfigured s.dly.sampleRate <;> simp [checkDlyProc, h] <;> rfl

/-- The checks of LFO.PROC at issue, over the operand registers just latched (44_lfo.md R213). -/
theorem checkLfoProc_latch (P : Params) (w : CmdWord) (s : State) :
    checkLfoProc P (latch w s) =
      if isConfigured s.lfo.sampleRate = false then some ⟨.lfoUnconfigured, 0⟩
      else if P.cap < s.regs.count.toNat then some ⟨.lfoCount, 0⟩
      else none := by
  cases h : isConfigured s.lfo.sampleRate <;> simp [checkLfoProc, h] <;> rfl

/-- An idle core's DLY.PROC passes its checks exactly when it is ready. -/
theorem checkDlyProc_eq_none {P : Params} {s : State} (w : CmdWord) (hi : Idle s) :
    checkDlyProc P (latch w s) = none ↔ DlyProcReady P s := by
  rw [checkDlyProc_latch]
  constructor
  · intro h
    repeat' split at h
    all_goals first | cases h | skip
    rename_i h1 h2 h3 h4 h5 h6
    rw [Bool.not_eq_false, isConfigured_iff] at h1
    rw [Bool.not_eq_true] at h2
    rw [Bool.not_eq_true, overruns_eq_false] at h3 h4 h5 h6
    exact ⟨hi, h1, h2, h3, h4, h5, h6⟩
  · intro h
    rw [(isConfigured_iff _).mpr h.rate, h.out, (overruns_eq_false ..).mpr h.fitsIn,
      (overruns_eq_false ..).mpr h.fitsMod, (overruns_eq_false ..).mpr h.fitsEnv,
      (overruns_eq_false ..).mpr h.fitsOut]
    rfl

theorem checkDlyProc_ready {P : Params} {s : State} (w : CmdWord) (h : DlyProcReady P s) :
    checkDlyProc P (latch w s) = none := (checkDlyProc_eq_none w h.idle).mpr h

/-- An idle core's LFO.PROC passes its checks exactly when it is ready. -/
theorem checkLfoProc_eq_none {P : Params} {s : State} (w : CmdWord) (hi : Idle s) :
    checkLfoProc P (latch w s) = none ↔ LfoProcReady P s := by
  rw [checkLfoProc_latch]
  constructor
  · intro h
    repeat' split at h
    all_goals first | cases h | skip
    rename_i h1 h2
    rw [Bool.not_eq_false, isConfigured_iff] at h1
    exact ⟨hi, h1, by omega⟩
  · intro h
    have := h.count
    rw [(isConfigured_iff _).mpr h.rate, if_neg (by decide), if_neg (by omega)]

theorem checkLfoProc_ready {P : Params} {s : State} (w : CmdWord) (h : LfoProcReady P s) :
    checkLfoProc P (latch w s) = none := (checkLfoProc_eq_none w h.idle).mpr h

/-- An idle core's command passes its checks exactly when it is ready. -/
theorem issueCheck_eq_none {P : Params} {i : Instr} {s : State} (w : CmdWord) (hi : Idle s) :
    issueCheck P i (latch w s) = none ↔ Ready P i s := by
  cases i
  case dlyProc => exact checkDlyProc_eq_none w hi
  case lfoProc => exact checkLfoProc_eq_none w hi
  all_goals exact ⟨fun _ => hi, fun _ => rfl⟩

/-- Everything a command that is left running can do in an idle core: a fault at issue, or its start, BUSY set. -/
theorem beginCommand_cases (P : Params) (i : Instr) {s : State} (hi : Idle s) :
    (¬ Ready P i s ∧ ∃ r, issueCheck P i (latch (encode i) s) = some r ∧ beginCommand P i s = raiseFault r s) ∨
    (Ready P i s ∧ beginCommand P i s = startCommand P i (setBusy true (latch (encode i) s))) := by
  have e : beginCommand P i s = match issueCheck P i (latch (encode i) s) with
      | some r => raiseFault r s
      | none => startCommand P i (setBusy true (latch (encode i) s)) := by
    unfold beginCommand accept
    exact gate_idle P _ hi
  cases h : issueCheck P i (latch (encode i) s) with
  | none => exact .inr ⟨(issueCheck_eq_none _ hi).mp h, by rw [e, h]⟩
  | some r =>
    refine .inl ⟨fun hr => ?_, r, rfl, by rw [e, h]⟩
    rw [(issueCheck_eq_none _ hi).mpr hr] at h; cases h

/-! ## a busy core -/

@[simp] theorem decode_encode (i : Instr) : decode (encode i) = .ok i := by cases i <;> rfl

/-- One move of a busy core whose latched word is a command. -/
theorem advance_eq (P : Params) {s : State} {i : Instr} (h : decode s.seq.cmd = .ok i) :
    advance P s = if s.seq.i.toNat < sampleSteps i s then sampleStep P i s else setBusy false (endCommand P i s) := by
  simp [advance, h]

/-- What every sample step and every end of a command keeps, one move of a busy core keeps, BUSY apart. -/
theorem advance_keeps {P : Params} {Inv : State → Prop} (hs : ∀ i s, Inv s → Inv (sampleStep P i s))
    (he : ∀ i s, Inv s → Inv (endCommand P i s)) (hb : ∀ s, Inv s → Inv (setBusy false s)) {s : State} (h : Inv s) :
    Inv (advance P s) := by
  unfold advance
  split
  · exact hb s h
  · split
    · exact hs _ _ h
    · exact hb _ (he _ _ h)

/-- What a move keeps, an abandoned command keeps. -/
theorem abandon_keeps {P : Params} {Inv : State → Prop} (ha : ∀ s, Inv s → Inv (advance P s))
    (hd : ∀ s n, Inv s → Inv { s with drawCount := n }) {s : State} (h : Inv s) : Inv (abandon P s) := by
  unfold abandon
  exact repeatStep_keeps ha _ _ (hd s _ h)

/-- An abandoned command has made some number of its remaining moves. -/
theorem abandon_eq (P : Params) {s : State} {i : Instr} (h : decode s.seq.cmd = .ok i) :
    ∃ n, n ≤ sampleSteps i s - s.seq.i.toNat + 1 ∧
      abandon P s = repeatStep (advance P) n { s with drawCount := s.drawCount + 1 } := by
  unfold abandon
  rw [h]
  exact ⟨_, Nat.lt_succ_iff.mp (Nat.mod_lt _ (Nat.succ_pos _)), rfl⟩

/-- Everything a BUSY_VIOLATION does: DelayEngine and LFO are draws, the output buffer of a running DLY.PROC is
forgotten, STATUS records the fault; OOR, RESULT and the model's own fields are the abandoned command's. -/
theorem busyViolation_eq (P : Params) (s : State) :
    busyViolation P s =
      { abandon P s with
        dly := unspecifiedDly P (P.draw (abandon P s).drawCount) (P.draw ((abandon P s).drawCount + 1))
        lfo := unspecifiedLfo P (P.draw (abandon P s).drawCount) (P.draw ((abandon P s).drawCount + 2))
        xmem := interruptedXmem s
        drawCount := (abandon P s).drawCount + 3
        status :=
          { busy := false, fault := true, oor := (abandon P s).status.oor, cause := .busyViolation, info := 0 } } := rfl

/-- Whatever is drawn, writeIndex and LFO_VALID are in their ranges and the two memories in canonical form. -/
theorem unspecifiedDly_inv {P : Params} (hP : 0 < P.cap) (δ ρ : Draws) :
    (unspecifiedDly P δ ρ).writeIndex < P.cap ∧ MemInv (some f64Zero) P.cap (unspecifiedDly P δ ρ).ring :=
  ⟨lt_of_lt_of_le (Nat.mod_lt _ (Nat.succ_pos _)) (by omega), ringDrawn_inv P ρ⟩

theorem unspecifiedLfo_inv (P : Params) (δ ρ : Draws) :
    (unspecifiedLfo P δ ρ).valid ≤ P.cap ∧ MemInv (some f32Zero) P.cap (unspecifiedLfo P δ ρ).buf :=
  ⟨Nat.lt_succ_iff.mp (Nat.mod_lt _ (Nat.succ_pos _)), lfoDrawn_inv P ρ⟩

/-- Outside the output buffer of a DLY.PROC an interruption leaves every element of XMEM as it was; inside, each reads
as a draw. -/
theorem xmemRead_interruptedXmem {s : State} (hb : s.status.busy = true) (k : Nat) (r : F64) :
    (¬ InRunningOutput s k → xmemRead r (interruptedXmem s) k = xmemRead r s.xmem k) ∧
    (InRunningOutput s k → xmemRead r (interruptedXmem s) k = r) := by
  unfold InRunningOutput Runs interruptedXmem
  cases hd : decode s.seq.cmd with
  | error e => simp
  | ok i =>
    cases i
    case dlyProc =>
      simp only [hb, xmemRead_xmemForget, true_and]
      exact ⟨fun h => if_neg h, fun h => if_pos h⟩
    all_goals simp

/-- An interruption keeps the invariant of XMEM. -/
theorem interruptedXmem_inv {s : State} {n : Nat} (h : MemInv none n s.xmem) : MemInv none n (interruptedXmem s) := by
  unfold interruptedXmem
  split
  case h_2 => exact MemInv.memForget h _ _
  all_goals exact h

/-! ## commands by instruction -/

/-- The meaning of a command, for any parameter record. -/
theorem exec_eq (i : Instr) (s : State) :
    exec i s = .next (match i with
      | .dlySetsr => dlySetsrWith Config.params s
      | .dlyReset => dlyResetWith Config.params s
      | .dlyProc => dlyProcWith Config.params s
      | .lfoSetsr => lfoSetsrWith Config.params s
      | .lfoReset => lfoResetWith Config.params s
      | .lfoProc => lfoProcWith Config.params s
      | .lfoGetbuf => lfoGetbufWith Config.params s) := by
  cases i <;> rfl

end Sys2Proof.Machine
end

