-- ==== Sys2Proof/Laws/Blocks.lean ====
section
/-! SUPPORT. What one sample step of DLY.PROC and of LFO.PROC does, and what n of them leave as it is. -/

namespace Sys2Proof.Machine

/-! ## the buffers a sample reads -/

/-- RdBuf reads the element the handle names. -/
theorem rdBuf_element (d : F64) (h : Handle) (k : Nat) (s : State) :
    BufferElement s.xmem s.lfo.buf d h k (rdBuf d h k s) := by
  have hm : h.getLsbD 31 = handleIsLfo h := rfl
  have hb : (h.extractLsb' 0 31).toNat = handleBase h := by
    rw [BitVec.extractLsb'_toNat, Nat.shiftRight_zero]; rfl
  unfold rdBuf
  constructor <;> intro hl <;> rw [hm] at hl <;> rw [hl, hb] <;> rfl

/-! ## DLY.PROC -/

/-- One sample step of DLY.PROC, in a state that has latched the operands of s and left its LFO alone, is one
iteration of the loop of 42_delay_process.md R160. -/
theorem dlySample_rule (P : Params) {s b : State} (hops : b.seq.ops = s.regs) (hlfo : b.lfo = s.lfo)
    (hout : s.regs.hOut.msb = false) (hring : memWf (some f64Zero) b.dly.ring = true)
    (hxmem : memWf none b.xmem = true) :
    ∃ a m e : F64, DlySampleRule P s b.seq.drive (P.draw b.drawCount) b.seq.i.toNat a m e b.dly (dlySample P b).dly
      b.xmem (dlySample P b).xmem b.status.oor (dlySample P b).status.oor := by
  refine ⟨rdBuf (P.draw b.drawCount 0) b.seq.ops.hIn b.seq.i.toNat b,
    rdBuf (P.draw b.drawCount 1) b.seq.ops.hMod b.seq.i.toNat b,
    rdBuf (P.draw b.drawCount 2) b.seq.ops.hEnv b.seq.i.toNat b, ?_⟩
  constructor
  case input => rw [← hlfo, ← hops]; exact rdBuf_element _ _ _ b
  case modulation => rw [← hlfo, ← hops]; exact rdBuf_element _ _ _ b
  case envelope => rw [← hlfo, ← hops]; exact rdBuf_element _ _ _ b
  case ring =>
    intro k
    show ringRead (ringWrite b.dly.ring b.dly.writeIndex _) k = _
    rw [ringRead_ringWrite hring]
    rfl
  case out =>
    intro r k
    show xmemRead r (wrBuf b.seq.ops.hOut _ _ _) k = _
    rw [hops, wrBuf_eq hout, xmemRead_xmemWrite hxmem, ← hops]
    rfl
  all_goals first | rfl | (rw [← hops]; rfl)

/-- What n sample steps of DLY.PROC leave as it is, and where they leave the counters. -/
structure DlyBlockFrame (P : Params) (n : Nat) (b t : State) : Prop where
  lfo : t.lfo = b.lfo
  regs : t.regs = b.regs
  result : t.result = b.result
  rst : t.rst = b.rst
  host : t.host = b.host
  hostData : t.hostData = b.hostData
  ops : t.seq.ops = b.seq.ops
  cmd : t.seq.cmd = b.seq.cmd
  drive : t.seq.drive = b.seq.drive
  i : t.seq.i = b.seq.i + BitVec.ofNat 32 n
  drawCount : t.drawCount = b.drawCount + n
  busy : t.status.busy = b.status.busy
  fault : t.status.fault = b.status.fault
  cause : t.status.cause = b.status.cause
  info : t.status.info = b.status.info
  oor : b.status.oor = true → t.status.oor = true
  sampleRate : t.dly.sampleRate = b.dly.sampleRate
  softClip : t.dly.softClipSmoothed = b.dly.softClipSmoothed

theorem dlyBlock_frame (P : Params) (n : Nat) (b : State) : DlyBlockFrame P n b (repeatStep (dlySample P) n b) := by
  induction n with
  | zero => exact ⟨rfl, rfl, rfl, rfl, rfl, rfl, rfl, rfl, rfl, by simp, rfl, rfl, rfl, rfl, rfl, id, rfl, rfl⟩
  | succ n ih =>
    rw [repeatStep_succ']
    constructor
    case i =>
      rw [dlySample_seq]
      show _ + 1 = _
      rw [ih.i, BitVec.add_assoc]
      congr 1
      exact (BitVec.ofNat_add n 1).symm
    case drawCount => rw [dlySample_drawCount, ih.drawCount]; omega
    case oor =>
      intro h
      show (_ || _) = true
      rw [ih.oor h]; rfl
    case busy => exact ih.busy
    case fault => exact ih.fault
    case cause => exact ih.cause
    case info => exact ih.info
    case lfo => exact ih.lfo
    case regs => exact ih.regs
    case result => exact ih.result
    case rst => exact ih.rst
    case host => exact ih.host
    case hostData => exact ih.hostData
    case ops => exact ih.ops
    case cmd => exact ih.cmd
    case drive => exact ih.drive
    case sampleRate => exact ih.sampleRate
    case softClip => exact ih.softClip

/-- The sample steps of DLY.PROC keep RING and XMEM in canonical form. -/
theorem dlyBlock_wf (P : Params) (n : Nat) {b : State} (hr : memWf (some f64Zero) b.dly.ring = true)
    (hx : memWf none b.xmem = true) :
    memWf (some f64Zero) (repeatStep (dlySample P) n b).dly.ring = true ∧
      memWf none (repeatStep (dlySample P) n b).xmem = true :=
  repeatStep_keeps (Inv := fun t => memWf (some f64Zero) t.dly.ring = true ∧ memWf none t.xmem = true)
    (fun _ h => ⟨memWf_ringWrite h.1 _ _, memWf_wrBuf h.2 _ _ _⟩) n b ⟨hr, hx⟩

/-- The write index goes n further (42_delay_process.md R170). -/
theorem dlyBlock_writeIndex (P : Params) (n : Nat) {b : State} (hw : b.dly.writeIndex < P.cap) :
    (repeatStep (dlySample P) n b).dly.writeIndex = (b.dly.writeIndex + n) % P.cap := by
  induction n with
  | zero => rw [repeatStep_zero, Nat.add_zero, Nat.mod_eq_of_lt hw]
  | succ n ih =>
    rw [repeatStep_succ', dlySample_dly_writeIndex, ih, nextWriteIndex, Nat.mod_add_mod, Nat.add_assoc]

/-- RING elements at which no sample of the block writes are as before. -/
theorem dlyBlock_ring (P : Params) (n : Nat) {b : State} (hw : b.dly.writeIndex < P.cap)
    (hr : memWf (some f64Zero) b.dly.ring = true) (hx : memWf none b.xmem = true) {k : Nat}
    (hk : ∀ j, j < n → k ≠ (b.dly.writeIndex + j) % P.cap) :
    ringRead (repeatStep (dlySample P) n b).dly.ring k = ringRead b.dly.ring k := by
  induction n with
  | zero => rfl
  | succ n ih =>
    rw [repeatStep_succ']
    show ringRead (ringWrite _ (repeatStep (dlySample P) n b).dly.writeIndex _) k = _
    rw [ringRead_ringWrite (dlyBlock_wf P n hr hx).1, dlyBlock_writeIndex P n hw, if_neg (hk n (by omega)),
      ih (fun j hj => hk j (by omega))]

/-- XMEM elements outside the output range of the block are as before. -/
theorem dlyBlock_xmem (P : Params) (n : Nat) {b : State} (hn : b.seq.i.toNat + n < 2 ^ 32)
    (hr : memWf (some f64Zero) b.dly.ring = true) (hx : memWf none b.xmem = true) {k : Nat}
    (hk : k < handleBase b.seq.ops.hOut + b.seq.i.toNat ∨ handleBase b.seq.ops.hOut + b.seq.i.toNat + n ≤ k) (r : F64) :
    xmemRead r (repeatStep (dlySample P) n b).xmem k = xmemRead r b.xmem k := by
  induction n with
  | zero => rfl
  | succ n ih =>
    have hf := dlyBlock_frame P n b
    have hi : (repeatStep (dlySample P) n b).seq.i.toNat = b.seq.i.toNat + n := by
      rw [hf.i, BitVec.toNat_add, BitVec.toNat_ofNat, Nat.mod_eq_of_lt (a := n) (by omega), Nat.mod_eq_of_lt (by omega)]
    rw [repeatStep_succ', ← ih (by omega) (by omega)]
    show xmemRead r (wrBuf (repeatStep (dlySample P) n b).seq.ops.hOut _ _ _) k = _
    unfold wrBuf
    split
    · rfl
    · rw [xmemRead_xmemWrite (dlyBlock_wf P n hr hx).2, if_neg (by rw [hi, hf.ops]; omega)]

/-! ## LFO.PROC -/

/-- What n sample steps of LFO.PROC leave as it is, and where they leave the counters. -/
structure LfoBlockFrame (n : Nat) (b t : State) : Prop where
  dly : t.dly = b.dly
  status : t.status = b.status
  regs : t.regs = b.regs
  result : t.result = b.result
  rst : t.rst = b.rst
  xmem : t.xmem = b.xmem
  host : t.host = b.host
  hostData : t.hostData = b.hostData
  ops : t.seq.ops = b.seq.ops
  cmd : t.seq.cmd = b.seq.cmd
  drive : t.seq.drive = b.seq.drive
  i : t.seq.i = b.seq.i + BitVec.ofNat 32 n
  drawCount : t.drawCount = b.drawCount + n
  sampleRate : t.lfo.sampleRate = b.lfo.sampleRate
  valid : t.lfo.valid = b.lfo.valid

theorem lfoBlock_frame (P : Params) (n : Nat) (b : State) : LfoBlockFrame n b (repeatStep (lfoSample P) n b) := by
  induction n with
  | zero => exact ⟨rfl, rfl, rfl, rfl, rfl, rfl, rfl, rfl, rfl, rfl, rfl, by simp, rfl, rfl, rfl⟩
  | succ n ih =>
    rw [repeatStep_succ']
    constructor
    case i =>
      rw [lfoSample_seq]
      show _ + 1 = _
      rw [ih.i, BitVec.add_assoc]
      congr 1
      exact (BitVec.ofNat_add n 1).symm
    case drawCount => rw [lfoSample_drawCount, ih.drawCount]; omega
    case dly => exact ih.dly
    case status => exact ih.status
    case regs => exact ih.regs
    case result => exact ih.result
    case rst => exact ih.rst
    case xmem => exact ih.xmem
    case host => exact ih.host
    case hostData => exact ih.hostData
    case ops => exact ih.ops
    case cmd => exact ih.cmd
    case drive => exact ih.drive
    case sampleRate => exact ih.sampleRate
    case valid => exact ih.valid

/-- The sample steps of LFO.PROC keep LFOBUF in canonical form. -/
theorem lfoBlock_wf (P : Params) (n : Nat) {b : State} (h : memWf (some f32Zero) b.lfo.buf = true) :
    memWf (some f32Zero) (repeatStep (lfoSample P) n b).lfo.buf = true :=
  repeatStep_keeps (Inv := fun t => memWf (some f32Zero) t.lfo.buf = true) (fun _ h => memWf_lfoWrite h _ _) n b h

/-- LFOBUF after n sample steps that start at counter 0: element k below n is what sample k computed, every other
element is as before. -/
theorem lfoBlock_buf (P : Params) (n : Nat) {b : State} (hn : n < 2 ^ 32) (hi : b.seq.i = 0)
    (hw : memWf (some f32Zero) b.lfo.buf = true) (k : Nat) :
    lfoRead (repeatStep (lfoSample P) n b).lfo.buf k =
      if k < n then
        lfoElement P (P.draw (b.drawCount + k)) (repeatStep (lfoSample P) k b)
      else lfoRead b.lfo.buf k := by
  induction n with
  | zero => simp
  | succ n ih =>
    have hf := lfoBlock_frame P n b
    have hin : (repeatStep (lfoSample P) n b).seq.i.toNat = n := by
      rw [hf.i, hi, BitVec.toNat_add, BitVec.toNat_ofNat, show (0 : BitVec 32).toNat = 0 from rfl]; omega
    rw [repeatStep_succ', lfoSample_lfo_buf, lfoRead_lfoWrite (lfoBlock_wf P n hw), hin, hf.drawCount]
    by_cases hk : k = n
    · subst hk; rw [if_pos rfl, if_pos (Nat.lt_succ_self k)]
    · rw [if_neg hk, ih (by omega)]
      by_cases hk2 : k < n
      · rw [if_pos hk2, if_pos (by omega)]
      · rw [if_neg hk2, if_neg (by omega)]

end Sys2Proof.Machine
end

