-- ==== Sys2Proof/Laws/Round.lean ====
section
/-! SUPPORT. Rounding: the magnitude bits `roundMag` answers are the exact magnitude rounded once to nearest, ties
to even (`roundMag_rounded`); what follows for any rounding to nearest: it is exact on representable magnitudes
(`RoundedTo.exact`) and monotone (`RoundedTo.mono`). -/

namespace Sys2Proof.Machine

/-- Both interchange formats have a fraction bit and at least two exponent bits, and every integer of
fracBits + 1 bits is far below the largest number. -/
structure Fmt.Ok (f : Fmt) : Prop where
  frac : 1 ≤ f.fracBits
  exp : 2 ≤ f.expBits
  range : f.fracBits + 1 < 2 ^ (f.expBits - 1)

theorem binary64_ok : binary64.Ok := ⟨by decide, by decide, by decide⟩
theorem binary32_ok : binary32.Ok := ⟨by decide, by decide, by decide⟩

/-! ## the units of a magnitude -/

/-- A magnitude laid out as an exponent step Q and an integer significand n stands for n * 2^Q units. -/
theorem magUnits_pack (f : Fmt) (Q n : Nat) (hQ : Q = 0 ∨ 2 ^ f.fracBits ≤ n) (hn : n ≤ 2 ^ (f.fracBits + 1)) :
    magUnits f (Q * 2 ^ f.fracBits + n) = n * 2 ^ Q := by
  have hp : 0 < 2 ^ f.fracBits := Nat.two_pow_pos _
  rw [Nat.pow_succ] at hn
  generalize hw : 2 ^ f.fracBits = w at *
  rcases Nat.lt_or_ge n w with h | h
  · have hQ0 : Q = 0 := by omega
    subst hQ0
    simp [magUnits, hw, Nat.div_eq_of_lt h]
  · rcases Nat.lt_or_ge n (2 * w) with h2 | h2
    · obtain ⟨r, rfl⟩ := Nat.exists_eq_add_of_le h
      have hr : r < w := by omega
      have e1 : Q * w + (w + r) = r + (Q + 1) * w := by ring
      have hd : (Q * w + (w + r)) / w = Q + 1 := by
        rw [e1, Nat.add_mul_div_right _ _ hp, Nat.div_eq_of_lt hr]; omega
      have hm : (Q * w + (w + r)) % w = r := by
        rw [e1, Nat.add_mul_mod_self_right, Nat.mod_eq_of_lt hr]
      simp [magUnits, hw, hd, hm]
    · have hn2 : n = 2 * w := by omega
      subst hn2
      have hd : (Q * w + 2 * w) / w = Q + 2 := by
        rw [← Nat.add_mul, Nat.mul_div_cancel _ hp]
      have hm : (Q * w + 2 * w) % w = 0 := by
        rw [← Nat.add_mul, Nat.mul_mod_left]
      simp only [magUnits, hw, hd, hm]
      simp only [Nat.add_eq_zero_iff, OfNat.ofNat_ne_zero, and_false, if_false, Nat.add_zero]
      rw [show Q + 2 - 1 = Q + 1 from rfl, pow_succ]; ring

/-- Every magnitude has such a layout, with a significand below 2^(fracBits + 1). -/
theorem mag_layout (f : Fmt) (m : Nat) :
    ∃ Q n, m = Q * 2 ^ f.fracBits + n ∧ (Q = 0 ∨ 2 ^ f.fracBits ≤ n) ∧ n < 2 ^ (f.fracBits + 1) := by
  have hp : 0 < 2 ^ f.fracBits := Nat.two_pow_pos _
  have hdm := Nat.div_add_mod m (2 ^ f.fracBits)
  have hlt := Nat.mod_lt m hp
  rw [Nat.pow_succ]
  generalize 2 ^ f.fracBits = w at *
  rcases Nat.eq_zero_or_pos (m / w) with h | h
  · exact ⟨0, m % w, by rw [h] at hdm; omega, .inl rfl, by omega⟩
  · refine ⟨m / w - 1, w + m % w, ?_, .inr (by omega), by omega⟩
    obtain ⟨q, hq⟩ := Nat.exists_eq_add_of_le h
    rw [hq] at hdm ⊢
    rw [show 1 + q - 1 = q by omega]
    nlinarith

theorem magUnits_succ (f : Fmt) (m : Nat) : magUnits f m < magUnits f (m + 1) := by
  obtain ⟨Q, n, rfl, hQ, hn⟩ := mag_layout f m
  rw [Nat.add_assoc, magUnits_pack f Q n hQ hn.le, magUnits_pack f Q (n + 1) (by omega) hn]
  exact Nat.mul_lt_mul_of_pos_right (Nat.lt_succ_self n) (Nat.two_pow_pos Q)

/-- A larger magnitude stands for a larger number. -/
theorem magUnits_strictMono (f : Fmt) : StrictMono (magUnits f) := strictMono_nat_of_lt_succ (magUnits_succ f)

theorem magUnits_injective (f : Fmt) : Function.Injective (magUnits f) := (magUnits_strictMono f).injective

@[simp] theorem magUnits_zero (f : Fmt) : magUnits f 0 = 0 := by simp [magUnits]

/-- The units of infinity's magnitude bits: the power of two after the largest number. -/
theorem magUnits_infMag (f : Fmt) (hf : f.Ok) :
    magUnits f (infMag f) = 2 ^ f.fracBits * 2 ^ (2 ^ f.expBits - 2) := by
  have h4 : 4 ≤ 2 ^ f.expBits := by
    calc 4 = 2 ^ 2 := rfl
      _ ≤ 2 ^ f.expBits := Nat.pow_le_pow_right (by norm_num) hf.exp
  have e : infMag f = (2 ^ f.expBits - 2) * 2 ^ f.fracBits + 2 ^ f.fracBits := by
    unfold infMag
    obtain ⟨k, hk⟩ := Nat.exists_eq_add_of_le h4
    rw [hk, show 4 + k - 1 = (k + 2) + 1 by omega, show 4 + k - 2 = k + 2 by omega]; ring
  rw [e, magUnits_pack f _ _ (.inr le_rfl) (Nat.pow_le_pow_right (by norm_num) (by omega))]

/-- Below the magnitude where the step 2^Q begins, a number is below 2^(fracBits + Q) units. -/
theorem magUnits_below_grid (f : Fmt) (Q v : Nat) (h : ¬ 2 ^ Q ∣ magUnits f v) :
    magUnits f v < 2 ^ f.fracBits * 2 ^ Q := by
  obtain ⟨Q', n, rfl, hQ, hn⟩ := mag_layout f v
  rw [magUnits_pack f Q' n hQ hn.le] at h ⊢
  have hlt : Q' < Q := by
    by_contra hge
    exact h (Dvd.dvd.mul_left (pow_dvd_pow 2 (by omega)) n)
  obtain ⟨d, rfl⟩ := Nat.exists_eq_add_of_lt hlt
  have hn' : n < 2 ^ f.fracBits * 2 := by rw [← Nat.pow_succ]; exact hn
  have hw : 0 < 2 ^ Q' := Nat.two_pow_pos _
  calc n * 2 ^ Q' < 2 ^ f.fracBits * 2 * 2 ^ Q' := Nat.mul_lt_mul_of_pos_right hn' hw
    _ = 2 ^ f.fracBits * 2 ^ (Q' + 1) := by rw [pow_succ]; ring
    _ ≤ 2 ^ f.fracBits * 2 ^ (Q' + d + 1) :=
        Nat.mul_le_mul_left _ (Nat.pow_le_pow_right (by norm_num) (by omega))

/-! ## distance -/

theorem natDist_mul_right (a b c : Nat) : natDist (a * c) (b * c) = natDist a b * c := by
  unfold natDist
  rw [← Nat.sub_mul, ← Nat.sub_mul, Nat.add_mul]

theorem natDist_self (a : Nat) : natDist a a = 0 := by simp [natDist]

theorem natDist_eq_zero {a b : Nat} (h : natDist a b = 0) : a = b := by unfold natDist at h; omega

/-! ## roundShift -/

/-- roundShift answers the nearest multiple of 2^sh, and at a tie the even one. -/
theorem roundShift_nearest (sig sh k : Nat) :
    natDist (roundShift sig sh * 2 ^ sh) sig ≤ natDist (k * 2 ^ sh) sig ∧
    (natDist (roundShift sig sh * 2 ^ sh) sig = natDist (k * 2 ^ sh) sig →
      k = roundShift sig sh ∨ roundShift sig sh % 2 = 0) := by
  have hp : 0 < 2 ^ sh := Nat.two_pow_pos _
  have hdm := Nat.div_add_mod sig (2 ^ sh)
  have hlt := Nat.mod_lt sig hp
  unfold roundShift
  generalize 2 ^ sh = w at *
  generalize sig / w = q at *
  generalize sig % w = r at *
  subst hdm
  have hk : k < q ∨ k = q ∨ k = q + 1 ∨ q + 1 < k := by omega
  have e1 : (q + 1) * w = w * q + w := by ring
  have e0 : q * w = w * q := by ring
  have h1 : k < q → k * w + w ≤ w * q := fun h => by nlinarith
  have h2 : q + 1 < k → w * q + w + w ≤ k * w := fun h => by nlinarith
  have h3 : k = q → k * w = w * q := fun h => by rw [h]; ring
  have h4 : k = q + 1 → k * w = w * q + w := fun h => by rw [h]; ring
  generalize w * q = B at *
  generalize k * w = K at *
  unfold natDist
  dsimp only
  by_cases hc : w < 2 * r ∨ w = 2 * r ∧ q % 2 = 1
  · rw [if_pos hc, e1]
    rcases hk with h | h | h | h
    · have := h1 h; omega
    · have := h3 h; omega
    · have := h4 h; omega
    · have := h2 h; omega
  · rw [if_neg hc, e0]
    rcases hk with h | h | h | h
    · have := h1 h; omega
    · have := h3 h; omega
    · have := h4 h; omega
    · have := h2 h; omega

/-! ## roundMag -/

/-- A magnitude whose significand is nearest on its own grid is nearest among all magnitudes up to infinity. -/
theorem rounded_of_grid (f : Fmt) (hf : f.Ok) (Q n num den : Nat) (hQ : Q = 0 ∨ 2 ^ f.fracBits ≤ n)
    (hn : n ≤ 2 ^ (f.fracBits + 1)) (hden : 0 < den)
    (hnear : ∀ k, natDist (n * 2 ^ Q * den) num ≤ natDist (k * 2 ^ Q * den) num ∧
      (natDist (n * 2 ^ Q * den) num = natDist (k * 2 ^ Q * den) num → k = n ∨ n % 2 = 0))
    (hlow : Q = 0 ∨ 2 ^ f.fracBits * 2 ^ Q * den ≤ num) :
    RoundedTo f num den (min (Q * 2 ^ f.fracBits + n) (infMag f)) := by
  refine ⟨Nat.min_le_right _ _, fun v hv => ?_⟩
  rcases Nat.lt_or_ge (infMag f) (Q * 2 ^ f.fracBits + n) with hbig | hsmall
  · -- the exact value is at or above infinity's place
    rw [Nat.min_eq_right hbig.le]
    have hU : magUnits f (infMag f) * den ≤ num := by
      have h4 : 4 ≤ 2 ^ f.expBits := by
        calc 4 = 2 ^ 2 := rfl
          _ ≤ 2 ^ f.expBits := Nat.pow_le_pow_right (by norm_num) hf.exp
      have hQbig : 2 ^ f.expBits - 2 ≤ Q := by
        by_contra hcon
        have hle : Q + 2 ≤ 2 ^ f.expBits - 1 := by omega
        have h1 : (Q + 2) * 2 ^ f.fracBits ≤ (2 ^ f.expBits - 1) * 2 ^ f.fracBits := Nat.mul_le_mul_right _ hle
        have h2 : Q * 2 ^ f.fracBits + n ≤ (Q + 2) * 2 ^ f.fracBits := by
          rw [Nat.pow_succ] at hn
          rw [Nat.add_mul]; omega
        unfold infMag at hbig
        omega
      have hlow' : 2 ^ f.fracBits * 2 ^ Q * den ≤ num := by
        rcases hlow with h | h
        · omega
        · exact h
      rw [magUnits_infMag f hf]
      refine le_trans (Nat.mul_le_mul_right _ (Nat.mul_le_mul_left _ ?_)) hlow'
      exact Nat.pow_le_pow_right (by norm_num) hQbig
    have hvU : magUnits f v * den ≤ magUnits f (infMag f) * den :=
      Nat.mul_le_mul_right _ ((magUnits_strictMono f).monotone hv)
    refine ⟨by unfold natDist; omega, fun heq => .inl ?_⟩
    have : magUnits f v * den = magUnits f (infMag f) * den := by unfold natDist at heq; omega
    exact magUnits_injective f (Nat.eq_of_mul_eq_mul_right hden this)
  · rw [Nat.min_eq_left hsmall, magUnits_pack f Q n hQ hn]
    by_cases hdvd : 2 ^ Q ∣ magUnits f v
    · obtain ⟨k, hk⟩ := hdvd
      obtain ⟨h1, h2⟩ := hnear k
      rw [hk, Nat.mul_comm (2 ^ Q) k]
      refine ⟨h1, fun heq => ?_⟩
      rcases h2 heq with h | h
      · left
        apply magUnits_injective f
        rw [hk, magUnits_pack f Q n hQ hn, h]; ring
      · right
        have h2f : 2 ∣ 2 ^ f.fracBits := dvd_pow_self 2 (by have := hf.frac; omega)
        obtain ⟨c, hc⟩ := h2f
        rw [hc]
        have : Q * (2 * c) = 2 * (Q * c) := by ring
        omega
    · have hlt := magUnits_below_grid f Q v hdvd
      have hQ0 : Q ≠ 0 := fun h => hdvd (by subst h; simp)
      have hl : 2 ^ f.fracBits * 2 ^ Q * den ≤ num := by
        rcases hlow with h | h
        · exact absurd h hQ0
        · exact h
      obtain ⟨h1, -⟩ := hnear (2 ^ f.fracBits)
      have hlt' : magUnits f v * den < 2 ^ f.fracBits * 2 ^ Q * den := Nat.mul_lt_mul_of_pos_right hlt hden
      have hs : natDist (2 ^ f.fracBits * 2 ^ Q * den) num < natDist (magUnits f v * den) num := by
        unfold natDist; omega
      exact ⟨by omega, fun heq => by omega⟩

/-- The numerator of sig * 2^exp in units. -/
def unitsNum (f : Fmt) (sig : Nat) (exp : Int) : Nat := sig * 2 ^ (exp - minExp f).toNat

/-- The denominator of sig * 2^exp in units. -/
def unitsDen (f : Fmt) (exp : Int) : Nat := 2 ^ (minExp f - exp).toNat

theorem unitsDen_pos (f : Fmt) (exp : Int) : 0 < unitsDen f exp := Nat.two_pow_pos _

/-- What the exponent of the last place is: the least exponent, or the one that leaves fracBits + 1 bits. -/
theorem lastPlace_cases (f : Fmt) (sig : Nat) (exp : Int) :
    minExp f ≤ lastPlace f sig exp ∧
    exp + (Nat.log2 sig : Nat) - (f.fracBits : Nat) ≤ lastPlace f sig exp ∧
    (lastPlace f sig exp = minExp f ∨
      lastPlace f sig exp = exp + (Nat.log2 sig : Nat) - (f.fracBits : Nat)) := by
  unfold lastPlace; omega

/-- The magnitude bits of sig * 2^exp are that value rounded once, to nearest, ties to even (R120). -/
theorem roundMag_rounded (f : Fmt) (hf : f.Ok) (sig : Nat) (exp : Int) :
    RoundedTo f (unitsNum f sig exp) (unitsDen f exp) (roundMag f sig exp) := by
  unfold roundMag
  by_cases h0 : sig = 0
  · subst h0
    rw [if_pos rfl]
    refine ⟨Nat.zero_le _, fun v _ => ?_⟩
    simp [unitsNum, natDist_self]
  rw [if_neg h0]
  obtain ⟨hq1, hq2, hq3⟩ := lastPlace_cases f sig exp
  have hlog1 : 2 ^ Nat.log2 sig ≤ sig := Nat.log2_self_le h0
  have hlog2 : sig < 2 ^ (Nat.log2 sig + 1) := Nat.lt_log2_self
  generalize lastPlace f sig exp = q at *
  generalize Nat.log2 sig = L at *
  dsimp only
  by_cases hle : q ≤ exp
  · -- nothing is shifted out
    rw [if_pos hle]
    have hB : unitsDen f exp = 1 := by
      unfold unitsDen; rw [show (minExp f - exp).toNat = 0 by omega]; rfl
    have hnum : unitsNum f sig exp = sig * 2 ^ (exp - q).toNat * 2 ^ (q - minExp f).toNat := by
      unfold unitsNum
      rw [Nat.mul_assoc, ← Nat.pow_add, show (exp - q).toNat + (q - minExp f).toNat = (exp - minExp f).toNat by omega]
    rw [hB, hnum]
    apply rounded_of_grid f hf
    · by_cases hz : q = minExp f
      · left; omega
      · right
        have : f.fracBits = L + (exp - q).toNat := by omega
        rw [this, Nat.pow_add]
        exact Nat.mul_le_mul_right _ hlog1
    · have : L + 1 + (exp - q).toNat ≤ f.fracBits + 1 := by omega
      calc sig * 2 ^ (exp - q).toNat ≤ 2 ^ (L + 1) * 2 ^ (exp - q).toNat := Nat.mul_le_mul_right _ hlog2.le
        _ = 2 ^ (L + 1 + (exp - q).toNat) := by rw [← Nat.pow_add]
        _ ≤ _ := Nat.pow_le_pow_right (by norm_num) this
    · exact Nat.one_pos
    · intro k
      rw [Nat.mul_one, natDist_self]
      refine ⟨Nat.zero_le _, fun h => .inl ?_⟩
      have := natDist_eq_zero h.symm
      rw [Nat.mul_one] at this
      exact Nat.eq_of_mul_eq_mul_right (Nat.two_pow_pos _) this
    · by_cases hz : q = minExp f
      · left; omega
      · right
        have : f.fracBits = L + (exp - q).toNat := by omega
        rw [Nat.mul_one]
        apply Nat.mul_le_mul_right
        rw [this, Nat.pow_add]
        exact Nat.mul_le_mul_right _ hlog1
  · -- q - exp bits are shifted out
    rw [if_neg hle]
    obtain ⟨c, hc0, hcd, hcn⟩ : ∃ c, 0 < c ∧
        2 ^ (q - minExp f).toNat * unitsDen f exp = 2 ^ (q - exp).toNat * c ∧ unitsNum f sig exp = sig * c := by
      refine ⟨2 ^ (exp - minExp f).toNat, Nat.two_pow_pos _, ?_, rfl⟩
      unfold unitsDen
      rw [← Nat.pow_add, ← Nat.pow_add]
      congr 1
      omega
    have hgrid : ∀ k, k * 2 ^ (q - minExp f).toNat * unitsDen f exp = k * 2 ^ (q - exp).toNat * c := by
      intro k; rw [Nat.mul_assoc, hcd, Nat.mul_assoc]
    have hquo : roundShift sig (q - exp).toNat = sig / 2 ^ (q - exp).toNat ∨
        roundShift sig (q - exp).toNat = sig / 2 ^ (q - exp).toNat + 1 := by
      unfold roundShift; dsimp only; split <;> simp
    have hbig : q ≠ minExp f → 2 ^ f.fracBits * 2 ^ (q - exp).toNat ≤ sig := by
      intro hz
      have : L = f.fracBits + (q - exp).toNat := by omega
      rw [← Nat.pow_add, ← this]; exact hlog1
    apply rounded_of_grid f hf
    · by_cases hz : q = minExp f
      · left; omega
      · right
        have := (Nat.le_div_iff_mul_le (Nat.two_pow_pos (q - exp).toNat)).mpr (hbig hz)
        omega
    · have hlt : sig / 2 ^ (q - exp).toNat < 2 ^ (f.fracBits + 1) := by
        rw [Nat.div_lt_iff_lt_mul (Nat.two_pow_pos _), ← Nat.pow_add]
        exact lt_of_lt_of_le hlog2 (Nat.pow_le_pow_right (by norm_num) (by omega))
      omega
    · exact unitsDen_pos f exp
    · intro k
      rw [hgrid, hgrid, hcn, natDist_mul_right, natDist_mul_right]
      obtain ⟨h1, h2⟩ := roundShift_nearest sig (q - exp).toNat k
      exact ⟨Nat.mul_le_mul_right _ h1, fun h => h2 (Nat.eq_of_mul_eq_mul_right hc0 h)⟩
    · by_cases hz : q = minExp f
      · left; omega
      · right
        rw [hgrid, hcn]
        exact Nat.mul_le_mul_right _ (hbig hz)

theorem roundMag_le_infMag (f : Fmt) (sig : Nat) (exp : Int) : roundMag f sig exp ≤ infMag f := by
  unfold roundMag
  split
  · exact Nat.zero_le _
  · exact Nat.min_le_right _ _

/-! ## what follows for any rounding to nearest -/

/-- A representable magnitude is rounded to itself. -/
theorem RoundedTo.exact {f : Fmt} {v den m : Nat} (h : RoundedTo f (magUnits f v * den) den m)
    (hden : 0 < den) (hv : v ≤ infMag f) : m = v := by
  have h1 := (h.2 v hv).1
  rw [natDist_self] at h1
  have h2 := natDist_eq_zero (Nat.le_zero.mp h1)
  exact magUnits_injective f (Nat.eq_of_mul_eq_mul_right hden h2)

/-- Numerator and denominator can be multiplied by a common factor, or divided by it. -/
theorem roundedTo_scale {f : Fmt} {num den m c : Nat} (hc : 0 < c) :
    RoundedTo f (num * c) (den * c) m ↔ RoundedTo f num den m := by
  unfold RoundedTo
  simp only [← Nat.mul_assoc, natDist_mul_right, Nat.mul_le_mul_right_iff hc, Nat.mul_left_inj hc.ne']

/-- The same value written as another fraction is rounded the same way. -/
theorem RoundedTo.of_eq {f : Fmt} {n d m n' d' : Nat} (h : RoundedTo f n d m) (hd : 0 < d) (hd' : 0 < d')
    (heq : n * d' = n' * d) : RoundedTo f n' d' m := by
  rw [← roundedTo_scale hd, ← heq, Nat.mul_comm d' d, roundedTo_scale hd']
  exact h

/-- A larger value is rounded to no smaller magnitude. -/
theorem RoundedTo.mono {f : Fmt} {n d m n' d' m' : Nat} (h : RoundedTo f n d m) (h' : RoundedTo f n' d' m')
    (hd : 0 < d) (hd' : 0 < d') (hle : n * d' ≤ n' * d) : m ≤ m' := by
  by_contra hcon
  have hlt : m' < m := by omega
  have hU := magUnits_strictMono f hlt
  obtain ⟨a1, a2⟩ := h.2 m' h'.1
  obtain ⟨b1, b2⟩ := h'.2 m h.1
  have hX : magUnits f m' * d < magUnits f m * d := Nat.mul_lt_mul_of_pos_right hU hd
  have hX' : magUnits f m' * d' < magUnits f m * d' := Nat.mul_lt_mul_of_pos_right hU hd'
  have ha : magUnits f m * d + magUnits f m' * d ≤ 2 * n := by unfold natDist at a1; omega
  have hb : 2 * n' ≤ magUnits f m * d' + magUnits f m' * d' := by unfold natDist at b1; omega
  have hab : (magUnits f m * d + magUnits f m' * d) * d' = (magUnits f m * d' + magUnits f m' * d') * d := by ring
  have ha' : (magUnits f m * d + magUnits f m' * d) * d' ≤ 2 * n * d' := Nat.mul_le_mul_right _ ha
  have hb' : 2 * n' * d ≤ (magUnits f m * d' + magUnits f m' * d') * d := Nat.mul_le_mul_right _ hb
  have hmid : 2 * n * d' ≤ 2 * n' * d := by rw [Nat.mul_assoc, Nat.mul_assoc]; exact Nat.mul_le_mul_left _ hle
  have htie : 2 * n = magUnits f m * d + magUnits f m' * d :=
    Nat.eq_of_mul_eq_mul_right hd' (by omega)
  have htie' : 2 * n' = magUnits f m * d' + magUnits f m' * d' :=
    Nat.eq_of_mul_eq_mul_right hd (by omega)
  have hm : m % 2 = 0 := by
    rcases a2 (by unfold natDist; omega) with h | h <;> omega
  have hm' : m' % 2 = 0 := by
    rcases b2 (by unfold natDist; omega) with h | h <;> omega
  obtain ⟨c1, -⟩ := h.2 (m' + 1) (by have := h.1; omega)
  have hz1 := Nat.mul_lt_mul_of_pos_right (magUnits_strictMono f (show m' < m' + 1 by omega)) hd
  have hz2 := Nat.mul_lt_mul_of_pos_right (magUnits_strictMono f (show m' + 1 < m by omega)) hd
  unfold natDist at c1
  omega

/-- The nearest magnitude is unique. -/
theorem RoundedTo.unique {f : Fmt} {n d m m' : Nat} (h : RoundedTo f n d m) (h' : RoundedTo f n d m') (hd : 0 < d) :
    m = m' :=
  Nat.le_antisymm (h.mono h' hd hd le_rfl) (h'.mono h hd hd le_rfl)

/-- roundMag is what any rounding to nearest of the same value gives. -/
theorem roundMag_eq_of_rounded (f : Fmt) (hf : f.Ok) {sig : Nat} {exp : Int} {n d m : Nat} (hd : 0 < d)
    (heq : unitsNum f sig exp * d = n * unitsDen f exp) (h : RoundedTo f n d m) : roundMag f sig exp = m :=
  ((roundMag_rounded f hf sig exp).of_eq (unitsDen_pos f exp) hd heq).unique h hd

/-- A value that is v units is rounded to v's own magnitude bits. -/
theorem roundMag_exact (f : Fmt) (hf : f.Ok) {sig : Nat} {exp : Int} {v : Nat} (hv : v ≤ infMag f)
    (heq : unitsNum f sig exp = magUnits f v * unitsDen f exp) : roundMag f sig exp = v := by
  have h := roundMag_rounded f hf sig exp
  rw [heq] at h
  exact h.exact (unitsDen_pos f exp) hv

end Sys2Proof.Machine
end

