-- ==== Sys2Proof/Laws/Float.lean ====
section
/-! SUPPORT. Patterns and the numbers they stand for: the sign and magnitude of an assembled pattern, the value of
a finite pattern in units of the least subnormal, the order of patterns, and what the operations answer on finite
patterns, on infinities and on NaNs. -/

namespace Sys2Proof.Machine

variable {f : Fmt}

/-! ## sizes -/

theorem two_pow_expBits (hf : f.Ok) : 4 ≤ 2 ^ f.expBits := by
  calc 4 = 2 ^ 2 := rfl
    _ ≤ 2 ^ f.expBits := Nat.pow_le_pow_right (by norm_num) hf.exp

theorem infMag_lt_signWeight (f : Fmt) : infMag f < signWeight f := by
  unfold infMag signWeight
  rw [Nat.pow_add, Nat.mul_comm]
  exact Nat.mul_lt_mul_of_pos_left (Nat.sub_lt (Nat.two_pow_pos _) Nat.one_pos) (Nat.two_pow_pos _)

theorem infMag_pos (hf : f.Ok) : 0 < infMag f := by
  unfold infMag
  have := two_pow_expBits hf
  exact Nat.mul_pos (by omega) (Nat.two_pow_pos _)

theorem infMag_even (hf : f.Ok) : infMag f % 2 = 0 := by
  have h2 : 2 ∣ 2 ^ f.fracBits := dvd_pow_self 2 (by have := hf.frac; omega)
  exact Nat.mod_eq_zero_of_dvd (Dvd.dvd.mul_left h2 _)

theorem minExp_neg (hf : f.Ok) : minExp f < 0 := by
  unfold minExp
  have h1 := hf.frac
  have h2 : 2 ≤ 2 ^ (f.expBits - 1) := by
    calc 2 = 2 ^ 1 := rfl
      _ ≤ _ := Nat.pow_le_pow_right (by norm_num) (by have := hf.exp; omega)
  omega

/-! ## assembled patterns -/

theorem assemble_lt {neg : Bool} {mag : Nat} (h : mag < signWeight f) : assemble f neg mag < 2 * signWeight f := by
  unfold assemble; split <;> omega

@[simp] theorem magOf_assemble {neg : Bool} {mag : Nat} (h : mag < signWeight f) :
    magOf f (assemble f neg mag) = mag := by
  unfold magOf assemble
  split
  · rw [Nat.add_mod_left]; exact Nat.mod_eq_of_lt h
  · rw [Nat.zero_add]; exact Nat.mod_eq_of_lt h

@[simp] theorem negOf_assemble {neg : Bool} {mag : Nat} (h : mag < signWeight f) :
    negOf f (assemble f neg mag) = neg := by
  unfold negOf assemble
  cases neg
  · simpa using h
  · simp

theorem magOf_lt (f : Fmt) (x : Nat) : magOf f x < signWeight f := Nat.mod_lt _ (Nat.two_pow_pos _)

/-- A pattern is assembled from its sign and magnitude. -/
theorem assemble_of (f : Fmt) {x : Nat} (hx : x < 2 * signWeight f) : assemble f (negOf f x) (magOf f x) = x := by
  unfold assemble negOf magOf
  by_cases h : signWeight f ≤ x
  · simp only [h, decide_true, if_true]
    rw [Nat.mod_eq_sub_mod h, Nat.mod_eq_of_lt (by omega)]; omega
  · simp only [h, decide_false, Bool.false_eq_true, if_false, Nat.zero_add]
    exact Nat.mod_eq_of_lt (by omega)

theorem flipSign_lt {x : Nat} (hx : x < 2 * signWeight f) : flipSign f x < 2 * signWeight f := by
  unfold flipSign negOf
  split <;> rename_i h <;> simp at h <;> omega

@[simp] theorem magOf_flipSign (x : Nat) : magOf f (flipSign f x) = magOf f x := by
  unfold flipSign negOf magOf
  split <;> rename_i h <;> simp at h
  · exact (Nat.mod_eq_sub_mod h).symm
  · exact Nat.add_mod_right _ _

@[simp] theorem negOf_flipSign {x : Nat} (hx : x < 2 * signWeight f) : negOf f (flipSign f x) = !negOf f x := by
  unfold flipSign negOf
  by_cases h : signWeight f ≤ x
  · have h2 : ¬ signWeight f ≤ x - signWeight f := by omega
    simp [h, h2]
  · simp [h]

/-! ## kinds of pattern -/

theorem isNaNPattern_iff {x : Nat} : isNaNPattern f x = true ↔ infMag f < magOf f x := by simp [isNaNPattern]

theorem isFinitePattern_iff {x : Nat} : isFinitePattern f x = true ↔ magOf f x < infMag f := by
  simp [isFinitePattern]

theorem valueOf_nan {x : Nat} (h : isNaNPattern f x = true) : valueOf f x = .nan := by
  rw [isNaNPattern_iff] at h
  simp [valueOf, h]

theorem valueOf_inf {x : Nat} (h : magOf f x = infMag f) : valueOf f x = .inf (negOf f x) := by
  simp [valueOf, h]

/-- A finite pattern stands for a number; in units of the least subnormal its magnitude is `magUnits`. -/
theorem valueOf_finite {x : Nat} (h : isFinitePattern f x = true) :
    ∃ sig exp, valueOf f x = .num (negOf f x) sig exp ∧ minExp f ≤ exp ∧
      sig * 2 ^ (exp - minExp f).toNat = magUnits f (magOf f x) ∧ sig < 2 ^ (f.fracBits + 1) := by
  rw [isFinitePattern_iff] at h
  have h1 : ¬ infMag f < magOf f x := by omega
  have h2 : magOf f x ≠ infMag f := by omega
  by_cases h3 : magOf f x < 2 ^ f.fracBits
  · refine ⟨magOf f x, minExp f, ?_, le_rfl, ?_, ?_⟩
    · simp [valueOf, h1, h2, h3]
    · simp [magUnits, Nat.div_eq_of_lt h3]
    · rw [Nat.pow_succ]; omega
  · refine ⟨2 ^ f.fracBits + magOf f x % 2 ^ f.fracBits,
      minExp f + ((magOf f x / 2 ^ f.fracBits - 1 : Nat) : Int), ?_, by omega, ?_, ?_⟩
    · simp [valueOf, h1, h2, h3]
    · have : magOf f x / 2 ^ f.fracBits ≠ 0 := by
        have := Nat.div_pos (Nat.le_of_not_lt h3) (Nat.two_pow_pos f.fracBits); omega
      rw [magUnits, if_neg this]
      congr 2
      omega
    · have := Nat.mod_lt (magOf f x) (Nat.two_pow_pos f.fracBits)
      rw [Nat.pow_succ]; omega

/-- The kinds are exhaustive: a pattern is a NaN, an infinity or finite. -/
theorem pattern_cases (f : Fmt) (x : Nat) :
    isNaNPattern f x = true ∨ magOf f x = infMag f ∨ isFinitePattern f x = true := by
  rw [isNaNPattern_iff, isFinitePattern_iff]; omega

theorem valueOf_eq_nan {x : Nat} (h : valueOf f x = .nan) : isNaNPattern f x = true := by
  rcases pattern_cases f x with hx | hx | hx
  · exact hx
  · rw [valueOf_inf hx] at h; cases h
  · obtain ⟨_, _, hv, _⟩ := valueOf_finite hx; rw [hv] at h; cases h

/-- The significand is 0 exactly for a zero. -/
theorem sig_eq_zero {x sig : Nat} {exp : Int} (hs : sig * 2 ^ (exp - minExp f).toNat = magUnits f (magOf f x)) :
    sig = 0 ↔ magOf f x = 0 := by
  have hp : 0 < 2 ^ (exp - minExp f).toNat := Nat.two_pow_pos _
  constructor
  · intro h
    rw [h, Nat.zero_mul] at hs
    exact magUnits_injective f (by rw [← hs, magUnits_zero])
  · intro h
    rw [h, magUnits_zero] at hs
    rcases Nat.mul_eq_zero.mp hs with h | h
    · exact h
    · omega

/-! ## the order -/

/-- Units compare as the places in the order do. -/
theorem unitsOf_lt_iff (f : Fmt) (x y : Nat) : unitsOf f x < unitsOf f y ↔ orderKey f x < orderKey f y := by
  have hx := magUnits_strictMono f
  have h0 := magUnits_zero f
  have key : ∀ a b : Nat, magUnits f a < magUnits f b ↔ a < b := fun a b => hx.lt_iff_lt
  have hpos : ∀ a : Nat, 0 < magUnits f a ↔ 0 < a := fun a => by
    have := key 0 a; rwa [h0] at this
  unfold unitsOf orderKey signed
  have k1 := key (magOf f x) (magOf f y)
  have k2 := key (magOf f y) (magOf f x)
  have p1 := hpos (magOf f x)
  have p2 := hpos (magOf f y)
  cases negOf f x <;> cases negOf f y <;> simp <;> omega

theorem unitsOf_le_iff (f : Fmt) (x y : Nat) : unitsOf f x ≤ unitsOf f y ↔ orderKey f x ≤ orderKey f y := by
  have := unitsOf_lt_iff f y x
  omega

theorem lePattern_iff {x y : Nat} :
    lePattern f x y = true ↔ isNaNPattern f x = false ∧ isNaNPattern f y = false ∧ unitsOf f x ≤ unitsOf f y := by
  rw [unitsOf_le_iff]; simp [lePattern, and_assoc]

theorem ltPattern_iff {x y : Nat} :
    ltPattern f x y = true ↔ isNaNPattern f x = false ∧ isNaNPattern f y = false ∧ unitsOf f x < unitsOf f y := by
  rw [unitsOf_lt_iff]; simp [ltPattern, and_assoc]

/-! ## the operations on finite patterns -/

theorem roundMag_lt_signWeight (f : Fmt) (sig : Nat) (exp : Int) : roundMag f sig exp < signWeight f :=
  lt_of_le_of_lt (roundMag_le_infMag f sig exp) (infMag_lt_signWeight f)

theorem signed_mul (neg : Bool) (n c : Nat) : signed neg (n * c) = signed neg n * (c : Int) := by
  unfold signed; split <;> push_cast <;> ring

theorem signed_natAbs (neg : Bool) (n : Nat) : (signed neg n).natAbs = n := by
  unfold signed; split <;> simp

/-- A number written on a finer exponent. -/
theorem sig_rescale {sig : Nat} {exp lo : Int} (h1 : minExp f ≤ lo) (h2 : lo ≤ exp) :
    sig * 2 ^ (exp - lo).toNat * 2 ^ (lo - minExp f).toNat = sig * 2 ^ (exp - minExp f).toNat := by
  rw [Nat.mul_assoc, ← Nat.pow_add, show (exp - lo).toNat + (lo - minExp f).toNat = (exp - minExp f).toNat by omega]

/-- The sum of two finite patterns is the exact sum rounded once (R120); an exact zero sum is -0.0 only when both
addends are negative (R124). -/
theorem addPattern_finite (hf : f.Ok) (nan : Nat) {x y : Nat} (hx : isFinitePattern f x = true)
    (hy : isFinitePattern f y = true) :
    ∃ mag neg, addPattern f nan x y = assemble f neg mag ∧
      RoundedTo f (unitsOf f x + unitsOf f y).natAbs 1 mag ∧
      (unitsOf f x + unitsOf f y ≠ 0 → neg = decide (unitsOf f x + unitsOf f y < 0)) ∧
      (unitsOf f x + unitsOf f y = 0 → neg = (negOf f x && negOf f y)) := by
  obtain ⟨m, e, hvx, he, hmx, -⟩ := valueOf_finite hx
  obtain ⟨n, g, hvy, hg, hny, -⟩ := valueOf_finite hy
  have hlo : minExp f ≤ min e g := le_min he hg
  have hz : unitsOf f x + unitsOf f y =
      (signed (negOf f x) (m * 2 ^ (e - min e g).toNat) + signed (negOf f y) (n * 2 ^ (g - min e g).toNat)) *
        ((2 ^ (min e g - minExp f).toNat : Nat) : Int) := by
    rw [Int.add_mul, ← signed_mul, ← signed_mul, sig_rescale hlo (min_le_left _ _), sig_rescale hlo (min_le_right _ _),
      hmx, hny]
    rfl
  have hc : 0 < 2 ^ (min e g - minExp f).toNat := Nat.two_pow_pos _
  unfold addPattern
  rw [hvx, hvy]
  dsimp only
  rw [hz]
  generalize signed (negOf f x) (m * 2 ^ (e - min e g).toNat) + signed (negOf f y) (n * 2 ^ (g - min e g).toNat) = s
  by_cases hs : s = 0
  · subst hs
    refine ⟨0, _, if_pos rfl, ?_, fun h => absurd (Int.zero_mul _) h, fun _ => rfl⟩
    have := roundMag_rounded f hf 0 (minExp f)
    simpa [roundMag, unitsNum, unitsDen] using this
  · have hci : (0 : Int) < ((2 ^ (min e g - minExp f).toNat : Nat) : Int) := by exact_mod_cast hc
    refine ⟨_, _, if_neg hs, ?_, fun _ => ?_, fun h => ?_⟩
    · have := roundMag_rounded f hf s.natAbs (min e g)
      unfold unitsNum unitsDen at this
      rw [show (minExp f - min e g).toNat = 0 by omega, Nat.pow_zero] at this
      rwa [Int.natAbs_mul, Int.natAbs_natCast]
    · by_cases hneg : s < 0
      · have := Int.mul_neg_of_neg_of_pos hneg hci
        simp only [hneg, this]
      · have := Int.mul_nonneg (Int.not_lt.mp hneg) hci.le
        have h2 : ¬ s * ((2 ^ (min e g - minExp f).toNat : Nat) : Int) < 0 := by omega
        simp only [hneg, h2]
    · rcases Int.mul_eq_zero.mp h with h | h
      · exact absurd h hs
      · omega

theorem isFinitePattern_flipSign (x : Nat) :
    isFinitePattern f (flipSign f x) = isFinitePattern f x := by
  unfold isFinitePattern; rw [magOf_flipSign]

theorem isNaNPattern_flipSign (x : Nat) :
    isNaNPattern f (flipSign f x) = isNaNPattern f x := by
  unfold isNaNPattern; rw [magOf_flipSign]

theorem unitsOf_flipSign {x : Nat} (hx : x < 2 * signWeight f) : unitsOf f (flipSign f x) = -unitsOf f x := by
  unfold unitsOf signed
  rw [magOf_flipSign, negOf_flipSign hx]
  cases negOf f x <;> simp

/-- The difference of two finite patterns is the exact difference rounded once (R120); an exact zero difference is
-0.0 only for -0.0 minus +0.0 (R124). -/
theorem subPattern_finite (hf : f.Ok) (nan : Nat) {x y : Nat} (hyl : y < 2 * signWeight f)
    (hx : isFinitePattern f x = true) (hy : isFinitePattern f y = true) :
    ∃ mag neg, subPattern f nan x y = assemble f neg mag ∧
      RoundedTo f (unitsOf f x - unitsOf f y).natAbs 1 mag ∧
      (unitsOf f x - unitsOf f y ≠ 0 → neg = decide (unitsOf f x - unitsOf f y < 0)) ∧
      (unitsOf f x - unitsOf f y = 0 → neg = (negOf f x && !negOf f y)) := by
  have := addPattern_finite hf nan hx ((isFinitePattern_flipSign y).trans hy)
  rw [unitsOf_flipSign hyl, negOf_flipSign hyl] at this
  exact this

/-- The product of two finite patterns is the exact product rounded once; its sign is the exclusive-or of the
signs (R120, R124). -/
theorem mulPattern_finite (hf : f.Ok) (nan : Nat) {x y : Nat} (hx : isFinitePattern f x = true)
    (hy : isFinitePattern f y = true) :
    ∃ mag, mulPattern f nan x y = assemble f (negOf f x != negOf f y) mag ∧
      RoundedTo f (magUnits f (magOf f x) * magUnits f (magOf f y)) (oneUnits f) mag := by
  obtain ⟨m, e, hvx, he, hmx, -⟩ := valueOf_finite hx
  obtain ⟨n, g, hvy, hg, hny, -⟩ := valueOf_finite hy
  unfold mulPattern
  rw [hvx, hvy]
  refine ⟨_, rfl, (roundMag_rounded f hf (m * n) (e + g)).of_eq (unitsDen_pos f _) (Nat.two_pow_pos _) ?_⟩
  rw [← hmx, ← hny]
  unfold unitsNum unitsDen oneUnits
  have hneg := minExp_neg hf
  calc m * n * 2 ^ (e + g - minExp f).toNat * 2 ^ (-(minExp f)).toNat
      = m * n * 2 ^ ((e + g - minExp f).toNat + (-(minExp f)).toNat) := by rw [Nat.pow_add]; ring
    _ = m * n * 2 ^ ((e - minExp f).toNat + (g - minExp f).toNat + (minExp f - (e + g)).toNat) := by
        congr 2; omega
    _ = _ := by rw [Nat.pow_add, Nat.pow_add]; ring

end Sys2Proof.Machine
end

