-- ==== Sys2Proof/Laws/Convert.lean ====
section
/-! SUPPORT. Exact operations: floor, conversion to an integer, from a natural number and between formats
(40_numerics.md R126, R127); which magnitudes are representable. -/

namespace Sys2Proof.Machine

variable {f : Fmt}

/-! ## representable magnitudes -/

/-- A significand of at most fracBits + 1 bits at any exponent step is representable, overflow apart. -/
theorem exists_mag (f : Fmt) (n Q : Nat) (hn : n < 2 ^ (f.fracBits + 1)) : ∃ v, magUnits f v = n * 2 ^ Q := by
  induction Q generalizing n with
  | zero => exact ⟨n, by simpa using magUnits_pack f 0 n (.inl rfl) hn.le⟩
  | succ Q ih =>
    rcases Nat.lt_or_ge n (2 ^ f.fracBits) with h | h
    · obtain ⟨v, hv⟩ := ih (2 * n) (by rw [Nat.pow_succ]; omega)
      exact ⟨v, by rw [hv, Nat.pow_succ]; ring⟩
    · exact ⟨_, magUnits_pack f (Q + 1) n (.inr h) hn.le⟩

/-- Infinity's units are at least this power of two. -/
theorem magUnits_infMag_eq (f : Fmt) (hf : f.Ok) :
    magUnits f (infMag f) = 2 ^ (f.fracBits + (2 ^ f.expBits - 2)) := by
  rw [magUnits_infMag f hf, Nat.pow_add]

theorem mag_lt_infMag (hf : f.Ok) {v : Nat} (h : magUnits f v < 2 ^ (f.fracBits + (2 ^ f.expBits - 2))) :
    v < infMag f := by
  rw [← magUnits_infMag_eq f hf] at h
  exact (magUnits_strictMono f).lt_iff_lt.mp h

/-- An integer of at most fracBits + 1 bits is rounded to itself, a finite magnitude. -/
theorem roundMag_integer (hf : f.Ok) {n : Nat} (hn : n < 2 ^ (f.fracBits + 1)) :
    magUnits f (roundMag f n 0) = n * oneUnits f ∧ roundMag f n 0 < infMag f := by
  obtain ⟨v, hv⟩ := exists_mag f n (-(minExp f)).toNat hn
  have hlt : v < infMag f := by
    apply mag_lt_infMag hf
    rw [hv]
    have h4 := two_pow_expBits hf
    have hr := hf.range
    have h2 : 2 ^ f.expBits = 2 * 2 ^ (f.expBits - 1) := by
      rw [← Nat.pow_succ']; congr 1; have := hf.exp; omega
    have hm : (-(minExp f)).toNat = 2 ^ (f.expBits - 1) + f.fracBits - 2 := by unfold minExp; omega
    calc n * 2 ^ (-(minExp f)).toNat < 2 ^ (f.fracBits + 1) * 2 ^ (-(minExp f)).toNat :=
          Nat.mul_lt_mul_of_pos_right hn (Nat.two_pow_pos _)
      _ = 2 ^ (f.fracBits + 1 + (-(minExp f)).toNat) := by rw [← Nat.pow_add]
      _ ≤ _ := Nat.pow_le_pow_right (by norm_num) (by omega)
  have he : roundMag f n 0 = v := by
    apply roundMag_exact f hf hlt.le
    have hneg := minExp_neg hf
    rw [hv]
    unfold unitsNum unitsDen
    rw [show (0 - minExp f) = -(minExp f) by omega, show (minExp f - 0).toNat = 0 by omega, Nat.pow_zero, Nat.mul_one]
  rw [he]
  exact ⟨hv, hlt⟩

/-! ## floor -/

theorem oneUnits_pos (f : Fmt) : 0 < oneUnits f := Nat.two_pow_pos _

/-- The units of a finite pattern whose exponent is negative, against its significand. -/
theorem units_negExp {sig : Nat} {exp : Int} (he : minExp f ≤ exp) (h : exp < 0) :
    sig * 2 ^ (exp - minExp f).toNat = sig * 2 ^ (exp - minExp f).toNat ∧
      oneUnits f = 2 ^ (exp - minExp f).toNat * 2 ^ (-exp).toNat := by
  refine ⟨rfl, ?_⟩
  unfold oneUnits
  rw [← Nat.pow_add]
  congr 1
  omega

/-- floor of a finite pattern (R126): a finite pattern of the same sign, the greatest multiple of one not above. -/
theorem floorPattern_finite (hf : f.Ok) (nan : Nat) {x : Nat} (hxl : x < 2 * signWeight f)
    (hx : isFinitePattern f x = true) :
    ∃ mag, floorPattern f nan x = assemble f (negOf f x) mag ∧ mag < infMag f ∧
      signed (negOf f x) (magUnits f mag) = unitsOf f x / (oneUnits f : Int) * (oneUnits f : Int) := by
  obtain ⟨m, e, hv, he, hm, hlt⟩ := valueOf_finite hx
  have hone : (0 : Int) < (oneUnits f : Int) := by exact_mod_cast oneUnits_pos f
  unfold floorPattern
  rw [hv]
  dsimp only
  by_cases h0 : 0 ≤ e
  · rw [if_pos h0]
    refine ⟨magOf f x, (assemble_of f hxl).symm, isFinitePattern_iff.mp hx, ?_⟩
    have hneg := minExp_neg hf
    have hmul : magUnits f (magOf f x) = m * 2 ^ e.toNat * oneUnits f := by
      rw [← hm]; unfold oneUnits
      rw [Nat.mul_assoc, ← Nat.pow_add]; congr 2; omega
    unfold unitsOf
    rw [hmul, signed_mul, Int.mul_ediv_cancel _ (by omega)]
  · rw [if_neg h0]
    have hu : 0 < 2 ^ (-e).toNat := Nat.two_pow_pos _
    have hu2 : 2 ≤ 2 ^ (-e).toNat := by
      calc 2 = 2 ^ 1 := rfl
        _ ≤ _ := Nat.pow_le_pow_right (by norm_num) (by omega)
    have hU : unitsOf f x = signed (negOf f x) m * ((2 ^ (e - minExp f).toNat : Nat) : Int) := by
      unfold unitsOf; rw [← hm, signed_mul]
    have hO : (oneUnits f : Int) = ((2 ^ (-e).toNat : Nat) : Int) * ((2 ^ (e - minExp f).toNat : Nat) : Int) := by
      have := (units_negExp (sig := m) he (by omega)).2
      rw [this]; push_cast; ring
    have hdiv : unitsOf f x / (oneUnits f : Int) = signed (negOf f x) m / ((2 ^ (-e).toNat : Nat) : Int) := by
      rw [hU, hO]
      exact Int.mul_ediv_mul_of_pos_left _ _ (by exact_mod_cast Nat.two_pow_pos _)
    rw [hdiv]
    clear hU hO hdiv
    have hpow : 2 ^ (f.fracBits + 1) = 2 * 2 ^ f.fracBits := Nat.pow_succ'
    generalize 2 ^ (-e).toNat = u at *
    have hsmall : ∀ n, n * u ≤ m + (u - 1) → n < 2 ^ (f.fracBits + 1) := by
      intro n hn
      rcases Nat.lt_or_ge n (2 ^ (f.fracBits + 1)) with h | h
      · exact h
      · exfalso
        have h1 : 2 ^ (f.fracBits + 1) * u ≤ n * u := Nat.mul_le_mul_right _ h
        have hW : 0 < 2 ^ (f.fracBits + 1) := Nat.two_pow_pos _
        generalize 2 ^ (f.fracBits + 1) = W at *
        obtain ⟨v, rfl⟩ := Nat.exists_eq_add_of_le hu
        have h2 : v ≤ W * v := Nat.le_mul_of_pos_left v hW
        rw [Nat.mul_add, Nat.mul_one] at h1
        omega
    cases hn : negOf f x
    · obtain ⟨h1, h2⟩ := roundMag_integer hf (hsmall (m / u) (by have := Nat.div_mul_le_self m u; omega))
      refine ⟨_, by simp, h2, ?_⟩
      rw [h1]; simp [signed]
    · obtain ⟨h1, h2⟩ := roundMag_integer hf
        (hsmall ((m + (u - 1)) / u) (Nat.div_mul_le_self (m + (u - 1)) u))
      refine ⟨_, by simp, h2, ?_⟩
      rw [h1]
      unfold signed
      simp only [if_true]
      push_cast
      rw [← Int.neg_mul]
      congr 1
      have hu' : (0 : Int) < (u : Int) := by exact_mod_cast hu
      rw [eq_comm, Int.ediv_eq_iff_of_pos hu']
      have hdm := Nat.div_add_mod (m + (u - 1)) u
      have hl := Nat.mod_lt (m + (u - 1)) hu
      have hz : (m : Int) + ((u - 1 : Nat) : Int) = ((m + (u - 1) : Nat) : Int) := by push_cast; rfl
      rw [hz, ← Int.natCast_div]
      generalize (m + (u - 1)) / u = n at *
      have h3 : n * u = u * n := Nat.mul_comm n u
      have h4 : -(n : Int) * (u : Int) = -((u * n : Nat) : Int) := by push_cast; ring
      rw [h4]
      omega

/-! ## conversions -/

/-- toInt of a finite pattern: its magnitude in whole ones, signed (R127 applies it to integral values). -/
theorem intOfPattern_finite (hf : f.Ok) {x : Nat} (hx : isFinitePattern f x = true) :
    intOfPattern f x = signed (negOf f x) (magUnits f (magOf f x) / oneUnits f) := by
  obtain ⟨m, e, hv, he, hm, -⟩ := valueOf_finite hx
  unfold intOfPattern
  rw [hv]
  dsimp only
  congr 1
  rw [← hm]
  by_cases h0 : 0 ≤ e
  · rw [if_pos h0]
    have hneg := minExp_neg hf
    have : 2 ^ (e - minExp f).toNat = 2 ^ e.toNat * oneUnits f := by
      unfold oneUnits; rw [← Nat.pow_add]; congr 1; omega
    rw [this, ← Nat.mul_assoc, Nat.mul_div_cancel _ (oneUnits_pos f)]
  · rw [if_neg h0]
    have := (units_negExp (sig := m) he (by omega)).2
    rw [this, Nat.mul_comm m, Nat.mul_div_mul_left _ _ (Nat.two_pow_pos _)]

/-- toInt of an integral pattern is the integer it stands for. -/
theorem intOfPattern_integral (hf : f.Ok) {x : Nat} (hx : isFinitePattern f x = true) {n : Int}
    (hn : unitsOf f x = n * (oneUnits f : Int)) : intOfPattern f x = n := by
  rw [intOfPattern_finite hf hx]
  have hpos := oneUnits_pos f
  have hne : (oneUnits f : Int) ≠ 0 := by exact_mod_cast hpos.ne'
  have habs := congrArg Int.natAbs hn
  unfold unitsOf at hn habs
  rw [signed_natAbs, Int.natAbs_mul, Int.natAbs_natCast] at habs
  rw [habs, signed_mul] at hn
  rw [habs, Nat.mul_div_cancel _ hpos]
  exact Int.eq_of_mul_eq_mul_right hne hn

/-- A conversion of a finite pattern is the number it stands for rounded once in the target format (R127). -/
theorem convertPattern_finite {g : Fmt} (hg : g.Ok) (nan : Nat) {x : Nat} (hx : isFinitePattern f x = true) :
    ∃ mag, convertPattern f g nan x = assemble g (negOf f x) mag ∧
      RoundedTo g (magUnits f (magOf f x) * 2 ^ (minExp f - minExp g).toNat) (2 ^ (minExp g - minExp f).toNat) mag := by
  obtain ⟨m, e, hv, he, hm, -⟩ := valueOf_finite hx
  unfold convertPattern
  rw [hv]
  refine ⟨_, rfl, (roundMag_rounded g hg m e).of_eq (unitsDen_pos g e) (Nat.two_pow_pos _) ?_⟩
  rw [← hm]
  unfold unitsNum unitsDen
  rw [Nat.mul_assoc, Nat.mul_assoc, Nat.mul_assoc, ← Nat.pow_add, ← Nat.pow_add, ← Nat.pow_add]
  congr 2
  omega

/-! ## what is no number -/

theorem addPattern_nan (nan : Nat) {x y : Nat} (h : isNaNPattern f x = true ∨ isNaNPattern f y = true) :
    addPattern f nan x y = nan := by
  unfold addPattern
  rcases h with h | h
  · rw [valueOf_nan h]
  · rw [valueOf_nan h]; cases valueOf f x <;> rfl

theorem mulPattern_nan (nan : Nat) {x y : Nat} (h : isNaNPattern f x = true ∨ isNaNPattern f y = true) :
    mulPattern f nan x y = nan := by
  unfold mulPattern
  rcases h with h | h
  · rw [valueOf_nan h]
  · rw [valueOf_nan h]; cases valueOf f x <;> rfl

theorem divPattern_nan (nan : Nat) {x y : Nat} (h : isNaNPattern f x = true ∨ isNaNPattern f y = true) :
    divPattern f nan x y = nan := by
  unfold divPattern
  rcases h with h | h
  · rw [valueOf_nan h]
  · rw [valueOf_nan h]; cases valueOf f x <;> rfl

theorem subPattern_nan (nan : Nat) {x y : Nat} (h : isNaNPattern f x = true ∨ isNaNPattern f y = true) :
    subPattern f nan x y = nan :=
  addPattern_nan nan (by rwa [isNaNPattern_flipSign])

theorem floorPattern_nan (nan : Nat) {x : Nat} (h : isNaNPattern f x = true) : floorPattern f nan x = nan := by
  unfold floorPattern; rw [valueOf_nan h]

theorem floorPattern_inf (nan : Nat) {x : Nat} (h : magOf f x = infMag f) : floorPattern f nan x = x := by
  unfold floorPattern; rw [valueOf_inf h]

theorem convertPattern_nan {g : Fmt} (nan : Nat) {x : Nat} (h : isNaNPattern f x = true) :
    convertPattern f g nan x = nan := by
  unfold convertPattern; rw [valueOf_nan h]

theorem convertPattern_inf {g : Fmt} (nan : Nat) {x : Nat} (h : magOf f x = infMag f) :
    convertPattern f g nan x = assemble g (negOf f x) (infMag g) := by
  unfold convertPattern; rw [valueOf_inf h]

/-- An infinity plus an infinity: the infinity, or, with opposite signs, a NaN (R123). -/
theorem addPattern_inf_inf (nan : Nat) {x y : Nat} (hx : magOf f x = infMag f) (hy : magOf f y = infMag f) :
    addPattern f nan x y = if negOf f x = negOf f y then assemble f (negOf f x) (infMag f) else nan := by
  unfold addPattern; rw [valueOf_inf hx, valueOf_inf hy]

theorem addPattern_inf_finite (nan : Nat) {x y : Nat} (hx : magOf f x = infMag f) (hy : isFinitePattern f y = true) :
    addPattern f nan x y = assemble f (negOf f x) (infMag f) := by
  obtain ⟨_, _, hv, -⟩ := valueOf_finite hy
  unfold addPattern; rw [valueOf_inf hx, hv]

theorem addPattern_finite_inf (nan : Nat) {x y : Nat} (hx : isFinitePattern f x = true) (hy : magOf f y = infMag f) :
    addPattern f nan x y = assemble f (negOf f y) (infMag f) := by
  obtain ⟨_, _, hv, -⟩ := valueOf_finite hx
  unfold addPattern; rw [valueOf_inf hy, hv]

/-- An infinity times a finite factor that is not a zero is an infinity; times a zero it is a NaN (R123). -/
theorem mulPattern_inf_finite (nan : Nat) {x y : Nat} (hx : magOf f x = infMag f) (hy : isFinitePattern f y = true) :
    mulPattern f nan x y = if magOf f y = 0 then nan else assemble f (negOf f x != negOf f y) (infMag f) := by
  obtain ⟨m, e, hv, -, hm, -⟩ := valueOf_finite hy
  unfold mulPattern; rw [valueOf_inf hx, hv]
  simp only [sig_eq_zero hm]

theorem mulPattern_finite_inf (nan : Nat) {x y : Nat} (hx : isFinitePattern f x = true) (hy : magOf f y = infMag f) :
    mulPattern f nan x y = if magOf f x = 0 then nan else assemble f (negOf f x != negOf f y) (infMag f) := by
  obtain ⟨m, e, hv, -, hm, -⟩ := valueOf_finite hx
  unfold mulPattern; rw [valueOf_inf hy, hv]
  simp only [sig_eq_zero hm]

theorem mulPattern_inf_inf (nan : Nat) {x y : Nat} (hx : magOf f x = infMag f) (hy : magOf f y = infMag f) :
    mulPattern f nan x y = assemble f (negOf f x != negOf f y) (infMag f) := by
  unfold mulPattern; rw [valueOf_inf hx, valueOf_inf hy]

/-- 0 / 0 is a NaN (R123). -/
theorem divPattern_zero_zero (nan : Nat) {x y : Nat} (hx : isFinitePattern f x = true) (hx0 : magOf f x = 0)
    (hy : isFinitePattern f y = true) (hy0 : magOf f y = 0) : divPattern f nan x y = nan := by
  obtain ⟨m, e, hvx, -, hmx, -⟩ := valueOf_finite hx
  obtain ⟨n, g, hvy, -, hmy, -⟩ := valueOf_finite hy
  unfold divPattern
  rw [hvx, hvy]
  simp [(sig_eq_zero hmx).mpr hx0, (sig_eq_zero hmy).mpr hy0]

theorem divPattern_inf_inf (nan : Nat) {x y : Nat} (hx : magOf f x = infMag f) (hy : magOf f y = infMag f) :
    divPattern f nan x y = nan := by
  unfold divPattern; rw [valueOf_inf hx, valueOf_inf hy]

end Sys2Proof.Machine
end

