-- ==== Sys2Proof/Laws/Divide.lean ====
section
/-! SUPPORT. Division: rounding a quotient of enough bits whose last bit says whether a remainder is left is
rounding the exact quotient (40_numerics.md R120). -/

namespace Sys2Proof.Machine

variable {f : Fmt}

/-- num / den is sig, or lies strictly between the two even neighbours of an odd sig. -/
def Sticky (sig num den : Nat) : Prop :=
  sig * den = num ∨ (sig % 2 = 1 ∧ (sig - 1) * den < num ∧ num < (sig + 1) * den)

/-- Against an even number, num / den compares as sig does. -/
theorem Sticky.compare {sig num den : Nat} (h : Sticky sig num den) (hden : 0 < den) (m : Nat) :
    (sig ≤ 2 * m → num ≤ 2 * m * den) ∧ (2 * m ≤ sig → 2 * m * den ≤ num) ∧
    (num = 2 * m * den → sig = 2 * m) := by
  rcases h with h | ⟨hodd, h1, h2⟩
  · subst h
    exact ⟨fun h => Nat.mul_le_mul_right _ h, fun h => Nat.mul_le_mul_right _ h,
      fun h => Nat.eq_of_mul_eq_mul_right hden h⟩
  · refine ⟨fun h => ?_, fun h => ?_, fun h => ?_⟩
    · have : (sig + 1) * den ≤ 2 * m * den := Nat.mul_le_mul_right _ (by omega)
      omega
    · have : 2 * m * den ≤ (sig - 1) * den := Nat.mul_le_mul_right _ (by omega)
      omega
    · exfalso
      rcases Nat.lt_or_ge sig (2 * m) with hl | hl
      · have : (sig + 1) * den ≤ 2 * m * den := Nat.mul_le_mul_right _ (by omega)
        omega
      · have : 2 * m * den ≤ (sig - 1) * den := Nat.mul_le_mul_right _ (by omega)
        omega

/-- The multiple of 2^sh nearest to sig is the nearest to num / den, when sh is at least 2. -/
theorem Sticky.nearest {sig num den : Nat} (h : Sticky sig num den) (hden : 0 < den) {sh : Nat} (hsh : 2 ≤ sh)
    (k : Nat) :
    natDist (roundShift sig sh * 2 ^ sh * den) num ≤ natDist (k * 2 ^ sh * den) num ∧
    (natDist (roundShift sig sh * 2 ^ sh * den) num = natDist (k * 2 ^ sh * den) num →
      k = roundShift sig sh ∨ roundShift sig sh % 2 = 0) := by
  obtain ⟨h1, h2⟩ := roundShift_nearest sig sh k
  generalize roundShift sig sh = n at *
  obtain ⟨d, rfl⟩ := Nat.exists_eq_add_of_le hsh
  have hG : ∀ a, a * 2 ^ (2 + d) = 2 * (2 * (a * 2 ^ d)) := fun a => by rw [Nat.pow_add]; ring
  obtain ⟨c1, c2, c3⟩ := h.compare hden (n * 2 ^ d + k * 2 ^ d)
  rw [hG, hG] at *
  have e1 : 2 * (n * 2 ^ d + k * 2 ^ d) * den = 2 * (n * 2 ^ d * den) + 2 * (k * 2 ^ d * den) := by ring
  have e2 : ∀ a, 2 * (2 * (a * 2 ^ d)) * den = 4 * (a * 2 ^ d * den) := fun a => by ring
  rw [e1] at c1 c2 c3
  rw [e2, e2]
  have hlt : ∀ a b, a < b → a * 2 ^ d < b * 2 ^ d ∧ a * 2 ^ d * den < b * 2 ^ d * den := fun a b h =>
    have := Nat.mul_lt_mul_of_pos_right h (Nat.two_pow_pos d)
    ⟨this, Nat.mul_lt_mul_of_pos_right this hden⟩
  rcases Nat.lt_trichotomy n k with h | rfl | h
  · obtain ⟨hab, hAB⟩ := hlt n k h
    generalize n * 2 ^ d * den = A at *
    generalize k * 2 ^ d * den = B at *
    unfold natDist at *
    have := c1 (by omega)
    refine ⟨by omega, fun heq => ?_⟩
    have := c3 (by omega)
    exact h2 (by omega)
  · exact ⟨le_rfl, fun _ => .inl rfl⟩
  · obtain ⟨hab, hAB⟩ := hlt k n h
    generalize n * 2 ^ d * den = A at *
    generalize k * 2 ^ d * den = B at *
    unfold natDist at *
    have := c2 (by omega)
    refine ⟨by omega, fun heq => ?_⟩
    have := c3 (by omega)
    exact h2 (by omega)

/-- The magnitude bits of a sticky significand are the exact value rounded once. -/
theorem roundMag_sticky (hf : f.Ok) {sig num den : Nat} (exp : Int) (h : Sticky sig num den) (hden : 0 < den)
    (hbig : 2 ^ (f.fracBits + 2) ≤ sig) :
    RoundedTo f (num * 2 ^ (exp - minExp f).toNat) (den * 2 ^ (minExp f - exp).toNat) (roundMag f sig exp) := by
  have h0 : sig ≠ 0 := by have := Nat.two_pow_pos (f.fracBits + 2); omega
  obtain ⟨hq1, hq2, hq3⟩ := lastPlace_cases f sig exp
  have hlog1 : 2 ^ Nat.log2 sig ≤ sig := Nat.log2_self_le h0
  have hlog2 : sig < 2 ^ (Nat.log2 sig + 1) := Nat.lt_log2_self
  have hL : f.fracBits + 2 ≤ Nat.log2 sig := (Nat.le_log2 h0).mpr hbig
  unfold roundMag
  rw [if_neg h0]
  generalize lastPlace f sig exp = q at *
  generalize Nat.log2 sig = L at *
  dsimp only
  rw [if_neg (by omega)]
  have hsh : 2 ≤ (q - exp).toNat := by omega
  have hc : 0 < 2 ^ (exp - minExp f).toNat := Nat.two_pow_pos _
  have hgrid : ∀ k, k * 2 ^ (q - minExp f).toNat * (den * 2 ^ (minExp f - exp).toNat) =
      k * 2 ^ (q - exp).toNat * den * 2 ^ (exp - minExp f).toNat := by
    intro k
    have : 2 ^ (q - minExp f).toNat * 2 ^ (minExp f - exp).toNat =
        2 ^ (q - exp).toNat * 2 ^ (exp - minExp f).toNat := by
      rw [← Nat.pow_add, ← Nat.pow_add]; congr 1; omega
    calc _ = k * den * (2 ^ (q - minExp f).toNat * 2 ^ (minExp f - exp).toNat) := by ring
      _ = _ := by rw [this]; ring
  have hquo : roundShift sig (q - exp).toNat = sig / 2 ^ (q - exp).toNat ∨
      roundShift sig (q - exp).toNat = sig / 2 ^ (q - exp).toNat + 1 := by
    unfold roundShift; dsimp only; split <;> simp
  have hlow : q ≠ minExp f → 2 ^ f.fracBits * 2 ^ (q - exp).toNat ≤ sig := by
    intro hz
    have : L = f.fracBits + (q - exp).toNat := by omega
    rw [← Nat.pow_add, ← this]; exact hlog1
  apply rounded_of_grid f hf
  · by_cases hz : q = minExp f
    · left; omega
    · right
      have := (Nat.le_div_iff_mul_le (Nat.two_pow_pos (q - exp).toNat)).mpr (hlow hz)
      omega
  · have hlt : sig / 2 ^ (q - exp).toNat < 2 ^ (f.fracBits + 1) := by
      rw [Nat.div_lt_iff_lt_mul (Nat.two_pow_pos _), ← Nat.pow_add]
      exact lt_of_lt_of_le hlog2 (Nat.pow_le_pow_right (by norm_num) (by omega))
    omega
  · exact Nat.mul_pos hden (Nat.two_pow_pos _)
  · intro k
    rw [hgrid, hgrid, natDist_mul_right, natDist_mul_right]
    obtain ⟨h1, h2⟩ := h.nearest hden hsh k
    exact ⟨Nat.mul_le_mul_right _ h1, fun h => h2 (Nat.eq_of_mul_eq_mul_right hc h)⟩
  · by_cases hz : q = minExp f
    · left; omega
    · right
      rw [hgrid]
      apply Nat.mul_le_mul_right
      obtain ⟨d, hd⟩ := Nat.exists_eq_add_of_le (show 1 ≤ (q - exp).toNat by omega)
      have hle := hlow hz
      have e2 : 2 ^ f.fracBits * 2 ^ (q - exp).toNat = 2 * (2 ^ f.fracBits * 2 ^ d) := by
        rw [hd, Nat.pow_add]; ring
      rw [e2] at hle ⊢
      exact (h.compare hden _).2.1 hle

theorem stickyQuotient_sticky (m n sh : Nat) (hn : 0 < n) : Sticky (stickyQuotient m n sh) (2 * (m * 2 ^ sh)) n := by
  have hdm := Nat.div_add_mod (m * 2 ^ sh) n
  have hlt := Nat.mod_lt (m * 2 ^ sh) hn
  unfold stickyQuotient
  generalize m * 2 ^ sh = a at *
  by_cases h : a % n = 0
  · left
    rw [if_pos h, Nat.add_zero, Nat.mul_assoc]
    rw [h, Nat.add_zero, Nat.mul_comm] at hdm
    rw [hdm]
  · right
    rw [if_neg h]
    refine ⟨by omega, ?_, ?_⟩
    · rw [Nat.add_sub_cancel, Nat.mul_assoc, Nat.mul_comm (a / n) n]; omega
    · rw [show 2 * (a / n) + 1 + 1 = 2 * (a / n + 1) by ring, Nat.mul_assoc, Nat.add_mul, Nat.one_mul,
        Nat.mul_comm (a / n) n]; omega

/-- The quotient of two finite patterns, the divisor not a zero, is the exact quotient rounded once; its sign is
the exclusive-or of the signs (R120). -/
theorem divPattern_finite (hf : f.Ok) (nan : Nat) {x y : Nat} (hx : isFinitePattern f x = true)
    (hy : isFinitePattern f y = true) (hy0 : magOf f y ≠ 0) :
    ∃ mag, divPattern f nan x y = assemble f (negOf f x != negOf f y) mag ∧
      RoundedTo f (magUnits f (magOf f x) * oneUnits f) (magUnits f (magOf f y)) mag := by
  obtain ⟨m, e, hvx, he, hmx, -⟩ := valueOf_finite hx
  obtain ⟨n, g, hvy, hg, hny, hnlt⟩ := valueOf_finite hy
  have hn0 : n ≠ 0 := fun h => hy0 ((sig_eq_zero hny).mp h)
  have hn : 0 < n := Nat.pos_of_ne_zero hn0
  have hUy : 0 < magUnits f (magOf f y) := by rw [← hny]; exact Nat.mul_pos hn (Nat.two_pow_pos _)
  unfold divPattern
  rw [hvx, hvy]
  dsimp only
  rw [if_neg hn0]
  refine ⟨_, rfl, ?_⟩
  by_cases hm0 : m = 0
  · rw [← hmx, hm0]
    have : stickyQuotient 0 n (2 * f.fracBits + 4) = 0 := by simp [stickyQuotient]
    rw [this]
    refine ⟨by simp [roundMag], fun v _ => ?_⟩
    simp [roundMag, natDist_self]
  · have hneg := minExp_neg hf
    have hbig : 2 ^ (f.fracBits + 2) ≤ stickyQuotient m n (2 * f.fracBits + 4) := by
      unfold stickyQuotient
      have : 2 ^ (f.fracBits + 3) ≤ m * 2 ^ (2 * f.fracBits + 4) / n := by
        rw [Nat.le_div_iff_mul_le hn]
        calc 2 ^ (f.fracBits + 3) * n ≤ 2 ^ (f.fracBits + 3) * 2 ^ (f.fracBits + 1) :=
              Nat.mul_le_mul_left _ hnlt.le
          _ = 1 * 2 ^ (2 * f.fracBits + 4) := by rw [← Nat.pow_add, Nat.one_mul]; congr 1; omega
          _ ≤ _ := Nat.mul_le_mul_right _ (Nat.pos_of_ne_zero hm0)
      have h2 : 2 ^ (f.fracBits + 3) = 2 * 2 ^ (f.fracBits + 2) := by rw [Nat.pow_succ]; ring
      omega
    refine (roundMag_sticky hf _ (stickyQuotient_sticky m n _ hn) hn hbig).of_eq
      (Nat.mul_pos hn (Nat.two_pow_pos _)) hUy ?_
    rw [← hmx, ← hny]
    unfold oneUnits
    generalize hsh : 2 * f.fracBits + 4 = sh
    generalize hE : e - g - (sh : Int) - 1 = E
    have hexp : 2 * 2 ^ sh * 2 ^ (E - minExp f).toNat * 2 ^ (g - minExp f).toNat =
        2 ^ (e - minExp f).toNat * 2 ^ (-(minExp f)).toNat * 2 ^ (minExp f - E).toNat := by
      rw [← Nat.pow_succ', ← Nat.pow_add, ← Nat.pow_add, ← Nat.pow_add, ← Nat.pow_add]
      congr 1
      omega
    calc _ = m * n * (2 * 2 ^ sh * 2 ^ (E - minExp f).toNat * 2 ^ (g - minExp f).toNat) := by ring
      _ = _ := by rw [hexp]; ring

end Sys2Proof.Machine
end

