-- ==== Sys2Proof/Laws/Ieee.lean ====
section
/-! SUPPORT. The binary64 and binary32 operations as patterns: what their bits are, how they compare, and that a NaN
operand gives the NaN drawn (40_numerics.md R120 to R127). -/

namespace Sys2Proof.Machine

variable {f : Fmt}

theorem addPattern_lt {nan : Nat} (h : nan < 2 * signWeight f) (x y : Nat) :
    addPattern f nan x y < 2 * signWeight f := by
  have hi := infMag_lt_signWeight f
  have h0 : 0 < signWeight f := Nat.two_pow_pos _
  unfold addPattern
  split <;> (try split) <;> first | exact h | exact assemble_lt hi | skip
  dsimp only
  split
  · exact assemble_lt h0
  · exact assemble_lt (roundMag_lt_signWeight f _ _)

theorem mulPattern_lt {nan : Nat} (h : nan < 2 * signWeight f) (x y : Nat) :
    mulPattern f nan x y < 2 * signWeight f := by
  have hi := infMag_lt_signWeight f
  unfold mulPattern
  split <;> (try split) <;> first | exact h | exact assemble_lt hi | exact assemble_lt (roundMag_lt_signWeight f _ _)

theorem divPattern_lt {nan : Nat} (h : nan < 2 * signWeight f) (x y : Nat) :
    divPattern f nan x y < 2 * signWeight f := by
  have hi := infMag_lt_signWeight f
  have h0 : 0 < signWeight f := Nat.two_pow_pos _
  unfold divPattern
  split <;> (try split) <;> (try split) <;>
    first | exact h | exact assemble_lt hi | exact assemble_lt h0 | exact assemble_lt (roundMag_lt_signWeight f _ _)

theorem floorPattern_lt {nan x : Nat} (h : nan < 2 * signWeight f) (hx : x < 2 * signWeight f) :
    floorPattern f nan x < 2 * signWeight f := by
  unfold floorPattern
  split
  · exact h
  · exact hx
  · dsimp only
    split
    · exact hx
    · split <;> exact assemble_lt (roundMag_lt_signWeight f _ _)

theorem convertPattern_lt {g : Fmt} {nan : Nat} (h : nan < 2 * signWeight g) (x : Nat) :
    convertPattern f g nan x < 2 * signWeight g := by
  unfold convertPattern
  split
  · exact h
  · exact assemble_lt (infMag_lt_signWeight g)
  · exact assemble_lt (roundMag_lt_signWeight g _ _)

theorem isNaN_false_of_finite {x : Nat} (h : isFinitePattern f x = true) : isNaNPattern f x = false := by
  rw [isFinitePattern_iff] at h
  simp [isNaNPattern]; omega

/-! ## binary64 -/

theorem pattern64_lt (a : F64) : a.toNat < 2 * signWeight binary64 := a.isLt

theorem toNat_f64Add (nan a b : F64) :
    (f64Add nan a b).toNat = addPattern binary64 nan.toNat a.toNat b.toNat := by
  rw [f64Add, BitVec.toNat_ofNat]
  exact Nat.mod_eq_of_lt (addPattern_lt (pattern64_lt nan) _ _)

theorem toNat_f64Sub (nan a b : F64) :
    (f64Sub nan a b).toNat = subPattern binary64 nan.toNat a.toNat b.toNat := by
  rw [f64Sub, BitVec.toNat_ofNat]
  exact Nat.mod_eq_of_lt (addPattern_lt (pattern64_lt nan) _ _)

theorem toNat_f64Mul (nan a b : F64) :
    (f64Mul nan a b).toNat = mulPattern binary64 nan.toNat a.toNat b.toNat := by
  rw [f64Mul, BitVec.toNat_ofNat]
  exact Nat.mod_eq_of_lt (mulPattern_lt (pattern64_lt nan) _ _)

theorem toNat_f64Floor (nan a : F64) :
    (f64Floor nan a).toNat = floorPattern binary64 nan.toNat a.toNat := by
  rw [f64Floor, BitVec.toNat_ofNat]
  exact Nat.mod_eq_of_lt (floorPattern_lt (pattern64_lt nan) (pattern64_lt a))

theorem f64Lt_iff {a b : F64} :
    f64Lt a b = true ↔ f64IsNaN a = false ∧ f64IsNaN b = false ∧ f64Units a < f64Units b := ltPattern_iff

theorem f64Le_iff {a b : F64} :
    f64Le a b = true ↔ f64IsNaN a = false ∧ f64IsNaN b = false ∧ f64Units a ≤ f64Units b := lePattern_iff

/-- Of two patterns that are no NaNs one is below the other or not above it. -/
theorem f64Le_of_not_lt {a b : F64} (ha : f64IsNaN a = false) (hb : f64IsNaN b = false)
    (h : f64Lt b a = false) : f64Le a b = true := by
  rw [f64Le_iff]
  refine ⟨ha, hb, ?_⟩
  by_contra hcon
  rw [f64Lt_iff.mpr ⟨hb, ha, by omega⟩] at h
  cases h

theorem f64IsNaN_false_of_finite {a : F64} (h : f64IsFinite a = true) : f64IsNaN a = false :=
  isNaN_false_of_finite h

/-- An operation with a NaN operand returns the NaN it is given (R123). -/
theorem f64Add_nan (nan a b : F64) (h : f64IsNaN a = true ∨ f64IsNaN b = true) : f64Add nan a b = nan := by
  apply BitVec.eq_of_toNat_eq; rw [toNat_f64Add, addPattern_nan _ h]

theorem f64Sub_nan (nan a b : F64) (h : f64IsNaN a = true ∨ f64IsNaN b = true) : f64Sub nan a b = nan := by
  apply BitVec.eq_of_toNat_eq; rw [toNat_f64Sub, subPattern_nan _ h]

theorem f64Mul_nan (nan a b : F64) (h : f64IsNaN a = true ∨ f64IsNaN b = true) : f64Mul nan a b = nan := by
  apply BitVec.eq_of_toNat_eq; rw [toNat_f64Mul, mulPattern_nan _ h]

theorem f64Floor_nan (nan a : F64) (h : f64IsNaN a = true) : f64Floor nan a = nan := by
  apply BitVec.eq_of_toNat_eq; rw [toNat_f64Floor, floorPattern_nan _ h]

@[simp] theorem f64IsNaN_nanOf64 (r : F64) : f64IsNaN (nanOf64 r) = true := by
  unfold nanOf64; split
  · assumption
  · decide

@[simp] theorem f64IsNaN_nan64 (δ : Draws) (k : Nat) : f64IsNaN (nan64 δ k) = true := f64IsNaN_nanOf64 (δ k)

/-! ## binary32 -/

theorem pattern32_lt (a : F32) : a.toNat < 2 * signWeight binary32 := a.isLt

theorem toNat_f32Add (nan a b : F32) :
    (f32Add nan a b).toNat = addPattern binary32 nan.toNat a.toNat b.toNat := by
  rw [f32Add, BitVec.toNat_ofNat]
  exact Nat.mod_eq_of_lt (addPattern_lt (pattern32_lt nan) _ _)

theorem toNat_f32Sub (nan a b : F32) :
    (f32Sub nan a b).toNat = subPattern binary32 nan.toNat a.toNat b.toNat := by
  rw [f32Sub, BitVec.toNat_ofNat]
  exact Nat.mod_eq_of_lt (addPattern_lt (pattern32_lt nan) _ _)

theorem toNat_f32Mul (nan a b : F32) :
    (f32Mul nan a b).toNat = mulPattern binary32 nan.toNat a.toNat b.toNat := by
  rw [f32Mul, BitVec.toNat_ofNat]
  exact Nat.mod_eq_of_lt (mulPattern_lt (pattern32_lt nan) _ _)

theorem toNat_f32Floor (nan a : F32) :
    (f32Floor nan a).toNat = floorPattern binary32 nan.toNat a.toNat := by
  rw [f32Floor, BitVec.toNat_ofNat]
  exact Nat.mod_eq_of_lt (floorPattern_lt (pattern32_lt nan) (pattern32_lt a))

theorem f32Lt_iff {a b : F32} :
    f32Lt a b = true ↔ f32IsNaN a = false ∧ f32IsNaN b = false ∧ f32Units a < f32Units b := ltPattern_iff

theorem f32Le_iff {a b : F32} :
    f32Le a b = true ↔ f32IsNaN a = false ∧ f32IsNaN b = false ∧ f32Units a ≤ f32Units b := lePattern_iff

/-- Of two patterns that are no NaNs one is below the other or not above it. -/
theorem f32Le_of_not_lt {a b : F32} (ha : f32IsNaN a = false) (hb : f32IsNaN b = false)
    (h : f32Lt b a = false) : f32Le a b = true := by
  rw [f32Le_iff]
  refine ⟨ha, hb, ?_⟩
  by_contra hcon
  rw [f32Lt_iff.mpr ⟨hb, ha, by omega⟩] at h
  cases h

theorem f32IsNaN_false_of_finite {a : F32} (h : f32IsFinite a = true) : f32IsNaN a = false :=
  isNaN_false_of_finite h

/-- An operation with a NaN operand returns the NaN it is given (R123). -/
theorem f32Add_nan (nan a b : F32) (h : f32IsNaN a = true ∨ f32IsNaN b = true) : f32Add nan a b = nan := by
  apply BitVec.eq_of_toNat_eq; rw [toNat_f32Add, addPattern_nan _ h]

theorem f32Sub_nan (nan a b : F32) (h : f32IsNaN a = true ∨ f32IsNaN b = true) : f32Sub nan a b = nan := by
  apply BitVec.eq_of_toNat_eq; rw [toNat_f32Sub, subPattern_nan _ h]

theorem f32Mul_nan (nan a b : F32) (h : f32IsNaN a = true ∨ f32IsNaN b = true) : f32Mul nan a b = nan := by
  apply BitVec.eq_of_toNat_eq; rw [toNat_f32Mul, mulPattern_nan _ h]

theorem f32Floor_nan (nan a : F32) (h : f32IsNaN a = true) : f32Floor nan a = nan := by
  apply BitVec.eq_of_toNat_eq; rw [toNat_f32Floor, floorPattern_nan _ h]

@[simp] theorem f32IsNaN_nanOf32 (r : F64) : f32IsNaN (nanOf32 r) = true := by
  unfold nanOf32; split
  · assumption
  · decide

@[simp] theorem f32IsNaN_nan32 (δ : Draws) (k : Nat) : f32IsNaN (nan32 δ k) = true := f32IsNaN_nanOf32 (δ k)

theorem toNat_f64Div (nan a b : F64) :
    (f64Div nan a b).toNat = divPattern binary64 nan.toNat a.toNat b.toNat := by
  rw [f64Div, BitVec.toNat_ofNat]
  exact Nat.mod_eq_of_lt (divPattern_lt (pattern64_lt nan) _ _)

theorem f64Div_nan (nan a b : F64) (h : f64IsNaN a = true ∨ f64IsNaN b = true) : f64Div nan a b = nan := by
  apply BitVec.eq_of_toNat_eq; rw [toNat_f64Div, divPattern_nan _ h]

theorem toNat_f64OfF32 (nan : F64) (a : F32) :
    (f64OfF32 nan a).toNat = convertPattern binary32 binary64 nan.toNat a.toNat := by
  rw [f64OfF32, BitVec.toNat_ofNat]
  exact Nat.mod_eq_of_lt (convertPattern_lt (pattern64_lt nan) _)

theorem toNat_f32OfF64 (nan : F32) (a : F64) :
    (f32OfF64 nan a).toNat = convertPattern binary64 binary32 nan.toNat a.toNat := by
  rw [f32OfF64, BitVec.toNat_ofNat]
  exact Nat.mod_eq_of_lt (convertPattern_lt (pattern32_lt nan) _)

theorem toNat_f64OfNat (n : Nat) : (f64OfNat n).toNat = roundMag binary64 n 0 := by
  rw [f64OfNat, BitVec.toNat_ofNat]
  exact Nat.mod_eq_of_lt (lt_trans (roundMag_lt_signWeight binary64 n 0) (by decide))

/-! ## what the named functions do with a NaN (40_numerics.md R123, R128, R133, R134) -/

/-- SMOOTH of a NaN is a NaN (R128). -/
theorem smooth_nan (δ : Draws) (k : Nat) (s x coef : F64)
    (h : f64IsNaN s = true ∨ f64IsNaN x = true ∨ f64IsNaN coef = true) : f64IsNaN (smooth δ k s x coef) = true := by
  unfold smooth
  dsimp only
  have he : f64IsNaN s = true ∨ f64IsNaN x = true → f64Sub (nan64 δ k) x s = nan64 δ k := fun h =>
    f64Sub_nan _ _ _ h.symm
  rcases h with h | h | h
  · rw [f64Add_nan _ _ _ (.inl h)]; simp
  · rw [he (.inr h), f64Mul_nan _ _ _ (.inr (by simp)), f64Add_nan _ _ _ (.inr (by simp))]; simp
  · rw [f64Mul_nan _ _ _ (.inl h), f64Add_nan _ _ _ (.inr (by simp))]; simp

end Sys2Proof.Machine
end

