-- ==== Sys2Proof/Laws/Exact.lean ====
section
/-! SUPPORT. Results that are exact or bounded: a representable exact result is the result, and a result whose exact
value is at most a representable one is at most it. -/

namespace Sys2Proof.Machine

variable {f : Fmt}

/-- A magnitude is its own nearest. -/
theorem roundedTo_self {v : Nat} (hv : v ≤ infMag f) {den : Nat} (hden : 0 < den) :
    RoundedTo f (magUnits f v * den) den v := by
  refine ⟨hv, fun w _ => ?_⟩
  rw [natDist_self]
  refine ⟨Nat.zero_le _, fun h => .inl ?_⟩
  exact magUnits_injective f (Nat.eq_of_mul_eq_mul_right hden (natDist_eq_zero h.symm))

/-- A value at most a representable one is rounded to at most it. -/
theorem RoundedTo.le_of_le {n d m v : Nat} (h : RoundedTo f n d m) (hd : 0 < d) (hv : v ≤ infMag f)
    (hle : n ≤ magUnits f v * d) : m ≤ v :=
  h.mono (roundedTo_self hv hd) hd hd (Nat.mul_le_mul_right _ hle)

/-- A value at least a representable one is rounded to at least it. -/
theorem RoundedTo.ge_of_ge {n d m v : Nat} (h : RoundedTo f n d m) (hd : 0 < d) (hv : v ≤ infMag f)
    (hle : magUnits f v * d ≤ n) : v ≤ m :=
  (roundedTo_self hv hd).mono h hd hd (Nat.mul_le_mul_right _ hle)

theorem natAbs_unitsOf (f : Fmt) (x : Nat) : (unitsOf f x).natAbs = magUnits f (magOf f x) := signed_natAbs _ _

theorem RoundedTo.lt_signWeight {n d m : Nat} (h : RoundedTo f n d m) : m < signWeight f :=
  lt_of_le_of_lt h.1 (infMag_lt_signWeight f)

/-- A magnitude with the sign of an integer of that magnitude stands for the integer. -/
theorem unitsOf_assemble {neg : Bool} {mag : Nat} {z : Int} (hmag : mag < signWeight f)
    (hz : magUnits f mag = z.natAbs) (hneg : z ≠ 0 → neg = decide (z < 0)) :
    unitsOf f (assemble f neg mag) = z := by
  unfold unitsOf
  rw [magOf_assemble hmag, negOf_assemble hmag, hz]
  unfold signed
  by_cases h0 : z = 0
  · subst h0; simp
  · rw [hneg h0]
    by_cases hlt : z < 0
    · simp only [hlt, decide_true, if_true]; omega
    · simp only [hlt, decide_false, Bool.false_eq_true, if_false]; omega

/-- A sum that is representable is exact. -/
theorem addPattern_exact (hf : f.Ok) (nan : Nat) {x y v : Nat} (hx : isFinitePattern f x = true)
    (hy : isFinitePattern f y = true) (hv : v < infMag f) (hz : magUnits f v = (unitsOf f x + unitsOf f y).natAbs) :
    isFinitePattern f (addPattern f nan x y) = true ∧
      unitsOf f (addPattern f nan x y) = unitsOf f x + unitsOf f y := by
  obtain ⟨m, n, e, r, s, -⟩ := addPattern_finite hf nan hx hy
  have hm : m = v := by
    rw [← hz] at r
    exact RoundedTo.exact (by rwa [Nat.mul_one]) Nat.one_pos hv.le
  rw [e]
  have hlt := r.lt_signWeight
  refine ⟨?_, unitsOf_assemble hlt (by rw [hm]; exact hz) s⟩
  rw [isFinitePattern_iff, magOf_assemble hlt, hm]
  exact hv

theorem subPattern_exact (hf : f.Ok) (nan : Nat) {x y v : Nat} (hyl : y < 2 * signWeight f)
    (hx : isFinitePattern f x = true) (hy : isFinitePattern f y = true) (hv : v < infMag f)
    (hz : magUnits f v = (unitsOf f x - unitsOf f y).natAbs) :
    isFinitePattern f (subPattern f nan x y) = true ∧
      unitsOf f (subPattern f nan x y) = unitsOf f x - unitsOf f y := by
  have := addPattern_exact hf nan hx ((isFinitePattern_flipSign y).trans hy) hv
    (by rw [unitsOf_flipSign hyl]; exact hz)
  rw [unitsOf_flipSign hyl] at this
  exact this

/-- A product that is representable is exact. -/
theorem mulPattern_exact (hf : f.Ok) (nan : Nat) {x y v : Nat} (hx : isFinitePattern f x = true)
    (hy : isFinitePattern f y = true) (hv : v < infMag f)
    (hz : magUnits f v * oneUnits f = (unitsOf f x * unitsOf f y).natAbs) :
    isFinitePattern f (mulPattern f nan x y) = true ∧
      unitsOf f (mulPattern f nan x y) * (oneUnits f : Int) = unitsOf f x * unitsOf f y := by
  obtain ⟨m, e, r⟩ := mulPattern_finite hf nan hx hy
  have hz' : magUnits f v * oneUnits f = magUnits f (magOf f x) * magUnits f (magOf f y) := by
    rw [hz, Int.natAbs_mul, natAbs_unitsOf, natAbs_unitsOf]
  have hm : m = v := by
    rw [← hz'] at r
    exact r.exact (oneUnits_pos f) hv.le
  have hlt := r.lt_signWeight
  rw [e]
  refine ⟨?_, ?_⟩
  · rw [isFinitePattern_iff, magOf_assemble hlt, hm]; exact hv
  · unfold unitsOf
    rw [magOf_assemble hlt, negOf_assemble hlt, hm, ← signed_mul, hz']
    unfold signed
    cases negOf f x <;> cases negOf f y <;> simp

/-- The magnitude of a finite pattern that stands for 0 is 0. -/
theorem magOf_eq_zero {x : Nat} (h : unitsOf f x = 0) : magOf f x = 0 := by
  have := congrArg Int.natAbs h
  rw [natAbs_unitsOf, Int.natAbs_zero, ← magUnits_zero f] at this
  exact magUnits_injective f this

/-- Adding a zero keeps the number. -/
theorem addPattern_zero (hf : f.Ok) (nan : Nat) {x y : Nat} (hx : isFinitePattern f x = true)
    (hy : isFinitePattern f y = true) (h0 : unitsOf f y = 0) :
    isFinitePattern f (addPattern f nan x y) = true ∧ unitsOf f (addPattern f nan x y) = unitsOf f x := by
  have := addPattern_exact hf nan hx hy (isFinitePattern_iff.mp hx) (by rw [h0, Int.add_zero, natAbs_unitsOf])
  rwa [h0, Int.add_zero] at this

theorem zero_addPattern (hf : f.Ok) (nan : Nat) {x y : Nat} (hx : isFinitePattern f x = true)
    (hy : isFinitePattern f y = true) (h0 : unitsOf f x = 0) :
    isFinitePattern f (addPattern f nan x y) = true ∧ unitsOf f (addPattern f nan x y) = unitsOf f y := by
  have := addPattern_exact hf nan hx hy (isFinitePattern_iff.mp hy) (by rw [h0, Int.zero_add, natAbs_unitsOf])
  rwa [h0, Int.zero_add] at this

/-- A product with a zero is a zero. -/
theorem mulPattern_zero (hf : f.Ok) (nan : Nat) {x y : Nat} (hx : isFinitePattern f x = true)
    (hy : isFinitePattern f y = true) (h0 : unitsOf f x = 0 ∨ unitsOf f y = 0) :
    isFinitePattern f (mulPattern f nan x y) = true ∧ unitsOf f (mulPattern f nan x y) = 0 := by
  have hz : unitsOf f x * unitsOf f y = 0 := Int.mul_eq_zero.mpr h0
  have := mulPattern_exact hf nan hx hy (infMag_pos hf) (by rw [hz, magUnits_zero, Nat.zero_mul, Int.natAbs_zero])
  rw [hz] at this
  refine ⟨this.1, ?_⟩
  rcases Int.mul_eq_zero.mp this.2 with h | h
  · exact h
  · have := oneUnits_pos f; omega

/-- A product with a one keeps the number. -/
theorem mulPattern_one (hf : f.Ok) (nan : Nat) {x y : Nat} (hx : isFinitePattern f x = true)
    (hy : isFinitePattern f y = true) (h1 : unitsOf f y = (oneUnits f : Int)) :
    isFinitePattern f (mulPattern f nan x y) = true ∧ unitsOf f (mulPattern f nan x y) = unitsOf f x := by
  have hp : (oneUnits f : Int) ≠ 0 := by exact_mod_cast (oneUnits_pos f).ne'
  have := mulPattern_exact hf nan hx hy (isFinitePattern_iff.mp hx)
    (by rw [h1, Int.natAbs_mul, natAbs_unitsOf, Int.natAbs_natCast])
  rw [h1] at this
  exact ⟨this.1, Int.eq_of_mul_eq_mul_right hp this.2⟩

theorem one_mulPattern (hf : f.Ok) (nan : Nat) {x y : Nat} (hx : isFinitePattern f x = true)
    (hy : isFinitePattern f y = true) (h1 : unitsOf f x = (oneUnits f : Int)) :
    isFinitePattern f (mulPattern f nan x y) = true ∧ unitsOf f (mulPattern f nan x y) = unitsOf f y := by
  have hp : (oneUnits f : Int) ≠ 0 := by exact_mod_cast (oneUnits_pos f).ne'
  have := mulPattern_exact hf nan hx hy (isFinitePattern_iff.mp hy)
    (by rw [h1, Int.natAbs_mul, natAbs_unitsOf, Int.natAbs_natCast, Nat.mul_comm])
  rw [h1] at this
  exact ⟨this.1, Int.eq_of_mul_eq_mul_right hp (this.2.trans (Int.mul_comm _ _))⟩

/-- A sum between 0 and a representable bound is finite and stays between them. -/
theorem addPattern_between (hf : f.Ok) (nan : Nat) {x y v : Nat} (hx : isFinitePattern f x = true)
    (hy : isFinitePattern f y = true) (hv : v < infMag f) (h0 : 0 ≤ unitsOf f x + unitsOf f y)
    (hle : unitsOf f x + unitsOf f y ≤ (magUnits f v : Int)) :
    isFinitePattern f (addPattern f nan x y) = true ∧ 0 ≤ unitsOf f (addPattern f nan x y) ∧
      unitsOf f (addPattern f nan x y) ≤ (magUnits f v : Int) := by
  obtain ⟨m, n, e, r, s, -⟩ := addPattern_finite hf nan hx hy
  have hm : m ≤ v := r.le_of_le Nat.one_pos hv.le (by omega)
  have hlt := r.lt_signWeight
  have hmu : (magUnits f m : Int) ≤ (magUnits f v : Int) := by
    exact_mod_cast (magUnits_strictMono f).le_iff_le.mpr hm
  rw [e]
  refine ⟨?_, ?_⟩
  · rw [isFinitePattern_iff, magOf_assemble hlt]; omega
  · unfold unitsOf
    rw [magOf_assemble hlt, negOf_assemble hlt]
    by_cases hz : unitsOf f x + unitsOf f y = 0
    · have hm0 : m = 0 := by
        rw [hz] at r
        exact RoundedTo.exact (v := 0) (by simpa using r) Nat.one_pos (Nat.zero_le _)
      subst hm0
      simp [signed]
    · rw [s hz]
      have : ¬ unitsOf f x + unitsOf f y < 0 := by omega
      simp only [this, decide_false, signed, Bool.false_eq_true, if_false]
      omega

theorem subPattern_between (hf : f.Ok) (nan : Nat) {x y v : Nat} (hyl : y < 2 * signWeight f)
    (hx : isFinitePattern f x = true) (hy : isFinitePattern f y = true) (hv : v < infMag f)
    (h0 : 0 ≤ unitsOf f x - unitsOf f y) (hle : unitsOf f x - unitsOf f y ≤ (magUnits f v : Int)) :
    isFinitePattern f (subPattern f nan x y) = true ∧ 0 ≤ unitsOf f (subPattern f nan x y) ∧
      unitsOf f (subPattern f nan x y) ≤ (magUnits f v : Int) := by
  have hu := unitsOf_flipSign hyl
  exact addPattern_between hf nan hx ((isFinitePattern_flipSign y).trans hy) hv (by omega) (by omega)

/-! ## binary64 -/

/-- The sign of a pattern is its most significant bit. -/
theorem negOf_toNat64 (a : F64) : negOf binary64 a.toNat = a.msb := by
  rw [BitVec.msb_eq_decide]; rfl

theorem negOf_toNat32 (a : F32) : negOf binary32 a.toNat = a.msb := by
  rw [BitVec.msb_eq_decide]; rfl

theorem f64Units_zero : f64Units f64Zero = 0 := by decide

theorem f64Units_one : f64Units f64One = (oneUnits binary64 : Int) := by decide +kernel

/-- toF64 of a natural number below 2^53 is finite and exact (R127). -/
theorem f64OfNat_exact {n : Nat} (h : n < 2 ^ 53) :
    f64IsFinite (f64OfNat n) = true ∧ f64Units (f64OfNat n) = (n : Int) * (oneUnits binary64 : Int) := by
  obtain ⟨h1, h2⟩ := roundMag_integer binary64_ok (n := n) h
  have hs := roundMag_lt_signWeight binary64 n 0
  have hmag : magOf binary64 (f64OfNat n).toNat = roundMag binary64 n 0 := by
    rw [toNat_f64OfNat]; exact Nat.mod_eq_of_lt hs
  have hneg : negOf binary64 (f64OfNat n).toNat = false := by
    rw [toNat_f64OfNat]; exact decide_eq_false (Nat.not_le.mpr hs)
  refine ⟨?_, ?_⟩
  · show isFinitePattern _ _ = true
    rw [isFinitePattern_iff, hmag]; exact h2
  · show unitsOf binary64 _ = _
    rw [unitsOf, hmag, hneg, h1]
    simp only [signed, Bool.false_eq_true, if_false]
    exact Int.natCast_mul _ _

end Sys2Proof.Machine
end

