-- ==== Sys2Proof/Laws/Numbers.lean ====
section
/-! SUPPORT. What the F64 and F32 operations do with exact results, zeros, ones and bounds, in the terms of
`f64Units` and `f32Units`; what the conversions and RdRing can answer. -/

namespace Sys2Proof.Machine

theorem f64IsFinite_zero : f64IsFinite f64Zero = true := by decide
theorem f64IsFinite_one : f64IsFinite f64One = true := by decide

/-- One is above zero, in units. -/
theorem oneUnits_pos_int (f : Fmt) : (0 : Int) < oneUnits f := by exact_mod_cast oneUnits_pos f

theorem f32Units_zero : f32Units f32Zero = 0 := by decide
theorem f32Units_one : f32Units f32One = (oneUnits binary32 : Int) := by decide +kernel

/-! ## sums and differences -/

theorem f64Add_exact (nan : F64) {a b : F64} {v : Nat} (ha : f64IsFinite a = true) (hb : f64IsFinite b = true)
    (hv : v < infMag binary64) (h : magUnits binary64 v = (f64Units a + f64Units b).natAbs) :
    f64IsFinite (f64Add nan a b) = true ∧ f64Units (f64Add nan a b) = f64Units a + f64Units b := by
  have := addPattern_exact binary64_ok nan.toNat ha hb hv h
  unfold f64IsFinite f64Units; rw [toNat_f64Add]; exact this

theorem f64Sub_exact (nan : F64) {a b : F64} {v : Nat} (ha : f64IsFinite a = true) (hb : f64IsFinite b = true)
    (hv : v < infMag binary64) (h : magUnits binary64 v = (f64Units a - f64Units b).natAbs) :
    f64IsFinite (f64Sub nan a b) = true ∧ f64Units (f64Sub nan a b) = f64Units a - f64Units b := by
  have := subPattern_exact binary64_ok nan.toNat (pattern64_lt b) ha hb hv h
  unfold f64IsFinite f64Units; rw [toNat_f64Sub]; exact this

theorem f64Add_zero (nan : F64) {a b : F64} (ha : f64IsFinite a = true) (hb : f64IsFinite b = true)
    (h : f64Units b = 0) : f64IsFinite (f64Add nan a b) = true ∧ f64Units (f64Add nan a b) = f64Units a := by
  have := addPattern_zero binary64_ok nan.toNat ha hb h
  unfold f64IsFinite f64Units; rw [toNat_f64Add]; exact this

theorem zero_f64Add (nan : F64) {a b : F64} (ha : f64IsFinite a = true) (hb : f64IsFinite b = true)
    (h : f64Units a = 0) : f64IsFinite (f64Add nan a b) = true ∧ f64Units (f64Add nan a b) = f64Units b := by
  have := zero_addPattern binary64_ok nan.toNat ha hb h
  unfold f64IsFinite f64Units; rw [toNat_f64Add]; exact this

theorem f64Sub_zero (nan : F64) {a b : F64} (ha : f64IsFinite a = true) (hb : f64IsFinite b = true)
    (h : f64Units b = 0) : f64IsFinite (f64Sub nan a b) = true ∧ f64Units (f64Sub nan a b) = f64Units a := by
  have := f64Sub_exact nan ha hb (isFinitePattern_iff.mp ha)
    (by rw [h, Int.sub_zero]; exact (natAbs_unitsOf _ _).symm)
  rwa [h, Int.sub_zero] at this

/-- Below 2^53 every natural number is a representable magnitude. -/
theorem exists_nat_mag {n : Nat} (h : n < 2 ^ 53) :
    ∃ v, v < infMag binary64 ∧ magUnits binary64 v = n * oneUnits binary64 := by
  obtain ⟨h1, h2⟩ := roundMag_integer binary64_ok (n := n) h
  exact ⟨_, h2, h1⟩

/-- A sum between 0 and a natural number stays between them. -/
theorem f64Add_between (nan : F64) {a b : F64} {n : Nat} (hn : n < 2 ^ 53) (ha : f64IsFinite a = true)
    (hb : f64IsFinite b = true) (h0 : 0 ≤ f64Units a + f64Units b)
    (hle : f64Units a + f64Units b ≤ n * oneUnits binary64) :
    f64IsFinite (f64Add nan a b) = true ∧ 0 ≤ f64Units (f64Add nan a b) ∧
      f64Units (f64Add nan a b) ≤ n * oneUnits binary64 := by
  obtain ⟨v, hv, e⟩ := exists_nat_mag hn
  have e' : (magUnits binary64 v : Int) = n * oneUnits binary64 := by exact_mod_cast e
  have := addPattern_between (v := v) binary64_ok nan.toNat ha hb hv h0 (by rw [e']; exact hle)
  rw [e', ← toNat_f64Add] at this
  exact this

theorem f64Sub_between (nan : F64) {a b : F64} {n : Nat} (hn : n < 2 ^ 53) (ha : f64IsFinite a = true)
    (hb : f64IsFinite b = true) (h0 : 0 ≤ f64Units a - f64Units b)
    (hle : f64Units a - f64Units b ≤ n * oneUnits binary64) :
    f64IsFinite (f64Sub nan a b) = true ∧ 0 ≤ f64Units (f64Sub nan a b) ∧
      f64Units (f64Sub nan a b) ≤ n * oneUnits binary64 := by
  obtain ⟨v, hv, e⟩ := exists_nat_mag hn
  have e' : (magUnits binary64 v : Int) = n * oneUnits binary64 := by exact_mod_cast e
  have := subPattern_between (v := v) binary64_ok nan.toNat (pattern64_lt b) ha hb hv h0 (by rw [e']; exact hle)
  rw [e', ← toNat_f64Sub] at this
  exact this

/-- A difference between a negative integer and 0 stays between them. -/
theorem f64Sub_between_neg (nan : F64) {a b : F64} {n : Nat} (hn : n < 2 ^ 53) (ha : f64IsFinite a = true)
    (hb : f64IsFinite b = true) (h0 : f64Units a - f64Units b < 0)
    (hle : -(n * oneUnits binary64 : Int) ≤ f64Units a - f64Units b) :
    f64IsFinite (f64Sub nan a b) = true ∧ f64Units (f64Sub nan a b) ≤ 0 ∧
      -(n * oneUnits binary64 : Int) ≤ f64Units (f64Sub nan a b) := by
  obtain ⟨v, hv, e⟩ := exists_nat_mag hn
  have e' : (magUnits binary64 v : Int) = n * oneUnits binary64 := by exact_mod_cast e
  obtain ⟨m, ng, e2, r, s, -⟩ := subPattern_finite binary64_ok nan.toNat (pattern64_lt b) ha hb
  rw [← toNat_f64Sub] at e2
  unfold f64Units at h0 hle
  have hm : m ≤ v := r.le_of_le Nat.one_pos hv.le (by omega)
  have hlt := r.lt_signWeight
  have hmu : (magUnits binary64 m : Int) ≤ (magUnits binary64 v : Int) := by
    exact_mod_cast (magUnits_strictMono binary64).le_iff_le.mpr hm
  rw [s (by omega)] at e2
  simp only [h0, decide_true] at e2
  refine ⟨?_, ?_⟩
  · show isFinitePattern _ _ = true
    rw [isFinitePattern_iff, e2, magOf_assemble hlt]; omega
  · unfold f64Units unitsOf
    rw [e2, magOf_assemble hlt, negOf_assemble hlt]
    simp only [signed, if_true]
    omega

/-! ## products -/

theorem f64Mul_zero (nan : F64) {a b : F64} (ha : f64IsFinite a = true) (hb : f64IsFinite b = true)
    (h : f64Units a = 0 ∨ f64Units b = 0) :
    f64IsFinite (f64Mul nan a b) = true ∧ f64Units (f64Mul nan a b) = 0 := by
  have := mulPattern_zero binary64_ok nan.toNat ha hb h
  unfold f64IsFinite f64Units; rw [toNat_f64Mul]; exact this

theorem f64Mul_one (nan : F64) {a b : F64} (ha : f64IsFinite a = true) (hb : f64IsFinite b = true)
    (h : f64Units b = oneUnits binary64) :
    f64IsFinite (f64Mul nan a b) = true ∧ f64Units (f64Mul nan a b) = f64Units a := by
  have := mulPattern_one binary64_ok nan.toNat ha hb h
  unfold f64IsFinite f64Units; rw [toNat_f64Mul]; exact this

theorem one_f64Mul (nan : F64) {a b : F64} (ha : f64IsFinite a = true) (hb : f64IsFinite b = true)
    (h : f64Units a = oneUnits binary64) :
    f64IsFinite (f64Mul nan a b) = true ∧ f64Units (f64Mul nan a b) = f64Units b := by
  have := one_mulPattern binary64_ok nan.toNat ha hb h
  unfold f64IsFinite f64Units; rw [toNat_f64Mul]; exact this

/-! ## floor and the conversions -/

/-- floor in units: the multiple of one at or below. -/
theorem f64Floor_units (nan : F64) {a : F64} (ha : f64IsFinite a = true) :
    f64IsFinite (f64Floor nan a) = true ∧
      f64Units (f64Floor nan a) = f64Units a / (oneUnits binary64 : Int) * (oneUnits binary64 : Int) := by
  obtain ⟨mag, e, hlt, hu⟩ := floorPattern_finite binary64_ok nan.toNat (pattern64_lt a) ha
  rw [← toNat_f64Floor] at e
  have hs := lt_trans hlt (infMag_lt_signWeight binary64)
  refine ⟨?_, ?_⟩
  · show isFinitePattern _ _ = true; rw [isFinitePattern_iff, e, magOf_assemble hs]; exact hlt
  · unfold f64Units; rw [unitsOf, e, magOf_assemble hs, negOf_assemble hs]; exact hu

theorem f32Floor_units (nan : F32) {a : F32} (ha : f32IsFinite a = true) :
    f32IsFinite (f32Floor nan a) = true ∧
      f32Units (f32Floor nan a) = f32Units a / (oneUnits binary32 : Int) * (oneUnits binary32 : Int) := by
  obtain ⟨mag, e, hlt, hu⟩ := floorPattern_finite binary32_ok nan.toNat (pattern32_lt a) ha
  rw [← toNat_f32Floor] at e
  have hs := lt_trans hlt (infMag_lt_signWeight binary32)
  refine ⟨?_, ?_⟩
  · show isFinitePattern _ _ = true; rw [isFinitePattern_iff, e, magOf_assemble hs]; exact hlt
  · unfold f32Units; rw [unitsOf, e, magOf_assemble hs, negOf_assemble hs]; exact hu

/-- Converting a pattern that is no NaN does not look at the NaN it is given. -/
theorem convertPattern_indep {f g : Fmt} (n m : Nat) {x : Nat} (h : isNaNPattern f x = false) :
    convertPattern f g n x = convertPattern f g m x := by
  unfold convertPattern
  split
  · rename_i hv; rw [valueOf_eq_nan hv] at h; cases h
  · rfl
  · rfl

/-- A widened finite F32 is finite and at most 2^128. -/
theorem f64OfF32_finite (nan : F64) {a : F32} (ha : f32IsFinite a = true) :
    f64IsFinite (f64OfF32 nan a) = true ∧ magOf binary64 (f64OfF32 nan a).toNat ≤ (0x47F0000000000000#64).toNat := by
  obtain ⟨m, e, r⟩ := convertPattern_finite (f := binary32) binary64_ok nan.toNat ha
  rw [← toNat_f64OfF32] at e
  have h1 := magUnits_strictMono binary32 (isFinitePattern_iff.mp ha)
  have hle : m ≤ (0x47F0000000000000#64).toNat := by
    apply r.le_of_le (Nat.two_pow_pos _) (by decide)
    have e1 : (minExp binary32 - minExp binary64).toNat = 925 := by decide
    have e2 : (minExp binary64 - minExp binary32).toNat = 0 := by decide
    rw [e1, e2, Nat.pow_zero, Nat.mul_one]
    have e3 : magUnits binary32 (infMag binary32) * 2 ^ 925 = magUnits binary64 (0x47F0000000000000#64).toNat := by
      decide +kernel
    rw [← e3]
    exact Nat.mul_le_mul_right _ h1.le
  have hlt := r.lt_signWeight
  refine ⟨?_, ?_⟩
  · show isFinitePattern _ _ = true
    rw [isFinitePattern_iff, e, magOf_assemble hlt]; exact lt_of_le_of_lt hle (by decide)
  · rw [e, magOf_assemble hlt]; exact hle

/-! ## the sign bit -/

theorem magOf_xor_sign (x : F64) : magOf binary64 (x ^^^ 0x8000000000000000#64).toNat = magOf binary64 x.toNat := by
  show _ % 2 ^ 63 = _ % 2 ^ 63
  apply Nat.eq_of_testBit_eq
  intro i
  rw [Nat.testBit_mod_two_pow, Nat.testBit_mod_two_pow, BitVec.toNat_xor, Nat.testBit_xor]
  have : (0x8000000000000000#64).toNat = 2 ^ 63 := by decide
  rw [this, Nat.testBit_two_pow]
  by_cases h : i < 63
  · have : ¬ 63 = i := by omega
    simp [h, this]
  · simp [h]

/-- Flipping the sign bit negates the number. -/
theorem f64Units_xor_sign (x : F64) : f64Units (x ^^^ 0x8000000000000000#64) = - f64Units x := by
  unfold f64Units unitsOf
  rw [magOf_xor_sign, negOf_toNat64, negOf_toNat64, BitVec.msb_xor]
  have : (0x8000000000000000#64).msb = true := by decide
  rw [this]
  cases x.msb <;> simp [signed]

theorem f64IsNaN_xor_sign (x : F64) : f64IsNaN (x ^^^ 0x8000000000000000#64) = f64IsNaN x := by
  unfold f64IsNaN isNaNPattern; rw [magOf_xor_sign]

/-! ## settled results, the clamp, RdRing -/

theorem settleNaN_bad (r x : F64) : f64IsNaN (settleNaN r true x) = true := by simp [settleNaN]

/-- CLAMP_HI answers a NaN only for a NaN, and otherwise at most 1.0 (40_numerics.md R129). -/
theorem clampHi_le {v : F64} (hv : f64IsNaN v = false) :
    f64IsNaN (clampHi Config.params v) = false ∧ f64Le (clampHi Config.params v) f64One = true := by
  unfold clampHi
  split
  · exact ⟨by decide, by decide⟩
  · rename_i h
    exact ⟨hv, f64Le_of_not_lt hv (by decide) (Bool.eq_false_iff.mpr h)⟩

/-- What RdRing can answer (20_memory.md R78). -/
theorem rdRing_oor (P : Params) (drawn : F64) (ring : Mem 64) (y : Int) :
    (rdRing P drawn ring y).oor = true ↔ ¬ (0 ≤ y ∧ y < (P.cap : Int)) := by
  unfold rdRing; split
  · rename_i h; exact ⟨fun h' => (Bool.false_ne_true h').elim, fun h' => absurd h h'⟩
  · rename_i h; split <;> exact ⟨fun _ => h, fun _ => rfl⟩

theorem rdRing_inside {P : Params} (drawn : F64) (ring : Mem 64) {y : Nat} (h : y < P.cap) :
    rdRing P drawn ring (y : Int) = ⟨ringRead ring y, false⟩ := by
  unfold rdRing; rw [if_pos (by omega)]; rfl

/-- INTERP of a finite delay is its two fetches (43_interpolated_read.md R190). -/
theorem interp_finite (P : Params) (δ : Draws) (k : Nat) (ring : Mem 64) (w : Nat) {d : F64}
    (h : f64IsFinite d = true) :
    interp P δ k ring w d = fetchTap P δ (k + 5) ring (f64ToInt (f64Floor (nan64 δ (k + 3))
      (readPosition P δ (k + 1) w d))) (f64Sub (nan64 δ (k + 4)) (readPosition P δ (k + 1) w d)
      (f64Floor (nan64 δ (k + 3)) (readPosition P δ (k + 1) w d))) := if_pos h

end Sys2Proof.Machine
end

