-- ==== Sys2Proof/Laws/Params.lean ====
section
/-! SUPPORT. Functions with the laws of TANH and of WAVE: what the open configuration functions of Config fall back
to has the laws that are asked of them (40_numerics.md R132, R136). -/

namespace Sys2Proof.Machine

/-- A binary64 number that is no zero is negative exactly when its sign bit is set. -/
theorem f64Units_neg_iff {x : F64} (h : f64Units x ≠ 0) : f64Units x < 0 ↔ x.msb = true := by
  unfold f64Units unitsOf at *
  rw [negOf_toNat64] at *
  cases x.msb <;> simp [signed] at * <;> omega

theorem unitBounded64_iff {r : F64} :
    unitBounded64 r = true ↔ f64IsNaN r = false ∧ -(oneUnits binary64 : Int) ≤ f64Units r ∧
      f64Units r ≤ oneUnits binary64 := by
  have h1 : f64IsNaN 0xBFF0000000000000#64 = false := by decide
  have h2 : f64IsNaN f64One = false := by decide
  have h3 : f64Units 0xBFF0000000000000#64 = -(oneUnits binary64 : Int) := by decide +kernel
  unfold unitBounded64
  rw [Bool.and_eq_true, f64Le_iff, f64Le_iff, h3, f64Units_one]
  exact ⟨fun h => ⟨h.1.2.1, h.1.2.2, h.2.2.2⟩, fun h => ⟨⟨h1, h.1, h.2.1⟩, h.1, h2, h.2.2⟩⟩

/-- What the sign function answers, by the number of its argument. -/
theorem tanhSign_units {x : F64} (h : f64IsNaN x = false) :
    f64IsNaN (Config.tanhSign x) = false ∧
      f64Units (Config.tanhSign x) =
        if f64Units x = 0 then 0 else if f64Units x < 0 then -(oneUnits binary64 : Int) else oneUnits binary64 := by
  have hm : f64IsNaN 0xBFF0000000000000#64 = false ∧
      f64Units 0xBFF0000000000000#64 = -(oneUnits binary64 : Int) := by decide +kernel
  have ho : f64IsNaN f64One = false := by decide
  unfold Config.tanhSign
  by_cases h0 : f64Units x = 0
  · rw [if_pos h0, if_pos (by rw [decide_eq_true h0, Bool.or_true])]
    exact ⟨h, h0⟩
  · rw [if_neg h0, if_neg (by rw [h, decide_eq_false h0]; decide)]
    by_cases hs : x.msb = true
    · rw [if_pos hs, if_pos ((f64Units_neg_iff h0).mpr hs)]; exact hm
    · rw [if_neg hs, if_neg (mt (f64Units_neg_iff h0).mp hs)]; exact ⟨ho, f64Units_one⟩

/-- The sign function has the laws of TANH. -/
theorem tanhSign_laws : TanhLaws Config.tanhSign := by
  have one := oneUnits_pos_int binary64
  refine ⟨fun x => ?_, fun x hx => ?_, fun x y h => ?_, by decide +kernel, by decide +kernel, fun x hx h => ?_⟩
  · cases hx : f64IsNaN x
    · obtain ⟨h1, h2⟩ := tanhSign_units hx
      simp only [Bool.false_eq_true, if_false, unitBounded64_iff, h1, h2, true_and]
      split
      · omega
      · split <;> omega
    · simp [Config.tanhSign, hx]
  · unfold Config.tanhSign
    rw [f64IsNaN_xor_sign, f64Units_xor_sign, hx, BitVec.msb_xor,
      (by decide : (0x8000000000000000#64).msb = true)]
    by_cases h0 : f64Units x = 0
    · simp [h0]
    · simp only [Int.neg_eq_zero, h0, decide_false, Bool.or_false, Bool.false_eq_true, if_false, Bool.xor_true]
      cases x.msb <;> decide
  · obtain ⟨hx, hy, hle⟩ := f64Le_iff.mp h
    obtain ⟨a1, a2⟩ := tanhSign_units hx
    obtain ⟨b1, b2⟩ := tanhSign_units hy
    refine f64Le_iff.mpr ⟨a1, b1, ?_⟩
    rw [a2, b2]
    split <;> split <;> (try split) <;> (try split) <;> omega
  · rw [(tanhSign_units hx).2] at h
    split at h
    · assumption
    · split at h <;> omega

/-- The constant 0, a NaN at a NaN, has the laws of WAVE. -/
theorem waveZero_laws : WaveLaws fun p => if f32IsNaN p then p else f32Zero := by
  have hb : unitBounded32 f32Zero = true := by decide
  refine ⟨fun p => ?_, fun p q hp hq _ => ?_⟩
  · cases hp : f32IsNaN p <;> simp [hp, hb]
  · simp [f32IsNaN_false_of_finite hp, f32IsNaN_false_of_finite hq]

end Sys2Proof.Machine
end

