-- ==== Sys2Proof/Laws/PerInstr.lean ====
section
/-! SUPPORT. One lemma for each command: it is well-formed, and its word decodes to it, as a word and as a word of
spec/opcode_table.json (30_encoding.md R90, R91). -/

namespace Sys2Proof.Laws.Codec

/-- The command is well-formed and its encoding decodes to it. -/
def Statement (i : Instr) : Prop :=
  i.wf = true ∧ decode (encode i) = .ok i ∧ decodeTableWord 32 (encode i).toNat = some i

theorem dlySetsr : Statement .dlySetsr := ⟨rfl, rfl, rfl⟩
theorem dlyReset : Statement .dlyReset := ⟨rfl, rfl, rfl⟩
theorem dlyProc : Statement .dlyProc := ⟨rfl, rfl, rfl⟩
theorem lfoSetsr : Statement .lfoSetsr := ⟨rfl, rfl, rfl⟩
theorem lfoReset : Statement .lfoReset := ⟨rfl, rfl, rfl⟩
theorem lfoProc : Statement .lfoProc := ⟨rfl, rfl, rfl⟩
theorem lfoGetbuf : Statement .lfoGetbuf := ⟨rfl, rfl, rfl⟩

end Sys2Proof.Laws.Codec
end

