-- ==== Sys2Proof/Laws/Steps.lean ====
section
/-! SUPPORT. A step by the host's next move, runs of steps, what a busy core's moves leave as they are, and a command
by the three cases of its gate. -/

namespace Sys2Proof.Machine

/-! ## steps and runs -/

theorem step_cons {s : State} {m : HostMove} {rest : List HostMove} (h : s.host = m :: rest) :
    step s = hostMove Config.params exec m { s with host := rest } := by
  unfold step hostStep; rw [h]

theorem step_nil {s : State} (h : s.host = []) : step s = .next (waitMove Config.params s) := by
  unfold step hostStep; rw [h]

@[simp] theorem run_zero (s : State) : Host.Core.run Sys2Proof.core 0 s = .next s := rfl

/-- A run of one more step of any machine, by what the first step answers. -/
theorem coreRun_succ (M : Host.Core) (n : Nat) (s : M.State) (o : Host.Outcome M.State M.Fault M.Refusal)
    (h : M.step s = o) :
    M.run (n + 1) s =
      Host.Outcome.casesOn o (fun t => M.run n t) (fun r => .fault r) (fun r => .refused r) := by
  rw [Host.Core.run, h]
  cases o <;> rfl

/-- A run of one more step, by what the first step answers. -/
theorem run_succ_eq (n : Nat) (s : State) (o : Host.Outcome State Fault Refusal) (h : step s = o) :
    Host.Core.run Sys2Proof.core (n + 1) s =
      Host.Outcome.casesOn o (fun t => Host.Core.run Sys2Proof.core n t) (fun r => .fault r) (fun r => .refused r) :=
  coreRun_succ Sys2Proof.core n s o h

/-- A run whose first step is known. -/
theorem run_succ {s t : State} (n : Nat) (h : step s = .next t) :
    Host.Core.run Sys2Proof.core (n + 1) s = Host.Core.run Sys2Proof.core n t :=
  run_succ_eq n s _ h

/-- A run of one step. -/
theorem run_one (s : State) : Host.Core.run Sys2Proof.core 1 s = step s := by
  rw [run_succ_eq 0 s _ rfl]
  cases step s <;> rfl

/-- A run in two parts. -/
theorem run_add {s t : State} (m n : Nat) (h : Host.Core.run Sys2Proof.core m s = .next t) :
    Host.Core.run Sys2Proof.core (m + n) s = Host.Core.run Sys2Proof.core n t := by
  induction m generalizing s with
  | zero =>
    rw [run_zero] at h
    injection h with h
    rw [Nat.zero_add, h]
  | succ m ih =>
    rw [run_succ_eq m s _ rfl] at h
    cases hs : step s with
    | next u =>
      rw [hs] at h
      rw [Nat.add_right_comm, run_succ (m + n) hs]
      exact ih h
    | fault r => rw [hs] at h; cases h
    | refused r => rw [hs] at h; cases h

/-! ## a busy core's moves -/

@[simp] theorem advance_regs (P : Params) (s : State) : (advance P s).regs = s.regs :=
  advance_keeps (Inv := fun t => t.regs = s.regs) (fun i _ h => by cases i <;> exact h)
    (fun i _ h => by cases i <;> exact h) (fun _ h => h) rfl

@[simp] theorem advance_host (P : Params) (s : State) : (advance P s).host = s.host :=
  advance_keeps (Inv := fun t => t.host = s.host) (fun i _ h => by cases i <;> exact h)
    (fun i _ h => by cases i <;> exact h) (fun _ h => h) rfl

@[simp] theorem advance_hostData (P : Params) (s : State) : (advance P s).hostData = s.hostData :=
  advance_keeps (Inv := fun t => t.hostData = s.hostData) (fun i _ h => by cases i <;> exact h)
    (fun i _ h => by cases i <;> exact h) (fun _ h => h) rfl

@[simp] theorem advance_rst (P : Params) (s : State) : (advance P s).rst = s.rst :=
  advance_keeps (Inv := fun t => t.rst = s.rst) (fun i _ h => by cases i <;> exact h)
    (fun i _ h => by cases i <;> exact h) (fun _ h => h) rfl

@[simp] theorem advance_fault (P : Params) (s : State) : (advance P s).status.fault = s.status.fault :=
  advance_keeps (Inv := fun t => t.status.fault = s.status.fault) (fun i _ h => by cases i <;> exact h)
    (fun i _ h => by cases i <;> exact h) (fun _ h => h) rfl

@[simp] theorem advance_cause (P : Params) (s : State) : (advance P s).status.cause = s.status.cause :=
  advance_keeps (Inv := fun t => t.status.cause = s.status.cause) (fun i _ h => by cases i <;> exact h)
    (fun i _ h => by cases i <;> exact h) (fun _ h => h) rfl

@[simp] theorem advance_info (P : Params) (s : State) : (advance P s).status.info = s.status.info :=
  advance_keeps (Inv := fun t => t.status.info = s.status.info) (fun i _ h => by cases i <;> exact h)
    (fun i _ h => by cases i <;> exact h) (fun _ h => h) rfl

/-- OOR stays set through any move of a busy core. -/
theorem advance_oor (P : Params) {s : State} (h : s.status.oor = true) : (advance P s).status.oor = true :=
  advance_keeps (Inv := fun t => t.status.oor = true)
    (fun i t h => by
      cases i
      case dlyProc => show (_ || _) = true; rw [h]; rfl
      all_goals exact h)
    (fun i _ h => by cases i <;> exact h) (fun _ h => h) h

@[simp] theorem abandon_regs (P : Params) (s : State) : (abandon P s).regs = s.regs :=
  repeatStep_const State.regs (advance_regs P) _ _

@[simp] theorem abandon_rst (P : Params) (s : State) : (abandon P s).rst = s.rst :=
  repeatStep_const State.rst (advance_rst P) _ _

@[simp] theorem abandon_host (P : Params) (s : State) : (abandon P s).host = s.host :=
  repeatStep_const State.host (advance_host P) _ _

@[simp] theorem abandon_hostData (P : Params) (s : State) : (abandon P s).hostData = s.hostData :=
  repeatStep_const State.hostData (advance_hostData P) _ _

theorem abandon_oor (P : Params) {s : State} (h : s.status.oor = true) : (abandon P s).status.oor = true :=
  abandon_keeps (Inv := fun t => t.status.oor = true) (fun _ => advance_oor P) (fun _ _ h => h) h

/-! ## a BUSY_VIOLATION -/

@[simp] theorem busyViolation_regs (P : Params) (s : State) : (busyViolation P s).regs = s.regs := abandon_regs P s

@[simp] theorem busyViolation_rst (P : Params) (s : State) : (busyViolation P s).rst = s.rst := abandon_rst P s

@[simp] theorem busyViolation_host (P : Params) (s : State) : (busyViolation P s).host = s.host := abandon_host P s

@[simp] theorem busyViolation_hostData (P : Params) (s : State) : (busyViolation P s).hostData = s.hostData :=
  abandon_hostData P s

@[simp] theorem busyViolation_xmem (P : Params) (s : State) : (busyViolation P s).xmem = interruptedXmem s := rfl

@[simp] theorem busyViolation_result (P : Params) (s : State) : (busyViolation P s).result = (abandon P s).result := rfl

@[simp] theorem busyViolation_status (P : Params) (s : State) : (busyViolation P s).status =
    { busy := false, fault := true, oor := (abandon P s).status.oor, cause := .busyViolation, info := 0 } := rfl

/-! ## a command by the cases of its gate -/

/-- A faulted core, or one held in reset, ignores a command (60_exceptions.md R241, 70_reset_and_hazards.md R260). -/
theorem exec_deaf {s : State} (h : Deaf s) (i : Instr) : exec i s = .next s := by
  rw [exec_eq]
  cases i <;> simp only [dlySetsrWith, dlyResetWith, dlyProcWith, lfoSetsrWith, lfoResetWith, lfoProcWith,
    lfoGetbufWith, issueSimple, issue, accept, gate_deaf _ _ h]

/-- A command written while BUSY is a BUSY_VIOLATION (60_exceptions.md R233). -/
theorem exec_violated {s : State} (h : Violated s) (i : Instr) :
    exec i s = .next (busyViolation Config.params s) := by
  rw [exec_eq]
  cases i <;> simp only [dlySetsrWith, dlyResetWith, dlyProcWith, lfoSetsrWith, lfoResetWith, lfoProcWith,
    lfoGetbufWith, issueSimple, issue, accept, gate_violated _ _ h]

/-- The same of a command to be left running. -/
theorem beginCommand_deaf (P : Params) {s : State} (h : Deaf s) (i : Instr) : beginCommand P i s = s := by
  rw [beginCommand, accept, gate_deaf P _ h]

theorem beginCommand_violated (P : Params) {s : State} (h : Violated s) (i : Instr) :
    beginCommand P i s = busyViolation P s := by
  rw [beginCommand, accept, gate_violated P _ h]

/-- Everything DLY.PROC can do in an idle core: a fault at issue, or the block. -/
theorem dlyProc_cases (P : Params) {s : State} (hi : Idle s) :
    (¬ DlyProcReady P s ∧ ∃ r, dlyProcWith P s = raiseFault r s) ∨
    (DlyProcReady P s ∧
      dlyProcWith P s = setBusy false (repeatStep (dlySample P) s.regs.count.toNat
        (startDlyBlock P (setBusy true (latch (encode .dlyProc) s))))) := by
  cases h : checkDlyProc P (latch (encode .dlyProc) s) with
  | none =>
    refine .inr ⟨(checkDlyProc_eq_none _ hi).mp h, ?_⟩
    rw [dlyProcWith, issue_accepted _ _ _ _ _ _ _ hi h]; rfl
  | some r =>
    refine .inl ⟨fun hr => ?_, r, ?_⟩
    · rw [checkDlyProc_ready _ hr] at h; cases h
    · rw [dlyProcWith, issue_refused _ _ _ _ _ _ _ hi h]

/-- Everything LFO.PROC can do in an idle core: a fault at issue, or the block. -/
theorem lfoProc_cases (P : Params) {s : State} (hi : Idle s) :
    (¬ LfoProcReady P s ∧ ∃ r, lfoProcWith P s = raiseFault r s) ∨
    (LfoProcReady P s ∧
      lfoProcWith P s = setBusy false (endLfoBlock (repeatStep (lfoSample P) s.regs.count.toNat
        (setBusy true (latch (encode .lfoProc) s))))) := by
  cases h : checkLfoProc P (latch (encode .lfoProc) s) with
  | none =>
    refine .inr ⟨(checkLfoProc_eq_none _ hi).mp h, ?_⟩
    rw [lfoProcWith, issue_accepted _ _ _ _ _ _ _ hi h]; rfl
  | some r =>
    refine .inl ⟨fun hr => ?_, r, ?_⟩
    · rw [checkLfoProc_ready _ hr] at h; cases h
    · rw [lfoProcWith, issue_refused _ _ _ _ _ _ _ hi h]

/-- Everything a bus write can do: nothing in a core that ignores the bus, a BUSY_VIOLATION in a busy one; in an idle
one a CMD write runs its command or raises ILLEGAL_CMD, and a write of another register changes the operand
registers. -/
theorem busWrite_cases (a : RegAddr) (d : BusData) (s : State) :
    (Deaf s ∧ busWrite Config.params exec a d s = .next s) ∨
    (Violated s ∧ busWrite Config.params exec a d s = .next (busyViolation Config.params s)) ∨
    (Idle s ∧ regAt a = .cmd ∧ ∃ i, decode (busWord d) = .ok i ∧ busWrite Config.params exec a d s = exec i s) ∨
    (Idle s ∧ regAt a = .cmd ∧ (∃ e, decode (busWord d) = .error e) ∧
      busWrite Config.params exec a d s = .next (raiseFault ⟨.illegalCmd, 0⟩ s)) ∨
    (Idle s ∧ regAt a ≠ .cmd ∧ busWrite Config.params exec a d s = .next (writeRegister (regAt a) d s)) := by
  unfold busWrite writeCommand
  rcases gate_states s with h | h | h
  · refine .inl ⟨h, ?_⟩
    cases decode (busWord d) <;> simp only [gate_deaf _ _ h, exec_deaf h, ite_self]
  · refine .inr (.inl ⟨h, ?_⟩)
    cases decode (busWord d) <;> simp only [gate_violated _ _ h, exec_violated h, ite_self]
  · by_cases ha : regAt a = .cmd
    · simp only [if_pos ha]
      cases hd : decode (busWord d) with
      | ok i => exact .inr (.inr (.inl ⟨h, ha, i, rfl, rfl⟩))
      | error e => exact .inr (.inr (.inr (.inl ⟨h, ha, ⟨e, rfl⟩, by rw [gate_idle _ _ h]⟩)))
    · simp only [if_neg ha]
      exact .inr (.inr (.inr (.inr ⟨h, ha, by rw [gate_idle _ _ h]⟩)))

/-- Everything a CMD write that leaves its command running can do. -/
theorem startWrite_cases (P : Params) (w : CmdWord) (s : State) :
    (Deaf s ∧ startWrite P w s = s) ∨
    (Violated s ∧ startWrite P w s = busyViolation P s) ∨
    (Idle s ∧ ∃ i, decode w = .ok i ∧ startWrite P w s = beginCommand P i s) ∨
    (Idle s ∧ (∃ e, decode w = .error e) ∧ startWrite P w s = raiseFault ⟨.illegalCmd, 0⟩ s) := by
  unfold startWrite
  rcases gate_states s with h | h | h
  · refine .inl ⟨h, ?_⟩
    cases decode w <;> simp only [gate_deaf _ _ h, beginCommand_deaf P h]
  · refine .inr (.inl ⟨h, ?_⟩)
    cases decode w <;> simp only [gate_violated _ _ h, beginCommand_violated P h]
  · cases hd : decode w with
    | ok i => exact .inr (.inr (.inl ⟨h, i, rfl, rfl⟩))
    | error e => exact .inr (.inr (.inr ⟨h, ⟨e, rfl⟩, by simp only [gate_idle _ _ h]⟩))

/-- A read of a core that is not held in reset (20_memory.md R64). -/
theorem busRead_released (P : Params) (a : RegAddr) {s : State} (h : s.rst = false) :
    busRead P a s = { s with hostData := readRegister s (regAt a) } := by simp [busRead, h]

/-- A read of a core held in reset answers a draw (70_reset_and_hazards.md R260). -/
theorem busRead_held (P : Params) (a : RegAddr) {s : State} (h : s.rst = true) :
    busRead P a s = { s with hostData := P.draw s.drawCount 0, drawCount := s.drawCount + 1 } := by simp [busRead, h]

/-- A read changes nothing of the core or of XMEM, only what the host has and the count of draws. -/
theorem busRead_frame (P : Params) (a : RegAddr) (s : State) :
    busRead P a s = { s with hostData := (busRead P a s).hostData, drawCount := (busRead P a s).drawCount } := by
  unfold busRead; split <;> rfl

/-! ## rst -/

/-- What assertion of rst leaves: everything inside the core as `resetCore` has it, XMEM as the interrupted command
leaves it. -/
theorem assertReset_eq (P : Params) (s : State) :
    assertReset P s = { resetCore P true s with xmem := if s.status.busy then interruptedXmem s else s.xmem } := by
  unfold assertReset; split <;> rfl

theorem releaseReset_held (P : Params) {s : State} (h : s.rst = true) : releaseReset P s = resetCore P false s := by
  simp [releaseReset, h]

/-- Outside the output range of a running DLY.PROC, rst leaves every element of XMEM as it was; inside, each reads as
a draw. -/
theorem xmemRead_assertReset (P : Params) (s : State) (k : Nat) (r : F64) :
    (¬ InRunningOutput s k → xmemRead r (assertReset P s).xmem k = xmemRead r s.xmem k) ∧
    (InRunningOutput s k → xmemRead r (assertReset P s).xmem k = r) := by
  rw [assertReset_eq]
  cases hb : s.status.busy
  · simp [InRunningOutput, Runs, hb]
  · exact xmemRead_interruptedXmem hb k r

end Sys2Proof.Machine
end

