-- ==== Sys2Proof/Laws/Registers.lean ====
section
/-! SUPPORT. The register map: addresses and names, what a bus write leaves in each register, and the bus writes of
a command line's operands one by one (10_state.md section 5, 30_encoding.md R102). -/

namespace Sys2Proof.Machine

@[simp] theorem regAt_addrOf (n : RegName) : regAt (addrOf n) = n := by cases n <;> rfl

theorem registerOf_ne_cmd (o : OperandName) : registerOf o ≠ .cmd := by cases o <;> simp [registerOf]

theorem registerOf_injective {a b : OperandName} (h : registerOf a = registerOf b) : a = b := by
  cases a <;> cases b <;> first | rfl | cases h

/-- A write of one operand register, read back: its own value, a 32-bit one truncated; every other register as it
was. -/
theorem readRegister_writeOperand (s : State) (r : OperandRegs) (d : BusData) (o : OperandName) (m : RegName) :
    readRegister { s with regs := writeOperand r d (registerOf o) } m =
      if m = registerOf o then (if operandWidth o = 64 then d else (d.setWidth 32).setWidth 64)
      else readRegister { s with regs := r } m := by
  cases o <;> cases m <;> rfl

/-- The step of a bus write. -/
theorem step_writeReg {s : State} {a : RegAddr} {d : BusData} {rest : List HostMove}
    (h : s.host = .writeReg a d :: rest) :
    step s = busWrite Config.params exec a d { s with host := rest } := step_cons h

/-- The step of an operand's bus write in an idle core. -/
theorem step_expandOperand {s : State} {o : LineOperand} {rest : List HostMove} (hi : Idle s)
    (h : s.host = expandOperand o :: rest) :
    step s = .next { s with regs := writeOperand s.regs o.value (registerOf o.name), host := rest } := by
  rw [step_writeReg h, busWrite, regAt_addrOf, if_neg (registerOf_ne_cmd _),
    gate_idle _ _ (s := { s with host := rest }) hi]
  rfl

/-- The step of a command's issue. -/
theorem step_issueMove {s : State} {i : Instr} {rest : List HostMove} (h : s.host = issueMove i :: rest) :
    step s = exec i { s with host := rest } := by
  rw [step_writeReg h, busWrite, if_pos (regAt_addrOf _)]
  unfold writeCommand
  have : busWord ((encode i).setWidth 64) = encode i := by cases i <;> rfl
  rw [this, decode_encode]

end Sys2Proof.Machine
end

