-- ==== Sys2Proof/Tests/Slice0.lean ====
section
/-! SUPPORT. Tests and witnesses. The expected results are those of spec/95_test_vectors.md, which derives them from
the rules by hand; each test names its row. The witnesses (test_witness_…) show that the hypotheses of an obligation
can be met together. -/

namespace Sys2Proof.Tests

open Sys2Proof.Machine

/-! ## the parameter record T1 of 95_test_vectors.md section 0 -/

/-- WAVE_SAW: p - floor(p). -/
def sawWave (p : F32) : F32 := f32Sub 0x7FC00000#32 p (f32Floor 0x7FC00000#32 p)

/-- T1 with XMEM_SIZE = 48, CAP = 8 and the drawn value 7FF80000DEADBEEF. -/
def t1 (mode : WrapMode) : Params where
  cap := 8
  xmemSize := 48
  srUnconf := 0xBFF0000000000000#64
  kFine := f64One
  kGeneric := f64One
  fbClamp := f64One
  fbGainMax := 0x3FEFAE147AE147AE#64
  baseDelayS := 0x3F70000000000000#64
  modDepthS := 0x3F60000000000000#64
  driveMax := 0x4024000000000000#64
  scFloor := 0x3F50000000000000#64
  scPowerOn := 0x3F50000000000000#64
  softclip := .identity
  tanh := Config.tanhSign
  tanhUlp := 1
  wave := .configured sawWave
  sin := fun _ => f64Zero
  wrapMode := mode
  oorPolicy := .draw
  byteOrder := .little
  draw := fun _ _ => 0x7FF80000DEADBEEF#64

/-- T1 with the default SOFTCLIP and WAVE. -/
def t1Default : Params := { t1 .corrected with softclip := .tanhRatio, wave := .sine }

/-- An idle core of record P, both sample rates 512.0, after its reset commands. -/
def ready (P : Params) : State :=
  { State.resetWith P with
    dly := { (State.resetWith P).dly with sampleRate := 0x4080000000000000#64, softClipSmoothed := P.scFloor }
    lfo := { (State.resetWith P).lfo with sampleRate := 0x4080000000000000#64 } }

/-- The modelled core, both sample rates 512.0. -/
def start : State := ready Config.params

/-! ## decoding: words written out from the fields of 30_encoding.md R90, ZERO ++ UNIT ++ FUNC -/

theorem test_decode_dlySetsr : decode (0x000000#24 ++ 0b0000#4 ++ 0b0001#4) = .ok .dlySetsr := rfl
theorem test_decode_dlyReset : decode (0x000000#24 ++ 0b0000#4 ++ 0b0010#4) = .ok .dlyReset := rfl
theorem test_decode_dlyProc : decode (0x000000#24 ++ 0b0000#4 ++ 0b0011#4) = .ok .dlyProc := rfl
theorem test_decode_lfoSetsr : decode (0x000000#24 ++ 0b0001#4 ++ 0b0001#4) = .ok .lfoSetsr := rfl
theorem test_decode_lfoReset : decode (0x000000#24 ++ 0b0001#4 ++ 0b0010#4) = .ok .lfoReset := rfl
theorem test_decode_lfoProc : decode (0x000000#24 ++ 0b0001#4 ++ 0b0011#4) = .ok .lfoProc := rfl
theorem test_decode_lfoGetbuf : decode (0x000000#24 ++ 0b0001#4 ++ 0b0100#4) = .ok .lfoGetbuf := rfl

/-- The illegal words of 95_test_vectors.md section 2.1, each rejected by name. -/
theorem test_decode_illegal :
    decode 0x00000000#32 = .error .noSuchFunction ∧ decode 0x00000004#32 = .error .noSuchFunction ∧
    decode 0x00000005#32 = .error .noSuchFunction ∧ decode 0x00000010#32 = .error .noSuchFunction ∧
    decode 0x00000015#32 = .error .noSuchFunction ∧ decode 0x00000021#32 = .error .noSuchUnit ∧
    decode 0x00000103#32 = .error .zeroFieldSet ∧ decode 0x80000003#32 = .error .zeroFieldSet ∧
    decode 0xFFFFFFFF#32 = .error .zeroFieldSet := ⟨rfl, rfl, rfl, rfl, rfl, rfl, rfl, rfl, rfl⟩

/-- A CMD write looks at data bits [31:0] alone (section 2.1). -/
theorem test_upper_half : busWord 0x0000000100000003#64 = 0x00000003#32 := by decide

/-- The expansion of LFO.PROC n=4 rate=64.0 depth=1.0 phoff=0.0 (section 2.1). -/
theorem test_expand :
    expand ⟨.lfoProc, [⟨.n, 4⟩, ⟨.rate, 0x42800000⟩, ⟨.depth, 0x3F800000⟩, ⟨.phoff, 0⟩]⟩ =
      [.writeReg 0x2 0x00000004, .writeReg 0xC 0x42800000, .writeReg 0xD 0x3F800000, .writeReg 0xE 0,
       .writeReg 0x0 0x00000013] := by decide

/-- The handles X:12, L:0, L:2 and X:2147483647 (section 2.1). -/
theorem test_handles :
    xmemHandle 12 = 0x0000000C#32 ∧ lfoHandle 0 = 0x80000000#32 ∧ lfoHandle 2 = 0x80000002#32 ∧
    xmemHandle 2147483647 = 0x7FFFFFFF#32 := by decide

/-! ## well-formedness: a term each check refuses -/

theorem test_wf_instr : (Instr.dlyProc).wf = true := rfl
theorem test_wf_line : (CmdLine.mk .lfoProc [⟨.n, 4⟩, ⟨.rate, 0x42800000⟩]).wf = true := by decide
theorem test_wf_operand_not_of_command : (CmdLine.mk .lfoProc [⟨.sr, 0⟩]).wf = false := by decide
theorem test_wf_operand_twice : (CmdLine.mk .dlySetsr [⟨.sr, 0⟩, ⟨.sr, 0⟩]).wf = false := by decide
theorem test_wf_value_too_wide : (CmdLine.mk .lfoProc [⟨.n, 0x100000000⟩]).wf = false := by decide
theorem test_wf_block_too_long :
    (ChorusBlock.mk 9 0 0 0 0 0 0 0 0 0 0).wf (t1 .corrected) = false ∧
    (ChorusBlock.mk 8 0 0 0 0 0 0 0 0 0 0).wf (t1 .corrected) = true := by decide

/-! ## numeric functions: rows of 95_test_vectors.md section 2.2 -/

theorem test_smooth :
    smooth (fun _ => 0) 0 0x3FD0000000000000#64 f64One 0x3FD0000000000000#64 = 0x3FDC000000000000#64 ∧
    smooth (fun _ => 0) 0 0x3F50000000000000#64 f64One 0x3FD0000000000000#64 = 0x3FD00C0000000000#64 := by
  decide +kernel

theorem test_clampHi_mapFb :
    clampHi (t1 .corrected) 0x7FF0000000000000#64 = f64One ∧
    clampHi (t1 .corrected) 0xC000000000000000#64 = 0xC000000000000000#64 ∧
    mapFb (t1 .corrected) (fun _ => 0) 0 0x3FE8000000000000#64 = 0x3FE7C28F5C28F5C2#64 ∧
    mapFb (t1 .corrected) (fun _ => 0) 0 0xBFD0000000000000#64 = 0xBFCFAE147AE147AE#64 := by decide +kernel

theorem test_lerp_xfade :
    lerp (fun _ => 0) 0 0x4031000000000000#64 0x4024000000000000#64 0x3FE4000000000000#64 =
      0x4029400000000000#64 ∧
    xfade (fun _ => 0) 0 0x4010000000000000#64 0x3FE4000000000000#64 0x3FE0000000000000#64 =
      0x4002800000000000#64 := by decide +kernel

/-- SOFTCLIP_ID: x at every drive (section 2.2), a NaN drive included (log entry 9). -/
theorem test_softClip_id (drive : F64) : softClip (t1 .corrected) (fun _ => 0) 0 f64One drive = f64One := rfl

/-- DRIVE_MAX = 10.0. -/
theorem test_mapDrive : mapDrive (t1 .corrected) (fun _ => 0) 0 0x3FE0000000000000#64 = 0x4014000000000000#64 := by
  decide +kernel

/-- RdBuf(L:2, 1) is widen(LFOBUF[3]), and RdBuf(X:2, 1) is XMEM[3] (20_memory.md R65, R77): 0.125 in binary32 is
3E000000, in binary64 3FC0000000000000. -/
theorem test_rdBuf :
    let s := { ready (t1 .asSource) with
      lfo := { (ready (t1 .asSource)).lfo with valid := 4, buf := [(2, 0x3F800000#32), (3, 0x3E000000#32)] }
      xmem := [(2, f64One), (3, 0x4000000000000000#64)] }
    rdBuf 0 (lfoHandle 2) 1 s = 0x3FC0000000000000#64 ∧ rdBuf 0 (xmemHandle 2) 1 s = 0x4000000000000000#64 := by
  decide +kernel

theorem test_phaseWrap :
    phaseWrap (fun _ => 0) 0 0x3F900000#32 = 0x3E000000#32 ∧ phaseWrap (fun _ => 0) 0 0xBE000000#32 = 0x3F600000#32 ∧
    phaseWrap (fun _ => 0) 0 0xAEDBE6FF#32 = f32Zero ∧ phaseWrap (fun _ => 0) 0 f32One = f32Zero := by decide +kernel

/-! ## one step each -/

/-- DLY.SETSR sr=512.0 after reset. -/
theorem test_dlySetsr :
    (dlySetsrWith (t1 .asSource) { State.resetWith (t1 .asSource) with
      regs := { OperandRegs.reset with sr := 0x4080000000000000 } }).dly.sampleRate = 0x4080000000000000#64 := by decide

/-- DLY.RESET keeps the write index and sets softClipSmoothed to SC_FLOOR (section 2.3). -/
theorem test_dlyReset :
    (dlyResetWith (t1 .asSource) { ready (t1 .asSource) with
      dly := { (ready (t1 .asSource)).dly with writeIndex := 4, feedbackSample := f64One, ring := [(2, f64One)] } }).dly
      = { (ready (t1 .asSource)).dly with writeIndex := 4 } := by decide

/-- LFO.SETSR takes SR (program P2). -/
theorem test_lfoSetsr :
    (lfoSetsrWith (t1 .asSource) { State.resetWith (t1 .asSource) with
      regs := { OperandRegs.reset with sr := 0x4080000000000000 } }).lfo.sampleRate = 0x4080000000000000#64 := by decide

/-- LFO.RESET keeps the sample rate. -/
theorem test_lfoReset :
    (lfoResetWith (t1 .asSource) { ready (t1 .asSource) with
      lfo := { (ready (t1 .asSource)).lfo with phase := 0x3E800000#32, valid := 2, buf := [(1, 0x3E000000#32)] } }).lfo
      = (ready (t1 .asSource)).lfo := by decide

/-- LFO.GETBUF (program P2). -/
theorem test_lfoGetbuf : (lfoGetbufWith (t1 .asSource) (ready (t1 .asSource))).result = 0x80000000#32 := by decide

/-- LFO.PROC n=2 rate=64.0 depth=1.0 phoff=0.0: 0.0, 0.125, phase 0.25, LFO_VALID 2 (program P4). -/
theorem test_lfoProc :
    (lfoProcWith (t1 .asSource) { ready (t1 .asSource) with
      regs := { OperandRegs.reset with count := 2, lfoRate := 0x42800000, lfoDepth := 0x3F800000 } }).lfo =
    { (ready (t1 .asSource)).lfo with phase := 0x3E800000#32, valid := 2, buf := [(1, 0x3E000000#32)] } := by
  decide +kernel

/-- A block of one sample at write index w: IN 0.0, MOD 0.5, ENV 0.0, OUT X:36, wet 1.0, d = 2.5 (program P3). -/
def blockState (mode : WrapMode) (w : Nat) : State :=
  { ready (t1 mode) with
    dly := { (ready (t1 mode)).dly with writeIndex := w, ring := [(0, f64One)] }
    xmem := [(0, f64Zero), (1, 0x3FE0000000000000#64), (2, f64Zero)]
    regs := { OperandRegs.reset with
      count := 1, hIn := 0, hMod := 1, hEnv := 2, hOut := 36, wetDry := 0x3FF0000000000000 } }

/-- DLY.PROC, row i = 3 of program P3: the tap is half of RING[0]; OUT 0.5, w 4, no OOR, in either mode. -/
theorem test_dlyProc (mode : WrapMode) :
    xmemRead 0 (dlyProcWith (t1 mode) (blockState mode 3)).xmem 36 = 0x3FE0000000000000#64 ∧
    (dlyProcWith (t1 mode) (blockState mode 3)).dly.writeIndex = 4 ∧
    (dlyProcWith (t1 mode) (blockState mode 3)).dly.timeSmoothed = 0x3F74000000000000#64 ∧
    (dlyProcWith (t1 mode) (blockState mode 3)).status.oor = false := by cases mode <;> decide +kernel

/-- DLY.PROC, row i = 4 of program P3: as_source reads out of range and sets OOR; corrected gives 0.5. -/
theorem test_dlyProc_wrap :
    (dlyProcWith (t1 .asSource) (blockState .asSource 4)).status.oor = true ∧
    (dlyProcWith (t1 .corrected) (blockState .corrected 4)).status.oor = false ∧
    xmemRead 0 (dlyProcWith (t1 .corrected) (blockState .corrected 4)).xmem 36 = 0x3FE0000000000000#64 := by
  decide +kernel

/-- A register write in the middle of DLY.PROC n=1 out=X:36: STATUS is 0x00000202 (section 2.7), the operand register
keeps its value, OUT and RING hold draws, XMEM outside OUT is as it was. -/
theorem test_busyViolation :
    let s := { blockState .corrected 3 with
      seq := { cmd := 0x03, ops := (blockState .corrected 3).regs, i := 0, drive := 0 }
      status := { busy := true, fault := false, oor := false, cause := .none, info := 0 }
      xmem := (blockState .corrected 3).xmem ++ [(36, f64One), (37, f64One)] }
    let t := gate (t1 .corrected) (writeRegister .count 7) s
    statusWord t.status = 0x00000202#32 ∧ t.regs.count = 1 ∧ t.xmem = (blockState .corrected 3).xmem ++ [(37, f64One)] ∧
      (∀ k < 8, ringRead t.dly.ring k = 0x7FF80000DEADBEEF#64) := by decide +kernel

/-- STATUS after refused commands: program P4 and section 2.7. -/
theorem test_faults :
    statusWord (dlyProcWith (t1 .asSource) (State.resetWith (t1 .asSource))).status = 0x00000302#32 ∧
    statusWord (lfoProcWith (t1 .asSource) (State.resetWith (t1 .asSource))).status = 0x00000402#32 ∧
    statusWord (dlyProcWith (t1 .asSource) { ready (t1 .asSource) with
      regs := { OperandRegs.reset with count := 4, hMod := 0x80000000, hOut := 12 } }).status = 0x00002702#32 ∧
    statusWord (dlyProcWith (t1 .asSource) { ready (t1 .asSource) with
      regs := { OperandRegs.reset with count := 4, hIn := 47, hOut := 0x80000000 } }).status = 0x00004602#32 := by
  decide +kernel

/-- The word withFetchWord places is what the next step runs. -/
theorem test_withFetchWord : step (State.reset.withFetchWord 32 0x14) = exec .lfoGetbuf State.reset := rfl

/-! ## witnesses: facts used below -/

theorem cap_pos : 1 ≤ Config.params.cap := Nat.le_add_left 1 _
theorem cap_le : Config.params.cap ≤ 2 ^ 31 - 1 := by
  show Config.capRaw % (2 ^ 31 - 1) + 1 ≤ _; omega
theorem xmemSize_le : Config.params.xmemSize ≤ 2 ^ 31 := by
  show Config.xmemSizeRaw % (2 ^ 31 + 1) ≤ _; omega
theorem configured_512 : Configured 0x4080000000000000#64 := by decide
theorem feedbackClamped_zero : FeedbackClamped f64Zero := .inr (by decide)
theorem phaseInRange_zero : PhaseInRange f32Zero := .inr ⟨by decide, by decide⟩

/-- An idle state of record P with any host moves, and operand registers, meets the invariant. -/
theorem ready_inv (P : Params) (hP : 1 ≤ P.cap) (r : OperandRegs) (h : List HostMove) :
    CoreInv P { ready P with regs := r, host := h } :=
  ⟨fun h => (Bool.false_ne_true h).elim, fun h => (Bool.false_ne_true h).elim, hP, fun _ => feedbackClamped_zero, fun _ => phaseInRange_zero, Nat.zero_le _, MemInv.nil _ _, MemInv.nil _ _, MemInv.nil _ _,
    ⟨rfl, rfl⟩⟩

theorem fits_lfo {P : Params} {s : State} {h : Handle} {n : Nat} (hm : h.msb = true)
    (hle : handleBase h + n ≤ s.lfo.valid) : Fits P s h n := by unfold Fits; rw [if_pos hm]; exact hle

theorem fits_xmem {P : Params} {s : State} {h : Handle} {n : Nat} (hm : h.msb = false)
    (hle : handleBase h + n ≤ P.xmemSize) : Fits P s h n := by
  unfold Fits; rw [if_neg (by rw [hm]; decide)]; exact hle

theorem not_fits_lfo {P : Params} {s : State} {h : Handle} {n : Nat} (hm : h.msb = true)
    (hlt : s.lfo.valid < handleBase h + n) : ¬ Fits P s h n := by
  unfold Fits; rw [if_pos hm]; exact Nat.not_le.mpr hlt

theorem not_fits_xmem {P : Params} {s : State} {h : Handle} {n : Nat} (hm : h.msb = false)
    (hlt : P.xmemSize < handleBase h + n) : ¬ Fits P s h n := by
  unfold Fits; rw [if_neg (by rw [hm]; decide)]; exact Nat.not_le.mpr hlt

/-- COUNT = 0 and the handles L:0, L:0, L:0, X:0. -/
def emptyOps : OperandRegs :=
  { OperandRegs.reset with hIn := 0x80000000, hMod := 0x80000000, hEnv := 0x80000000 }

/-- With them DLY.PROC passes its checks. -/
theorem emptyOps_ready (h : List HostMove) : DlyProcReady Config.params { start with regs := emptyOps, host := h } where
  idle := ⟨rfl, rfl, rfl⟩
  rate := configured_512
  out := (by decide : emptyOps.hOut.msb = false)
  fitsIn := fits_lfo (by decide : emptyOps.hIn.msb = true)
    (by decide : handleBase emptyOps.hIn + emptyOps.count.toNat ≤ 0)
  fitsMod := fits_lfo (by decide : emptyOps.hMod.msb = true)
    (by decide : handleBase emptyOps.hMod + emptyOps.count.toNat ≤ 0)
  fitsEnv := fits_lfo (by decide : emptyOps.hEnv.msb = true)
    (by decide : handleBase emptyOps.hEnv + emptyOps.count.toNat ≤ 0)
  fitsOut := fits_xmem (by decide : emptyOps.hOut.msb = false) (Nat.zero_le _)

/-- COUNT = 1, LFO_RATE = LFO_DEPTH = 1.0. -/
def oneOps : OperandRegs := { OperandRegs.reset with count := 1, lfoRate := 0x3F800000, lfoDepth := 0x3F800000 }

/-- With them LFO.PROC passes its checks. -/
theorem oneOps_ready (h : List HostMove) : LfoProcReady Config.params { start with regs := oneOps, host := h } :=
  ⟨⟨rfl, rfl, rfl⟩, configured_512, cap_pos⟩

/-- The concrete block of `blockState` passes the checks of DLY.PROC in T1. -/
theorem blockState_ready (mode : WrapMode) : DlyProcReady (t1 mode) (blockState mode 7) where
  idle := ⟨rfl, rfl, rfl⟩
  rate := configured_512
  out := by cases mode <;> decide
  fitsIn := fits_xmem (by cases mode <;> decide) (by cases mode <;> decide)
  fitsMod := fits_xmem (by cases mode <;> decide) (by cases mode <;> decide)
  fitsEnv := fits_xmem (by cases mode <;> decide) (by cases mode <;> decide)
  fitsOut := fits_xmem (by cases mode <;> decide) (by cases mode <;> decide)

theorem blockState_inv (mode : WrapMode) : CoreInv (t1 mode) (blockState mode 7) := by
  cases mode <;>
    exact ⟨fun h => (Bool.false_ne_true h).elim, fun h => (Bool.false_ne_true h).elim, by decide,
      fun _ => feedbackClamped_zero, fun _ => phaseInRange_zero, by decide, by decide, by decide, by decide, ⟨rfl, rfl⟩⟩

theorem t1Default_valid : t1Default.Valid where
  cap_pos := by decide
  cap_le := by decide
  xmemSize_le := by decide
  srUnconf := rfl
  kFine := by decide
  kGeneric := by decide
  fbClamp := rfl
  fbGainMax := rfl
  modDepthS := by decide
  driveMax := rfl
  scFloor := by decide
  scPowerOn := .inr rfl
  softclip := fun _ h => by cases h
  softclipHardware := fun h => by cases h
  tanh := tanhSign_laws
  wave := fun _ h => by cases h
  sin := fun _ _ => Bool.or_eq_true_iff.mpr (.inl (by decide : unitBounded64 f64Zero = true))

/-- A SOFTCLIP with S2 and S3: +0.0, a NaN at a NaN. -/
def zeroClip (x drive : F64) : F64 := if f64IsNaN x || f64IsNaN drive then 0x7FF8000000000000#64 else f64Zero

/-- T1 with a configured SOFTCLIP and a configured WAVE that have their laws. -/
def t1Configured : Params :=
  { t1 .corrected with
    softclip := .configured zeroClip, wave := .configured fun p => if f32IsNaN p then p else f32Zero }

theorem t1Configured_valid : t1Configured.Valid where
  cap_pos := by decide
  cap_le := by decide
  xmemSize_le := by decide
  srUnconf := rfl
  kFine := by decide
  kGeneric := by decide
  fbClamp := rfl
  fbGainMax := rfl
  modDepthS := by decide
  driveMax := rfl
  scFloor := by decide
  scPowerOn := .inr rfl
  softclip := fun _ h => by
    cases h
    refine ⟨fun x drive hx hd => ?_, fun x drive h => ?_⟩
    · have : f64IsNaN drive = false := f64IsNaN_false_of_finite (Bool.and_eq_true_iff.mp hd).1
      unfold zeroClip; rw [hx, this]; decide
    · unfold zeroClip; rw [if_pos h]; decide
  softclipHardware := fun h => by cases h
  tanh := tanhSign_laws
  wave := fun _ h => by cases h; exact waveZero_laws
  sin := fun _ _ => Bool.or_eq_true_iff.mpr (.inl (by decide : unitBounded64 f64Zero = true))

/-! ## witnesses: encoding -/

theorem test_witness_EncodingIsExact : decode 0x00000003#32 = .ok .dlyProc := rfl

theorem test_witness_IllegalWordFaults :
    Idle { start with host := [.writeReg (addrOf .cmd) 0x101] } ∧ Idle { start with host := [.startCmd 0x101] } ∧
    (∀ i, busWord 0x101 ≠ encode i) ∧ (∀ i, busWord 0 ≠ encode i) ∧ (∀ i, busWord 0xFFFFFFFF ≠ encode i) :=
  ⟨⟨rfl, rfl, rfl⟩, ⟨rfl, rfl, rfl⟩, fun i => by cases i <;> decide, fun i => by cases i <;> decide, fun i => by cases i <;> decide⟩

theorem test_witness_UpperHalfIgnored :
    (regAt 0x0 ∉ [RegName.sr, .fbBase, .fbEnvAmt, .wetDry, .scAmt] ∧
      regAt 0xF ∉ [RegName.sr, .fbBase, .fbEnvAmt, .wetDry, .scAmt]) ∧
    (0x0000000100000003#64).setWidth 32 = (0x0000000000000003#64).setWidth 32 := by decide

/-- LFO.PROC n=1 with four operands, from the modelled core. -/
def lfoLine : CmdLine := ⟨.lfoProc, [⟨.n, 1⟩, ⟨.rate, 0x42800000⟩, ⟨.depth, 0x3F800000⟩, ⟨.phoff, 0⟩]⟩

theorem test_witness_CommandLineRuns :
    lfoLine.wf = true ∧ Idle { start with host := expand lfoLine ++ [] } ∧
      { start with host := expand lfoLine ++ [] }.host = expand lfoLine ++ [] := ⟨by decide, ⟨rfl, rfl, rfl⟩, rfl⟩

/-- A block of n samples from L:0, L:0 to X:0. -/
def lfoBlock (n : BitVec 32) : ChorusBlock :=
  ⟨n, 0x80000000, 0x80000000, 0, 0x42800000, 0x3F800000, 0, 0, 0, 0x3FE0000000000000, 0⟩

/-- The hypotheses of ChorusBlockRuns with n = 0; with n = 1 where the instance has an XMEM element. -/
theorem test_witness_ChorusBlockRuns (n : BitVec 32) (hn : n = 0 ∨ n = 1 ∧ 1 ≤ Config.params.xmemSize) :
    CoreInv Config.params { start with host := (expandBlock (lfoBlock n)).flatMap expand ++ [] } ∧ Idle start ∧
    (lfoBlock n).wf Config.params = true ∧ Configured start.lfo.sampleRate ∧ Configured start.dly.sampleRate ∧
    (lfoBlock n).output.msb = false ∧
    (∀ h ∈ [(lfoBlock n).input, (lfoBlock n).envelope, (lfoBlock n).output],
      if h.msb then handleBase h = 0 else handleBase h + (lfoBlock n).n.toNat ≤ Config.params.xmemSize) := by
  have hc := cap_pos
  have hle : (lfoBlock n).n.toNat ≤ Config.params.cap ∧ (lfoBlock n).n.toNat ≤ Config.params.xmemSize := by
    rcases hn with rfl | ⟨rfl, h⟩
    · exact ⟨Nat.zero_le _, Nat.zero_le _⟩
    · exact ⟨hc, h⟩
  refine ⟨ready_inv Config.params hc _ _, ⟨rfl, rfl, rfl⟩, decide_eq_true hle.1, configured_512, configured_512, ?_, ?_⟩
  · exact (by decide : (0 : Handle).msb = false)
  · intro h hm
    have : h = 0x80000000 ∨ h = 0 := by
      simp only [lfoBlock, List.mem_cons, List.not_mem_nil, or_false] at hm
      tauto
    rcases this with rfl | rfl
    · exact (if_pos (by decide)).mpr (by decide)
    · rw [if_neg (by decide), (by decide : handleBase 0 = 0), Nat.zero_add]; exact hle.2

/-! ## witnesses: reset, invariant, bus, STATUS -/

/-- A core in the middle of LFO.PROC with one sample to do. -/
def busyState (h : List HostMove) : State :=
  { start with
    seq := { cmd := 0x13, ops := oneOps, i := 0, drive := 0 }
    status := { busy := true, fault := false, oor := true, cause := .none, info := 0 }
    host := h }

/-- An idle core, and a busy one, that meet the invariant and take a step. -/
theorem test_witness_StepKeepsInvariant :
    (CoreInv Config.params { start with host := [.readReg 0xF] } ∧
      step { start with host := [.readReg 0xF] } = .next (busRead Config.params 0xF start)) ∧
    (CoreInv Config.params (busyState [.wait]) ∧
      step (busyState [.wait]) = .next (advance Config.params (busyState []))) := by
  refine ⟨⟨ready_inv Config.params cap_pos _ _, rfl⟩, ⟨fun _ => ⟨rfl, fun h => ?_, fun _ => cap_pos⟩,
    fun h => (Bool.false_ne_true h).elim, cap_pos, fun _ => feedbackClamped_zero, fun _ => phaseInRange_zero, Nat.zero_le _,
    MemInv.nil _ _, MemInv.nil _ _, MemInv.nil _ _, ⟨rfl, rfl⟩⟩, rfl⟩
  exact absurd h (by decide : decode 0x13#32 ≠ .ok .dlyProc)

/-- A core in the middle of DLY.PROC, one sample from L:0, L:0, L:0 to X:0. -/
def dlyBusyState (h : List HostMove) : State :=
  { busyState h with seq := { cmd := 0x03, ops := { emptyOps with count := 1 }, i := 0, drive := 0 } }

/-- A core held in reset. -/
def heldState (h : List HostMove) : State := { start with rst := true, host := h }

theorem test_witness_HardwareResetMove :
    ((dlyBusyState [.assertReset]).host = .assertReset :: [] ∧ InRunningOutput (dlyBusyState [.assertReset]) 0 ∧
      ¬ InRunningOutput (dlyBusyState [.assertReset]) 1) ∧
    ((heldState [.releaseReset]).host = .releaseReset :: [] ∧ (heldState [.releaseReset]).rst = true) ∧
    ((heldState [.writeReg 0x0 1]).host = .writeReg 0x0 1 :: [] ∧ (heldState [.startCmd 1]).host = .startCmd 1 :: [] ∧
      (heldState [.readReg 0x1]).host = .readReg 0x1 :: []) := by
  have hb : handleBase (0 : Handle) = 0 := by decide
  refine ⟨⟨rfl, ⟨⟨rfl, rfl⟩, hb.le, ?_⟩, fun h => ?_⟩, ⟨rfl, rfl⟩, rfl, rfl, rfl⟩
  · exact (by decide : 0 < handleBase (0 : Handle) + 1)
  · exact absurd h.2.2 (by decide : ¬ 1 < handleBase (0 : Handle) + 1)

theorem test_witness_RegisterReadBack :
    Idle { start with host := [.writeReg 0x2 7, .readReg 0x2] } ∧
    regAt 0x2 ∉ [RegName.cmd, .status, .result] ∧ regAt 0xE ∉ [RegName.cmd, .status, .result] ∧
    regAt 0x3 ∈ [RegName.sr, .fbBase, .fbEnvAmt, .wetDry, .scAmt] := ⟨⟨rfl, rfl, rfl⟩, by decide, by decide, by decide⟩

theorem test_witness_ReadsAndReadOnly :
    Idle { start with host := [.writeReg 0x1 7] } ∧ regAt 0x1 ∈ [RegName.status, .result] ∧
      regAt 0xF ∈ [RegName.status, .result] ∧ { start with host := [.readReg 0x1] }.rst = false :=
  ⟨⟨rfl, rfl, rfl⟩, by decide, by decide, rfl⟩

/-- A faulted core with OOR set. -/
def faultedState (h : List HostMove) : State :=
  { start with status := { busy := false, fault := true, oor := true, cause := .badHandle, info := 4 }, host := h }

theorem test_witness_StatusIsSticky :
    step (faultedState [.wait]) = .next (faultedState []) ∧ ¬ Resets (faultedState [.wait]) ∧
      (faultedState [.wait]).status.oor = true ∧ (faultedState [.wait]).status.fault = true :=
  ⟨rfl, fun h => h.elim fun _ e => by simp [faultedState] at e, rfl, rfl⟩

theorem test_witness_FaultedCoreIgnores :
    (faultedState [.writeReg 0x0 1]).status.fault = true ∧
      (faultedState [.writeReg 0x0 1]).host = .writeReg 0x0 1 :: [] ∧
      (faultedState [.startCmd 1]).host = .startCmd 1 :: [] := ⟨rfl, rfl, rfl⟩

theorem test_witness_BusyViolation :
    Violated (busyState [.writeReg 0x2 1]) ∧ (busyState [.writeReg 0x2 1]).host = .writeReg 0x2 1 :: [] ∧
      (busyState [.startCmd 1]).host = .startCmd 1 :: [] ∧
      decode (busyState [.writeReg 0x2 1]).seq.cmd = .ok .lfoProc ∧ regAt 0x2 ≠ .cmd ∧
      InRunningOutput (dlyBusyState [.writeReg 0x2 1]) 0 ∧ ¬ InRunningOutput (dlyBusyState [.writeReg 0x2 1]) 1 ∧
      Config.params.cap ≤ 2 ^ 31 - 1 ∧ start.dly.writeIndex < Config.params.cap ∧
      start.lfo.valid ≤ Config.params.cap := by
  have hb : handleBase (0 : Handle) = 0 := by decide
  refine ⟨⟨rfl, rfl, rfl⟩, rfl, rfl, rfl, by decide, ⟨⟨rfl, rfl⟩, hb.le, ?_⟩, fun h => ?_, cap_le, cap_pos,
    Nat.zero_le _⟩
  · exact (by decide : 0 < handleBase (0 : Handle) + 1)
  · exact absurd h.2.2 (by decide : ¬ 1 < handleBase (0 : Handle) + 1)

/-! ## witnesses: the issue checks, each at its boundary -/

/-- COUNT = 2, LFO_VALID = valid. -/
def twoState (valid : Nat) (hIn hMod hEnv hOut : Handle) : State :=
  { start with
    lfo := { start.lfo with valid := valid }
    regs := { OperandRegs.reset with count := 2, hIn := hIn, hMod := hMod, hEnv := hEnv, hOut := hOut } }

theorem last_overruns (s : State) : ¬ Fits Config.params s 0x7FFFFFFF#32 2 :=
  not_fits_xmem (by decide) (by
    have := xmemSize_le
    have h : handleBase 0x7FFFFFFF#32 = 2147483647 := by decide
    rw [h]; omega)

/-- Every failing check of DLY.PROC, the earlier ones passing: unconfigured, BAD_HANDLE, and BOUNDS of IN (one
element short), MOD, ENV and OUT. -/
theorem test_witness_DlyProcIssueChecks :
    (Idle State.reset ∧ ¬ Configured State.reset.dly.sampleRate) ∧
    (Configured start.dly.sampleRate ∧ (twoState 0 0 0 0 0x80000000).regs.hOut.msb = true) ∧
    ¬ Fits Config.params (twoState 1 0x80000000 0 0 0) 0x80000000 2 ∧
    (Fits Config.params (twoState 2 0x80000000 0x7FFFFFFF 0 0) 0x80000000 2 ∧
      ¬ Fits Config.params (twoState 2 0x80000000 0x7FFFFFFF 0 0) 0x7FFFFFFF 2) ∧
    (Fits Config.params (twoState 2 0x80000000 0x80000000 0x80000001 0) 0x80000000 2 ∧
      ¬ Fits Config.params (twoState 2 0x80000000 0x80000000 0x80000001 0) 0x80000001 2) ∧
    (Fits Config.params (twoState 2 0x80000000 0x80000000 0x80000000 0x7FFFFFFF) 0x80000000 2 ∧
      (0x7FFFFFFF#32 : Handle).msb = false ∧
      ¬ Fits Config.params (twoState 2 0x80000000 0x80000000 0x80000000 0x7FFFFFFF) 0x7FFFFFFF 2) := by
  have l0 : handleBase 0x80000000#32 = 0 := by decide
  have fit : ∀ a b c d, Fits Config.params (twoState 2 a b c d) 0x80000000#32 2 := fun a b c d =>
    fits_lfo (by decide) (by rw [l0]; exact Nat.le_refl 2)
  refine ⟨⟨⟨rfl, rfl, rfl⟩, fun h => ?_⟩, ⟨configured_512, (by decide : (0x80000000#32 : Handle).msb = true)⟩, ?_,
    ⟨fit _ _ _ _, last_overruns _⟩, ⟨fit _ _ _ _, ?_⟩, fit _ _ _ _, by decide, last_overruns _⟩
  · have : ¬ Configured 0xBFF0000000000000#64 := by decide
    exact this h
  · exact not_fits_lfo (by decide) (by decide : 1 < handleBase 0x80000000 + 2)
  · exact not_fits_lfo (by decide) (by decide : 2 < handleBase 0x80000001 + 2)

/-- LFO_UNCONFIGURED after reset; LFO_COUNT with N one above CAP. -/
theorem test_witness_LfoProcIssueChecks :
    (Idle State.reset ∧ ¬ Configured State.reset.lfo.sampleRate) ∧
    (Configured start.lfo.sampleRate ∧
      Config.params.cap < (BitVec.ofNat 32 (Config.params.cap + 1)).toNat) := by
  refine ⟨⟨⟨rfl, rfl, rfl⟩, fun h => ?_⟩, configured_512, ?_⟩
  · have : ¬ Configured 0xBFF0000000000000#64 := by decide
    exact this h
  · have := cap_le
    rw [BitVec.toNat_ofNat, Nat.mod_eq_of_lt (by omega)]; omega

theorem test_witness_FaultsArePrecise :
    Idle State.reset ∧ ∃ t, exec .dlyProc State.reset = .next t ∧ t.status.fault = true := by
  have h : DlyProcReady Config.params State.reset → False := fun h =>
    (by decide : ¬ Configured 0xBFF0000000000000#64) h.rate
  refine ⟨⟨rfl, rfl, rfl⟩, _, rfl, ?_⟩
  rcases dlyProc_cases Config.params (s := State.reset) ⟨rfl, rfl, rfl⟩ with ⟨-, r, e⟩ | ⟨hr, -⟩
  · rw [e]; rfl
  · exact (h hr).elim

/-! ## witnesses: the commands -/

/-- The idle core of DlySetsrResult, DlyResetResult, LfoSetsrResult, LfoResetResult, LfoGetbufResult and
CommandsComplete. -/
theorem test_witness_Idle : Idle start := ⟨rfl, rfl, rfl⟩

theorem test_witness_ResetsAreIdempotent :
    Idle start ∧ exec .dlyReset start = .next (dlyResetWith Config.params start) ∧
      exec .lfoReset start = .next (lfoResetWith Config.params start) := ⟨⟨rfl, rfl, rfl⟩, rfl, rfl⟩

/-- A block of one sample at the last write index, in T1, in either mode; and an empty block of the modelled core. -/
theorem test_witness_DlyProcRuns (mode : WrapMode) :
    (DlyProcReady (t1 mode) (blockState mode 7) ∧ memWf (some f64Zero) (blockState mode 7).dly.ring = true ∧
      memWf none (blockState mode 7).xmem = true ∧ (blockState mode 7).regs.count = 1) ∧
    (DlyProcReady Config.params { start with regs := emptyOps } ∧
      memWf (some f64Zero) start.dly.ring = true ∧ memWf none start.xmem = true) :=
  ⟨⟨blockState_ready mode, (blockState_inv mode).ring.1, (blockState_inv mode).xmem.1, by cases mode <;> rfl⟩,
    emptyOps_ready [], rfl, rfl⟩

/-- A block of one sample of the modelled core, where it has an XMEM element. -/
theorem test_witness_DlyProcRuns_one (hx : 1 ≤ Config.params.xmemSize) :
    DlyProcReady Config.params { start with
      lfo := { start.lfo with valid := 1 }, regs := { emptyOps with count := 1 } } where
  idle := ⟨rfl, rfl, rfl⟩
  rate := configured_512
  out := (by decide : emptyOps.hOut.msb = false)
  fitsIn := fits_lfo (by decide : emptyOps.hIn.msb = true) (by decide : handleBase emptyOps.hIn + 1 ≤ 1)
  fitsMod := fits_lfo (by decide : emptyOps.hMod.msb = true) (by decide : handleBase emptyOps.hMod + 1 ≤ 1)
  fitsEnv := fits_lfo (by decide : emptyOps.hEnv.msb = true) (by decide : handleBase emptyOps.hEnv + 1 ≤ 1)
  fitsOut := fits_xmem (by decide : emptyOps.hOut.msb = false) hx

theorem test_witness_DlyProcEmptyBlock :
    DlyProcReady Config.params { start with regs := emptyOps } ∧ emptyOps.count = 0 := ⟨emptyOps_ready [], rfl⟩

theorem test_witness_DlyProcFrame (mode : WrapMode) :
    (CoreInv (t1 mode) (blockState mode 7) ∧ DlyProcReady (t1 mode) (blockState mode 7)) ∧
    (CoreInv Config.params { start with regs := emptyOps } ∧
      DlyProcReady Config.params { start with regs := emptyOps }) :=
  ⟨⟨blockState_inv mode, blockState_ready mode⟩, ready_inv Config.params cap_pos _ _, emptyOps_ready []⟩

theorem test_witness_LfoProcRuns :
    LfoProcReady Config.params { start with regs := oneOps } ∧ memWf (some f32Zero) start.lfo.buf = true ∧
      oneOps.count = 1 := ⟨oneOps_ready [], rfl, rfl⟩

theorem test_witness_LfoProcEmptyBlock :
    LfoProcReady Config.params { start with regs := emptyOps } ∧ emptyOps.count = 0 :=
  ⟨⟨⟨rfl, rfl, rfl⟩, configured_512, Nat.zero_le _⟩, rfl⟩

/-- Depth -0.0, of the modelled core and, for the first clause, of a valid record. -/
theorem test_witness_LfoDepthZero :
    t1Configured.Valid ∧ IsZero32 0x80000000#32 ∧
    LfoProcReady Config.params { start with regs := { oneOps with lfoDepth := 0x80000000 } } ∧
    memWf (some f32Zero) start.lfo.buf = true ∧ 0 < oneOps.count.toNat ∧ f32Le f32Zero start.lfo.phase = true ∧
    f32Lt start.lfo.phase f32One = true ∧ f32IsFinite oneOps.lfoPhoff = true :=
  ⟨t1Configured_valid, by decide, ⟨⟨rfl, rfl, rfl⟩, configured_512, cap_pos⟩, rfl, by decide,
    (by decide : f32Le f32Zero f32Zero = true), (by decide : f32Lt f32Zero f32One = true), by decide⟩

theorem test_witness_LfoPhaseStaysInCycle :
    LfoProcReady Config.params { start with regs := oneOps } ∧ f32IsFinite oneOps.lfoRate = true ∧
    f32IsFinite (f32OfF64 0 (f64Div 0 (f64OfF32 0 oneOps.lfoRate) 0x4080000000000000#64)) = true ∧
    f32Le f32Zero start.lfo.phase = true ∧ f32Lt start.lfo.phase f32One = true :=
  ⟨oneOps_ready [], by decide, by decide +kernel, (by decide : f32Le f32Zero f32Zero = true),
    (by decide : f32Lt f32Zero f32One = true)⟩

theorem test_witness_CommandsComplete :
    Ready Config.params .dlyProc { start with regs := emptyOps } ∧
      Ready Config.params .lfoProc { start with regs := oneOps } ∧ Ready Config.params .lfoGetbuf start :=
  ⟨emptyOps_ready [], oneOps_ready [], ⟨rfl, rfl, rfl⟩⟩

/-! ## witnesses: steps -/

theorem test_witness_StepRunsDecoded :
    { start with host := [.writeReg 0x0 0x13] }.host = .writeReg 0x0 0x13 :: [] ∧ regAt 0x0 = .cmd ∧
      decode (busWord 0x13) = .ok .lfoProc ∧ (Instr.lfoProc).wf = true ∧
      decodeTableWord 32 0x13 = some .lfoProc := ⟨rfl, rfl, rfl, rfl, rfl⟩

theorem test_witness_AtomicIsSampleGranular :
    (Idle { start with regs := oneOps, host := [] } ∧
      Ready Config.params .lfoProc { start with regs := oneOps, host := [] }) ∧
    (Idle { start with regs := emptyOps, host := [] } ∧
      Ready Config.params .dlyProc { start with regs := emptyOps, host := [] }) ∧
    (Idle State.reset ∧ State.reset.host = [] ∧ ¬ Ready Config.params .dlyProc State.reset) :=
  ⟨⟨⟨rfl, rfl, rfl⟩, oneOps_ready []⟩, ⟨⟨rfl, rfl, rfl⟩, emptyOps_ready []⟩, ⟨rfl, rfl, rfl⟩, rfl,
    fun h => (by decide : ¬ Configured 0xBFF0000000000000#64) h.rate⟩

/-- A faulted core that differs from the reset state in every piece that WrittenOnlyBy names but BUSY, rst and
XMEM. -/
def dirtyState (h : List HostMove) : State :=
  { start with
    dly :=
      { start.dly with
        writeIndex := 1, feedbackSample := f64One, timeSmoothed := f64One, wetSmoothed := f64One
        feedbackSmoothed := f64One, softClipSmoothed := 0xBFF0000000000000#64, ring := [(0, f64One)] }
    lfo := { start.lfo with phase := 0x3E800000#32, buf := [(0, f32One)], valid := 1 }
    status := { busy := false, fault := true, oor := true, cause := .bounds, info := 1 }
    regs := { OperandRegs.reset with count := 1 }
    result := 0x80000000
    host := h }

/-- The premise of each clause but those of BUSY and XMEM: asserting rst changes every piece. -/
theorem test_witness_WrittenOnlyBy :
    ∃ t, step (dirtyState [.assertReset]) = .next t ∧
      t.dly.sampleRate ≠ 0x4080000000000000#64 ∧ t.dly.writeIndex ≠ 1 ∧ t.dly.feedbackSample ≠ f64One ∧
      t.dly.timeSmoothed ≠ f64One ∧ t.dly.wetSmoothed ≠ f64One ∧ t.dly.feedbackSmoothed ≠ f64One ∧
      t.dly.softClipSmoothed ≠ 0xBFF0000000000000#64 ∧ t.dly.ring ≠ [(0, f64One)] ∧
      t.lfo.sampleRate ≠ 0x4080000000000000#64 ∧ t.lfo.phase ≠ 0x3E800000#32 ∧ t.lfo.buf ≠ [(0, f32One)] ∧
      t.lfo.valid ≠ 1 ∧ t.result ≠ 0x80000000 ∧ readRegister t .count ≠ 1 ∧ t.status.oor ≠ true ∧
      t.status.fault ≠ true ∧ t.status.cause ≠ .bounds ∧ t.status.info ≠ 1 ∧ t.rst ≠ false := by
  refine ⟨assertReset Config.params (dirtyState []), rfl, ?_, Nat.zero_ne_one, ?_, ?_, ?_, ?_, ?_,
    (List.cons_ne_nil _ _).symm, ?_, ?_, (List.cons_ne_nil _ _).symm, Nat.zero_ne_one, ?_, ?_, Bool.false_ne_true,
    Bool.false_ne_true, Cause.noConfusion, ?_, Bool.true_eq_false_eq_False⟩
  · exact (by decide : (0xBFF0000000000000#64 : F64) ≠ 0x4080000000000000#64)
  · exact (by decide : (0 : F64) ≠ f64One)
  · exact (by decide : (0 : F64) ≠ f64One)
  · exact (by decide : (0 : F64) ≠ f64One)
  · exact (by decide : (0 : F64) ≠ f64One)
  · show (if Config.scPowerOnIsFloor then Config.scFloor else f64Zero) ≠ _
    have hf : Config.scFloor ≠ 0xBFF0000000000000#64 := by
      unfold Config.scFloor
      split
      · rename_i h
        exact fun e => absurd (e ▸ h) (by decide)
      · decide
    split
    · exact hf
    · decide
  · exact (by decide : (0xBFF0000000000000#64 : F64) ≠ 0x4080000000000000#64)
  · exact (by decide : (0 : F32) ≠ 0x3E800000#32)
  · exact (by decide : (0 : BitVec 32) ≠ 0x80000000)
  · exact (by decide : (0 : BusData) ≠ 1)
  · exact (by decide : (0 : BitVec 4) ≠ 1)

/-- The premise of the clause of BUSY: a command left running. -/
theorem test_witness_WrittenOnlyBy_busy :
    step { start with host := [.startCmd 0x14] } =
      .next (setBusy true (latch 0x14 { start with host := [] })) := rfl

/-- The premise of the last clause, where the instance has an XMEM element. -/
theorem test_witness_WrittenOnlyBy_xmem (h : 0 < Config.params.xmemSize) :
    step { start with host := [.writeXmem 0 f64One] } = .next { start with xmem := [(0, f64One)], host := [] } := by
  have e : step { start with host := [.writeXmem 0 f64One] } =
      hostXmem Config.params 0 (storeXmem 0 f64One) { start with host := [] } := rfl
  rw [e]
  unfold hostXmem
  rw [if_pos h]
  rfl

/-! ## witnesses: memories -/

theorem test_witness_HostXmemAccess (mode : WrapMode) :
    (ready (t1 mode)).status.busy = false ∧ memWf none (ready (t1 mode)).xmem = true ∧ 0 < (t1 mode).xmemSize ∧
      47 < (t1 mode).xmemSize ∧ (∀ r, xmemRead r (ready (t1 mode)).xmem 47 = r) :=
  ⟨rfl, rfl, by cases mode <;> decide, by cases mode <;> decide, fun _ => rfl⟩

/-- Both ends of the range, and the indices just outside; both policies. -/
theorem test_witness_RingReadRule :
    ((0 : Int) ≤ 0 ∧ (0 : Int) < ((t1 .asSource).cap : Int)) ∧ ((0 : Int) ≤ 7 ∧ (7 : Int) < ((t1 .asSource).cap : Int)) ∧
    ¬ ((0 : Int) ≤ -1 ∧ (-1 : Int) < ((t1 .asSource).cap : Int)) ∧
    ¬ ((0 : Int) ≤ 8 ∧ (8 : Int) < ((t1 .asSource).cap : Int)) ∧
    (t1 .asSource).oorPolicy = .draw ∧ { t1 .asSource with oorPolicy := .modulo }.oorPolicy = .modulo := by decide

theorem test_witness_DelayIgnoresLfo :
    Idle start ∧ start.regs.hIn.msb = false ∧ start.regs.hMod.msb = false ∧ start.regs.hEnv.msb = false ∧
      exec .dlyProc start = .next (dlyProcWith Config.params start) :=
  ⟨⟨rfl, rfl, rfl⟩, (by decide : (0 : Handle).msb = false), (by decide : (0 : Handle).msb = false),
    (by decide : (0 : Handle).msb = false), rfl⟩

/-! ## witnesses: numerics -/

theorem test_witness_RoundingF64 :
    f64IsFinite f64One = true ∧ f64IsFinite 0x8000000000000001#64 = true ∧
    f64Units f64One + f64Units 0x8000000000000001#64 ≠ 0 ∧ f64Units f64One - f64Units 0x8000000000000001#64 ≠ 0 ∧
    f64Units 0x8000000000000001#64 ≠ 0 := by decide +kernel

theorem test_witness_RoundingF32 :
    f32IsFinite f32One = true ∧ f32IsFinite 0x80000001#32 = true ∧
    f32Units f32One + f32Units 0x80000001#32 ≠ 0 ∧ f32Units f32One - f32Units 0x80000001#32 ≠ 0 := by decide +kernel

/-- A NaN, the two zeros and a finite number that is none, in both formats. -/
theorem test_witness_SpecialValues :
    (f64IsNaN 0x7FF8000000000000#64 = true ∧ f64IsNaN 0xFFF0000000000001#64 = true ∧
      (f64IsFinite f64One = true ∧ f64Units f64One ≠ 0) ∧
      (f64IsFinite 0x8000000000000000#64 = true ∧ f64Units 0x8000000000000000#64 = 0)) ∧
    (f32IsNaN 0x7FC00000#32 = true ∧ f32IsNaN 0xFF800001#32 = true ∧
      (f32IsFinite f32One = true ∧ f32Units f32One ≠ 0) ∧
      (f32IsFinite 0x80000000#32 = true ∧ f32Units 0x80000000#32 = 0)) := by decide +kernel

theorem test_witness_FloorRule :
    f64IsFinite 0xBFE0000000000000#64 = true ∧ f64IsNaN 0x7FF0000000000000#64 = false ∧
    f64IsFinite 0x7FF0000000000000#64 = false ∧ f64IsNaN 0x7FF8000000000000#64 = true ∧
    f32IsFinite 0xBF000000#32 = true ∧ f32IsNaN 0x7F800000#32 = false ∧ f32IsFinite 0x7F800000#32 = false ∧
    f32IsNaN 0x7FC00000#32 = true := by decide

theorem test_witness_Conversions :
    2 ^ 53 - 1 < 2 ^ 53 ∧ f64IsFinite 0xC008000000000000#64 = true ∧
    f64Units 0xC008000000000000#64 = (-3) * oneUnits binary64 ∧ f32IsFinite 0x00000001#32 = true ∧
    f64IsFinite 0x47EFFFFFF0000000#64 = true ∧ f64IsNaN 0x7FF8000000000000#64 = true ∧
    f32IsNaN 0x7FC00000#32 = true := by decide +kernel

theorem test_witness_FeedbackGainBound :
    f64IsNaN 0x7FF0000000000000#64 = false ∧ f64IsNaN f64One = false ∧ f64IsNaN 0x7FF8000000000000#64 = true := by
  decide

theorem test_witness_PhaseWrapRange :
    f32IsFinite 0xAEDBE6FF#32 = true ∧ f32IsFinite f32One = true ∧ f32IsFinite 0x7F800000#32 = false := by decide

theorem test_witness_SmoothRules :
    f64IsFinite 0x7FEFFFFFFFFFFFFF#64 = true ∧ f64IsFinite 0x3FE0000000000000#64 = true ∧
    f64IsNaN 0x7FF8000000000000#64 = true := by decide

theorem test_witness_SoftclipCorners :
    (t1Default.Valid ∧ t1Default.softclip = .tanhRatio ∧ f64IsFinite f64One = true ∧
      f64IsNaN 0x7FF8000000000000#64 = true) ∧
    (t1Configured.Valid ∧ t1Configured.softclip ≠ .tanhRatio ∧ f64IsNaN f64One = false ∧ f64Units f64One ≠ 0 ∧
      f64Le 0x8000000000000000#64 f64One = true) :=
  ⟨⟨t1Default_valid, rfl, by decide, by decide⟩, t1Configured_valid, (fun h => by cases h), by decide,
    by decide +kernel, by decide⟩

/-- The phases 0.5 and 1.5 are one apart. -/
theorem test_witness_WaveBound :
    (t1Default.Valid ∧ f32IsFinite f32One = true ∧ f32IsFinite 0x7F7FFFFF#32 = true ∧
      f32IsNaN 0x7FC00000#32 = true) ∧
    (t1Configured.Valid ∧ t1Configured.wave ≠ .sine ∧ f32IsFinite 0x3F000000#32 = true ∧
      f32IsFinite 0x3FC00000#32 = true ∧ (oneUnits binary32 : Int) ∣ f32Units 0x3FC00000#32 - f32Units 0x3F000000#32) :=
  ⟨⟨t1Default_valid, by decide, by decide, by decide⟩, t1Configured_valid, (fun h => by cases h), by decide, by decide,
    by decide +kernel⟩

theorem test_witness_LerpAtZero :
    f64IsFinite 0x4000000000000000#64 = true ∧ f64IsFinite f64One = true ∧ f64IsFinite 0x7FF0000000000000#64 = false := by
  decide

/-! ## witnesses: the interpolated read -/

/-- Every row of the case table, at CAP = 8. -/
theorem test_witness_TapIndexTable :
    2 ≤ (t1 .asSource).cap ∧ (t1 .asSource).wrapMode = .asSource ∧ (t1 .corrected).wrapMode = .corrected ∧
    tapIndices (t1 .asSource) (-1) = (6, -1) ∧ tapIndices (t1 .asSource) 0 = (7, 0) ∧
    tapIndices (t1 .asSource) 1 = (8, 1) ∧ tapIndices (t1 .asSource) 2 = (1, 2) ∧
    tapIndices (t1 .asSource) 8 = (7, 8) ∧ tapIndices (t1 .asSource) 9 = (8, 1) ∧
    tapIndices (t1 .corrected) (-1) = (6, -1) ∧ tapIndices (t1 .corrected) 0 = (7, 0) ∧
    tapIndices (t1 .corrected) 1 = (0, 1) ∧ tapIndices (t1 .corrected) 7 = (6, 7) ∧
    tapIndices (t1 .corrected) 8 = (7, 0) ∧ tapIndices (t1 .corrected) 9 = (8, 1) := by decide

theorem test_witness_InterpRule :
    f64IsFinite 0x4004000000000000#64 = true ∧ f64IsFinite 0x7FF0000000000000#64 = false ∧
    f64IsFinite 0x7FF8000000000000#64 = false ∧ (t1 .asSource).wrapMode = .asSource ∧
    (t1 .corrected).wrapMode = .corrected := by decide

/-- Delays 0 and CAP, at the last write index. -/
theorem test_witness_DelayStaysInRing :
    (t1 .asSource).cap ≤ 2 ^ 31 - 1 ∧ 7 < (t1 .asSource).cap ∧
    (f64IsFinite f64Zero = true ∧ f64Le f64Zero f64Zero = true ∧ f64Le f64Zero (f64OfNat 8) = true) ∧
    (f64IsFinite (f64OfNat 8) = true ∧ f64Le f64Zero (f64OfNat 8) = true ∧ f64Le (f64OfNat 8) (f64OfNat 8) = true) := by
  decide +kernel

/-- Delays 1 and CAP - 2, in both modes, over rings whose RING[y1] is finite and whose RING[y0] is finite, an
infinity, a NaN. -/
theorem test_witness_IntegerDelayExact :
    (t1 .asSource).cap ≤ 2 ^ 31 - 1 ∧ 3 < (t1 .asSource).cap ∧ 0 < 1 ∧ 1 + 2 ≤ (t1 .asSource).cap ∧
    6 + 2 ≤ (t1 .asSource).cap ∧ (3 + (t1 .asSource).cap - 1) % (t1 .asSource).cap ≠ 1 ∧
    (3 + (t1 .asSource).cap - 6) % (t1 .asSource).cap ≠ 1 ∧ (t1 .corrected).wrapMode = .corrected ∧
    (f64IsFinite (ringRead [] ((3 + (t1 .asSource).cap - 1) % (t1 .asSource).cap)) = true ∧
      f64IsFinite (ringRead [] ((3 + (t1 .asSource).cap - 2) % (t1 .asSource).cap)) = true) ∧
    (f64IsFinite (ringRead [(1, f64Inf true)] ((3 + (t1 .asSource).cap - 1) % (t1 .asSource).cap)) = true ∧
      f64IsFinite (ringRead [(1, f64Inf true)] ((3 + (t1 .asSource).cap - 2) % (t1 .asSource).cap)) = false) ∧
    f64IsNaN (ringRead [(1, 0x7FF8000000000000#64)] ((3 + (t1 .asSource).cap - 2) % (t1 .asSource).cap)) = true := by
  decide

end Sys2Proof.Tests
end

/-! SUPPORT. The parameters of the modelled core: what each open constant of Config is brought to, and the constraints
of `Params.Valid` on the whole record (00_scope.md R7, 40_numerics.md R131, R132, R136). -/

namespace Sys2Proof.Machine

/-! ## the open numbers -/

theorem config_cap_pos : 1 ≤ Config.cap := Nat.le_add_left 1 _

theorem config_cap_le : Config.cap ≤ 2 ^ 31 - 1 :=
  Nat.succ_le_of_lt (Nat.mod_lt Config.capRaw (by decide : 0 < 2 ^ 31 - 1))

theorem config_xmemSize_le : Config.xmemSize ≤ 2 ^ 31 :=
  Nat.le_of_lt_succ (Nat.mod_lt Config.xmemSizeRaw (Nat.succ_pos (2 ^ 31)))

/-- A value that is replaced where a check refuses it passes the check, when its replacement does. -/
theorem check_ite (check : F64 → Bool) (raw : F64) {fallback : F64} (h : check fallback = true) :
    check (if check raw then raw else fallback) = true := by
  split
  · assumption
  · exact h

theorem validCoefficient_coefficient (raw : F64) : validCoefficient (Config.coefficient raw) = true :=
  check_ite validCoefficient raw (by decide)

theorem f64IsFinite_config_modDepthS : f64IsFinite Config.modDepthS = true :=
  check_ite f64IsFinite Config.modDepthRaw f64IsFinite_zero

theorem config_scFloor_pos : f64Lt f64Zero Config.scFloor = true :=
  check_ite (f64Lt f64Zero) Config.scFloorRaw (by decide)

/-! ## the open functions -/

/-- A configured SOFTCLIP is held to S2 and S3 whatever the uninterpreted function answers. -/
theorem config_softclip_laws : SoftclipLaws Config.softclip where
  bounded x drive hx hd := by
    have hdrive : f64IsNaN drive = false := f64IsNaN_false_of_finite (Bool.and_eq_true_iff.mp hd).1
    rw [Config.softclip, hx, hdrive, hd]
    cases hraw : f64IsFinite (Config.softclipRaw x drive)
    · exact f64IsFinite_zero
    · exact hraw
  nan x drive h := by
    rw [Config.softclip, if_pos h]
    exact f64IsNaN_nanOf64 _

/-- TANH is the uninterpreted function where it has the laws, and the sign function otherwise. -/
theorem config_tanh_cases :
    (Config.tanh = Config.tanhRaw ∧ TanhLaws Config.tanhRaw) ∨ Config.tanh = Config.tanhSign := by
  by_cases h : TanhBounded Config.tanhRaw ∧ TanhOdd Config.tanhRaw ∧ TanhMonotone Config.tanhRaw ∧
      TanhAtZero Config.tanhRaw ∧ TanhAtInfinity Config.tanhRaw ∧ TanhNonzero Config.tanhRaw
  · obtain ⟨bounded, odd, monotone, atZero, atInfinity, nonzero⟩ := id h
    refine .inl ⟨funext fun x => ?_, bounded, odd, monotone, atZero, atInfinity, nonzero⟩
    unfold Config.tanh
    exact if_pos h
  · refine .inr (funext fun x => ?_)
    unfold Config.tanh
    exact if_neg h

theorem config_tanh_laws : TanhLaws Config.tanh := by
  rcases config_tanh_cases with ⟨heq, hlaws⟩ | heq
  · exact heq ▸ hlaws
  · exact heq ▸ tanhSign_laws

/-- A configured WAVE is the uninterpreted function where it has the laws, and the constant 0 otherwise. -/
theorem config_wave_cases : (Config.wave = Config.waveRaw ∧ WaveLaws Config.waveRaw) ∨
    Config.wave = fun p => if f32IsNaN p then p else f32Zero := by
  by_cases h : WaveBounded Config.waveRaw ∧ WavePeriodic Config.waveRaw
  · refine .inl ⟨funext fun p => ?_, h.1, h.2⟩
    unfold Config.wave
    exact if_pos h
  · refine .inr (funext fun p => ?_)
    unfold Config.wave
    exact if_neg h

theorem config_wave_laws : WaveLaws Config.wave := by
  rcases config_wave_cases with ⟨heq, hlaws⟩ | heq
  · exact heq ▸ hlaws
  · exact heq ▸ waveZero_laws

theorem config_sin_bounded : SinBounded Config.sin := fun x _ =>
  check_ite (fun r => unitBounded64 r || (f64IsNaN r && !f64IsFinite x)) (Config.sinRaw x)
    (Bool.or_eq_true_iff.mpr (.inl (by decide : unitBounded64 f64Zero = true)))

/-! ## the record -/

theorem params_scPowerOn : Config.params.scPowerOn = f64Zero ∨ Config.params.scPowerOn = Config.params.scFloor :=
  (ite_eq_or_eq (Config.scPowerOnIsFloor = true) Config.scFloor f64Zero).symm

/-- The record's SOFTCLIP is the default formula or the configured function. -/
theorem params_softclip_cases :
    Config.params.softclip = .tanhRatio ∨ Config.params.softclip = .configured Config.softclip :=
  ite_eq_or_eq ..

/-- The record's WAVE is the default formula or the configured function. -/
theorem params_wave_cases : Config.params.wave = .sine ∨ Config.params.wave = .configured Config.wave :=
  ite_eq_or_eq ..

/-- Settles O13: each open constant is brought into its range, and each open function to its laws. -/
theorem paramsMeetConstraints : Obligations.ParamsMeetConstraints where
  cap_pos := config_cap_pos
  cap_le := config_cap_le
  xmemSize_le := config_xmemSize_le
  srUnconf := rfl
  kFine := validCoefficient_coefficient _
  kGeneric := validCoefficient_coefficient _
  fbClamp := rfl
  fbGainMax := rfl
  modDepthS := f64IsFinite_config_modDepthS
  driveMax := rfl
  scFloor := config_scFloor_pos
  scPowerOn := params_scPowerOn
  softclip f hf := by
    rcases params_softclip_cases with h | h
    · cases h.symm.trans hf
    · cases h.symm.trans hf
      exact config_softclip_laws
  softclipHardware hid := by
    rcases params_softclip_cases with h | h <;> cases h.symm.trans hid
  tanh := config_tanh_laws
  wave f hf := by
    rcases params_wave_cases with h | h
    · cases h.symm.trans hf
    · cases h.symm.trans hf
      exact config_wave_laws
  sin := config_sin_bounded

end Sys2Proof.Machine

/-! SUPPORT. A command left running and taken one sample step at each wait, against the atomic command
(00_scope.md R15, 10_state.md R33, R34, 30_encoding.md R100). -/

namespace Sys2Proof.Machine

/-! ## a command as its start, its sample steps and its end -/

theorem busWord_encode (i : Instr) : busWord ((encode i).setWidth 64) = encode i := by cases i <;> rfl

/-- A sample count is a 32-bit register. -/
theorem sampleSteps_lt (i : Instr) (s : State) : sampleSteps i s < 2 ^ 32 := by
  cases i
  case dlyProc => exact s.seq.ops.count.isLt
  case lfoProc => exact s.seq.ops.count.isLt
  all_goals exact Nat.two_pow_pos 32

/-- The sample count is read from the latched operands alone. -/
theorem sampleSteps_congr (i : Instr) {s t : State} (h : t.seq.ops = s.seq.ops) :
    sampleSteps i t = sampleSteps i s := by
  unfold sampleSteps
  rw [h]

@[simp] theorem sampleStep_host (P : Params) (i : Instr) (s : State) : (sampleStep P i s).host = s.host := by
  cases i <;> rfl

@[simp] theorem sampleStep_busy (P : Params) (i : Instr) (s : State) :
    (sampleStep P i s).status.busy = s.status.busy := by cases i <;> rfl

/-- A command that has sample steps counts them; nothing else of the sequencer changes. -/
theorem sampleStep_seq (P : Params) {i : Instr} {s : State} (h : 0 < sampleSteps i s) :
    (sampleStep P i s).seq = { s.seq with i := s.seq.i + 1 } := by
  cases i
  case dlyProc => rfl
  case lfoProc => rfl
  all_goals exact absurd h (Nat.lt_irrefl 0)

@[simp] theorem startCommand_host (P : Params) (i : Instr) (s : State) : (startCommand P i s).host = s.host := by
  cases i <;> rfl

@[simp] theorem startCommand_busy (P : Params) (i : Instr) (s : State) :
    (startCommand P i s).status.busy = s.status.busy := by cases i <;> rfl

@[simp] theorem startCommand_cmd (P : Params) (i : Instr) (s : State) : (startCommand P i s).seq.cmd = s.seq.cmd := by
  cases i <;> rfl

@[simp] theorem startCommand_ops (P : Params) (i : Instr) (s : State) : (startCommand P i s).seq.ops = s.seq.ops := by
  cases i <;> rfl

@[simp] theorem startCommand_i (P : Params) (i : Instr) (s : State) : (startCommand P i s).seq.i = s.seq.i := by
  cases i <;> rfl

/-- A command that passes its checks, left running: latched, BUSY set, started. -/
theorem beginCommand_ready (P : Params) {i : Instr} {s : State} (hi : Idle s) (hr : Ready P i s) :
    beginCommand P i s = startCommand P i (setBusy true (latch (encode i) s)) := by
  rcases beginCommand_cases P i hi with ⟨hn, _⟩ | ⟨_, hb⟩
  · exact absurd hr hn
  · exact hb

/-- A command that passes its checks, as one step: what `beginCommand` leaves running, its sample steps, its end. -/
theorem exec_ready {i : Instr} {s : State} (hi : Idle s) (hr : Ready Config.params i s) :
    exec i s = .next (setBusy false (endCommand Config.params i
      (repeatStep (sampleStep Config.params i) (sampleSteps i (latch (encode i) s))
        (beginCommand Config.params i s)))) := by
  rw [exec_eq, beginCommand_ready _ hi hr]
  cases i
  case dlyProc =>
    rcases dlyProc_cases Config.params hi with ⟨hn, _⟩ | ⟨_, h⟩
    · exact absurd hr hn
    · exact congrArg _ h
  case lfoProc =>
    rcases lfoProc_cases Config.params hi with ⟨hn, _⟩ | ⟨_, h⟩
    · exact absurd hr hn
    · exact congrArg _ h
  all_goals exact congrArg _ (issueSimple_idle _ _ _ hi)

/-- A command that fails its checks faults alike, whether it is run as one step or left running. -/
theorem exec_notReady {i : Instr} {s : State} (hi : Idle s) (hn : ¬ Ready Config.params i s) :
    exec i s = .next (beginCommand Config.params i s) := by
  rcases beginCommand_cases Config.params i hi with ⟨_, r, hc, hb⟩ | ⟨hr, _⟩
  · rw [exec_eq, hb]
    cases i
    case dlyProc => exact congrArg _ (issue_refused _ _ _ _ _ _ _ hi hc)
    case lfoProc => exact congrArg _ (issue_refused _ _ _ _ _ _ _ hi hc)
    all_goals exact absurd hi hn
  · exact absurd hr hn

/-! ## a command left running, move by move -/

/-- Command i runs, k of its sample steps made, and the host has only to wait. -/
structure RunsAt (i : Instr) (k : Nat) (s : State) : Prop where
  host : s.host = []
  busy : s.status.busy = true
  cmd : s.seq.cmd = encode i
  count : s.seq.i.toNat = k

theorem RunsAt.step {i : Instr} {k : Nat} {s : State} (h : RunsAt i k s) :
    step s = .next (if k < sampleSteps i s then sampleStep Config.params i s
      else setBusy false (endCommand Config.params i s)) := by
  have hd : decode s.seq.cmd = .ok i := by rw [h.cmd, decode_encode]
  rw [step_nil h.host, waitMove, if_pos h.busy, advance_eq _ hd, h.count]

/-- The sample counter does not wrap before the sample count is reached. -/
theorem RunsAt.sampleStep (P : Params) {i : Instr} {k : Nat} {s : State} (h : RunsAt i k s)
    (hk : k < sampleSteps i s) :
    RunsAt i (k + 1) (sampleStep P i s) ∧ sampleSteps i (sampleStep P i s) = sampleSteps i s := by
  have hseq := sampleStep_seq P (Nat.zero_lt_of_lt hk)
  have hlt := sampleSteps_lt i s
  refine ⟨⟨?_, ?_, ?_, ?_⟩, sampleSteps_congr i (by rw [hseq])⟩
  · rw [sampleStep_host, h.host]
  · rw [sampleStep_busy, h.busy]
  · rw [hseq]; exact h.cmd
  · rw [hseq]
    show (s.seq.i + 1#32).toNat = k + 1
    rw [BitVec.toNat_add_of_lt (by rw [h.count]; exact Nat.lt_of_le_of_lt hk hlt), h.count]
    rfl

/-- n waits of a running command, as long as samples are left, are n sample steps. -/
theorem RunsAt.run {i : Instr} (n : Nat) {k : Nat} {s : State} (h : RunsAt i k s) (hn : k + n ≤ sampleSteps i s) :
    Host.Core.run Sys2Proof.core n s = .next (repeatStep (Machine.sampleStep Config.params i) n s) ∧
      RunsAt i (k + n) (repeatStep (Machine.sampleStep Config.params i) n s) ∧
      sampleSteps i (repeatStep (Machine.sampleStep Config.params i) n s) = sampleSteps i s := by
  induction n generalizing k s with
  | zero => exact ⟨run_zero s, h, rfl⟩
  | succ n ih =>
    have hk : k < sampleSteps i s := by omega
    have hs := h.step
    rw [if_pos hk] at hs
    obtain ⟨hnext, hsteps⟩ := h.sampleStep Config.params hk
    rw [run_succ n hs, repeatStep_succ, ← hsteps, Nat.add_comm n 1, ← Nat.add_assoc]
    exact ih hnext (by omega)

/-- An idle core's command that passes its checks is left running at its first sample. -/
theorem beginCommand_runsAt (P : Params) {i : Instr} {s : State} (hi : Idle s) (hh : s.host = []) (hr : Ready P i s) :
    RunsAt i 0 (beginCommand P i s) ∧
      sampleSteps i (beginCommand P i s) = sampleSteps i (latch (encode i) s) := by
  rw [beginCommand_ready P hi hr]
  refine ⟨⟨?_, ?_, ?_, ?_⟩, sampleSteps_congr i (by simp)⟩ <;> simp [hh]

/-- The step in which the host writes a command's word and leaves the command running. -/
theorem step_startCmd {s : State} {i : Instr} {rest : List HostMove}
    (h : s.host = .startCmd ((encode i).setWidth 64) :: rest) :
    step s = .next (beginCommand Config.params i { s with host := rest }) := by
  rw [step_cons h, hostMove, startWrite, busWord_encode, decode_encode]

/-- Settles O38: n waits make n sample steps, and the wait after the last one ends the command as `exec` does. -/
theorem atomicIsSampleGranular : Obligations.AtomicIsSampleGranular := by
  intro i s hi hh started steps
  have hstart : step started = .next (beginCommand Config.params i s) := by
    have hs : { started with host := [] } = s := by rw [← hh]
    rw [step_startCmd rfl, hs]
  refine ⟨fun hr => ?_, fun hn => by rw [hstart, exec_notReady hi hn]⟩
  obtain ⟨hrun, hsteps⟩ := beginCommand_runsAt Config.params hi hh hr
  have hwait (n : Nat) (hn : n ≤ steps) := hrun.run n (by rw [Nat.zero_add, hsteps]; exact hn)
  refine ⟨fun n hn => ?_, ?_⟩
  · obtain ⟨hnext, hat, _⟩ := hwait n hn
    exact ⟨_, (run_succ n hstart).trans hnext, hat.busy⟩
  · obtain ⟨hnext, hat, hlast⟩ := hwait steps (Nat.le_refl _)
    have hend := hat.step
    rw [hlast, hsteps, Nat.zero_add, if_neg (Nat.lt_irrefl _)] at hend
    rw [run_succ (steps + 1) hstart, run_add steps 1 hnext, run_one, hend, exec_ready hi hr]

end Sys2Proof.Machine

/-! SUPPORT. The ranges of feedbackSmoothed and phase: CLAMP_HI answers at most 1.0 or a NaN, PHASEWRAP a phase in
[0, 1) or a NaN (10_state.md R26, R30, 40_numerics.md R129, R137). -/

namespace Sys2Proof.Machine

theorem feedbackClamped_f64Zero : FeedbackClamped f64Zero := .inr (by decide)

theorem phaseInRange_f32Zero : PhaseInRange f32Zero := .inr ⟨by decide, by decide⟩

/-- CLAMP_HI of any value is clamped: a NaN passes, every other value ends at most at 1.0. -/
theorem clampHi_clamped (v : F64) : FeedbackClamped (clampHi Config.params v) := by
  cases hv : f64IsNaN v
  · exact .inr (clampHi_le hv).2
  · left
    have hlt : ¬ f64Lt Config.params.fbClamp v = true := fun h => by
      rw [(f64Lt_iff.mp h).2.1] at hv; cases hv
    rw [clampHi, if_neg hlt, hv]

/-- The floor of an infinity is that infinity (40_numerics.md R126). -/
theorem f32Floor_infinite (nan : F32) {a : F32} (h : magOf binary32 a.toNat = infMag binary32) :
    f32Floor nan a = a := by
  apply BitVec.eq_of_toNat_eq
  rw [toNat_f32Floor, floorPattern_inf _ h]

/-- An infinity less itself is a NaN (40_numerics.md R123). -/
theorem f32Sub_infinite_self (nan : F32) {a : F32} (h : magOf binary32 a.toNat = infMag binary32) :
    f32Sub nan a a = nan := by
  apply BitVec.eq_of_toNat_eq
  rw [toNat_f32Sub, subPattern, addPattern_inf_inf _ h ((magOf_flipSign _).trans h), negOf_flipSign (pattern32_lt a)]
  cases negOf binary32 a.toNat <;> rfl

/-- p - floor(p) of a finite p is a number at or above 0. -/
theorem f32Sub_floor_nonneg (n m : F32) {p : F32} (hp : f32IsFinite p = true) :
    f32Le f32Zero (f32Sub n p (f32Floor m p)) = true := by
  obtain ⟨hfin, hunits⟩ := f32Floor_units m hp
  have hmod : f32Units p - f32Units (f32Floor m p) = f32Units p % (oneUnits binary32 : Int) := by
    rw [hunits, mul_comm, Int.emod_def]
  have hone := oneUnits_pos_int binary32
  have hnonneg : 0 ≤ f32Units p - f32Units (f32Floor m p) := hmod ▸ Int.emod_nonneg _ hone.ne'
  have hle : f32Units p - f32Units (f32Floor m p) ≤ (magUnits binary32 f32One.toNat : Int) := by
    rw [show (magUnits binary32 f32One.toNat : Int) = oneUnits binary32 from f32Units_one, hmod]
    exact (Int.emod_lt_of_pos _ hone).le
  obtain ⟨hsub, hsign, -⟩ := subPattern_between binary32_ok n.toNat (pattern32_lt _) hp hfin (by decide) hnonneg hle
  rw [← toNat_f32Sub] at hsub hsign
  exact f32Le_iff.mpr ⟨by decide, f32IsNaN_false_of_finite hsub, f32Units_zero ▸ hsign⟩

/-- p - floor(p) is at or above 0, or a NaN: of an infinite p it is infinity less infinity. -/
theorem fractionalPart_nonneg (δ : Draws) (k : Nat) (p : F32) :
    f32IsNaN (f32Sub (nan32 δ (k + 1)) p (f32Floor (nan32 δ k) p)) = true ∨
      f32Le f32Zero (f32Sub (nan32 δ (k + 1)) p (f32Floor (nan32 δ k) p)) = true := by
  rcases pattern_cases binary32 p.toNat with hnan | hinf | hfin
  · rw [f32Sub_nan _ _ _ (.inl hnan)]
    exact .inl (f32IsNaN_nan32 _ _)
  · rw [f32Floor_infinite _ hinf, f32Sub_infinite_self _ hinf]
    exact .inl (f32IsNaN_nan32 _ _)
  · exact .inr (f32Sub_floor_nonneg _ _ hfin)

/-- PHASEWRAP answers a phase of the cycle, or a NaN (40_numerics.md R137). -/
theorem phaseWrap_inRange (δ : Draws) (k : Nat) (p : F32) : PhaseInRange (phaseWrap δ k p) := by
  rw [phaseWrap]
  split
  · exact phaseInRange_f32Zero
  · rename_i hlt
    refine (fractionalPart_nonneg δ k p).imp_right fun hle => ⟨hle, ?_⟩
    obtain ⟨-, hnan, -⟩ := f32Le_iff.mp hle
    have hone : f32IsNaN f32One = false := by decide
    refine f32Lt_iff.mpr ⟨hnan, hone, lt_of_not_ge fun h => hlt (f32Le_iff.mpr ⟨hone, hnan, h⟩)⟩

end Sys2Proof.Machine

/-! SUPPORT. What a step can do, said once: `StepCase` names the host's move, what it found and what it left
(00_scope.md R15, 30_encoding.md R100, 60_exceptions.md R239, 70_reset_and_hazards.md R260). -/

namespace Sys2Proof.Machine

/-! ## a command as moves of a busy core -/

/-- The state in which an accepted command runs, before its first sample step (30_encoding.md R100). -/
def started (P : Params) (i : Instr) (s : State) : State := startCommand P i (setBusy true (latch (encode i) s))

theorem started_cmd (P : Params) (i : Instr) (s : State) : (started P i s).seq.cmd = encode i := by
  simp [started]

theorem started_ops (P : Params) (i : Instr) (s : State) : (started P i s).seq.ops = s.regs := by
  simp [started]

/-- The sample steps a command has left and its end are so many moves of the busy core, and one. -/
theorem repeatStep_advance (P : Params) {i : Instr} (n : Nat) {s : State} (hd : decode s.seq.cmd = .ok i)
    (hn : s.seq.i.toNat + n = sampleSteps i s) :
    repeatStep (advance P) (n + 1) s = setBusy false (endCommand P i (repeatStep (sampleStep P i) n s)) := by
  induction n generalizing s with
  | zero => rw [repeatStep_succ, advance_eq P hd, if_neg (by omega)]; rfl
  | succ n ih =>
    have hseq := sampleStep_seq P (s := s) (i := i) (by omega)
    have hlt := sampleSteps_lt i s
    have hcount : (sampleStep P i s).seq.i.toNat = s.seq.i.toNat + 1 := by
      rw [hseq]
      exact BitVec.toNat_add_of_lt (y := 1#32) (by rw [BitVec.toNat_ofNat]; omega)
    rw [repeatStep_succ, advance_eq P hd, if_pos (by omega), repeatStep_succ]
    exact ih (by rw [hseq]; exact hd) (by rw [hcount, sampleSteps_congr i (s := s) (by rw [hseq])]; omega)

/-- A command that passes its checks, as one step: started, then moves of the busy core, which end in BUSY = 0. -/
theorem exec_started {i : Instr} {s : State} (hi : Idle s) (hr : Ready Config.params i s) :
    ∃ n t, exec i s = .next t ∧ t = repeatStep (advance Config.params) n (started Config.params i s) ∧
      t.status.busy = false := by
  refine ⟨sampleSteps i (latch (encode i) s) + 1, _, exec_ready hi hr, ?_, rfl⟩
  rw [beginCommand_ready _ hi hr, ← started]
  refine (repeatStep_advance _ _ (by rw [started_cmd, decode_encode]) ?_).symm
  rw [sampleSteps_congr i (s := latch (encode i) s) (started_ops _ i s)]
  simp [started]

/-! ## a fault at issue -/

/-- A cause and INFO that the table of 60_exceptions.md R231 has together. -/
def Refused.InTable (r : Refused) : Prop :=
  StatusConsistent { busy := false, fault := true, oor := false, cause := r.cause, info := r.info }

/-- The issue checks of DLY.PROC refuse with a cause of the table (42_delay_process.md R161). -/
theorem checkDlyProc_inTable {P : Params} {s : State} {r : Refused} (h : checkDlyProc P s = some r) : r.InTable := by
  unfold checkDlyProc at h
  dsimp only at h
  repeat' split at h
  all_goals cases h
  · exact ⟨rfl, rfl⟩
  · exact ⟨rfl, rfl⟩
  all_goals exact ⟨rfl, by decide, by decide⟩

/-- Every issue check refuses with a cause of the table (60_exceptions.md R239). -/
theorem issueCheck_inTable {P : Params} {i : Instr} {s : State} {r : Refused} (h : issueCheck P i s = some r) :
    r.InTable := by
  cases i
  case dlyProc => exact checkDlyProc_inTable h
  case lfoProc =>
    change checkLfoProc P s = some r at h
    unfold checkLfoProc at h
    repeat' split at h
    all_goals cases h
    all_goals exact ⟨rfl, rfl⟩
  all_goals cases h

/-! ## the step -/

/-- The state but for the model's own fields: what an unheeded move leaves as it is. -/
structure SameCore (s t : State) : Prop where
  dly : t.dly = s.dly
  lfo : t.lfo = s.lfo
  seq : t.seq = s.seq
  status : t.status = s.status
  regs : t.regs = s.regs
  result : t.result = s.result
  rst : t.rst = s.rst
  xmem : t.xmem = s.xmem

/-- The state whose next host move has been taken off the list. -/
abbrev popped (s : State) : State := { s with host := s.host.tail }

/-- What the step from s to t does; u is s with the host's move taken off its list. -/
inductive StepCase (s u t : State) : Prop where
  /-- A read, a write the core ignores, a wait of an idle core, a release of what is not asserted. -/
  | unheeded (h : SameCore u t)
  /-- rst is asserted or released. -/
  | reset (level : Bool) (x : Mem 64) (hs : Resets s) (hx : x = u.xmem ∨ (u.status.busy = true ∧ x = interruptedXmem u))
      (h : t = resetCore Config.params level { u with xmem := x })
  /-- A register write while BUSY. -/
  | violation (hs : Abandons s) (hu : Violated u) (h : t = busyViolation Config.params u)
  /-- An accepted command: run to its end, or left running. -/
  | command (i : Instr) (n : Nat) (hs : Issues i s) (hu : Idle u) (hr : Ready Config.params i u)
      (h : t = repeatStep (advance Config.params) n (started Config.params i u)) (hb : t.status.busy = false ∨ Starts s)
  /-- A refused command, or an illegal word. -/
  | refused (r : Refused) (hs : (∃ n, Writes n s) ∨ Starts s) (hu : Idle u) (hr : r.InTable) (h : t = raiseFault r u)
  /-- A write of a register other than CMD. -/
  | register (n : RegName) (d : BusData) (hs : Writes n s) (hu : Idle u) (h : t = writeRegister n d u)
  /-- A move of the running command. -/
  | move (hs : Waits s) (hu : u.status.busy = true) (h : t = advance Config.params u)
  /-- The host's write of an element that XMEM has. -/
  | xmem (k : Nat) (v : F64) (hs : ∃ rest, s.host = .writeXmem k v :: rest) (hk : k < Config.params.xmemSize)
      (h : t = storeXmem k v u)

theorem SameCore.refl (s : State) : SameCore s s := ⟨rfl, rfl, rfl, rfl, rfl, rfl, rfl, rfl⟩

theorem illegalCmd_inTable : (⟨.illegalCmd, 0⟩ : Refused).InTable := ⟨rfl, rfl⟩

/-- An idle core's command, run as one step. -/
theorem stepCase_exec {s u t : State} {i : Instr} (hs : Issues i s) (hw : ∃ n, Writes n s) (hu : Idle u)
    (ht : exec i u = .next t) : StepCase s u t := by
  by_cases hr : Ready Config.params i u
  · obtain ⟨n, t', he, h, hb⟩ := exec_started hu hr
    cases he.symm.trans ht
    exact .command i n hs hu hr h (.inl hb)
  · rcases beginCommand_cases Config.params i hu with ⟨-, r, hc, hb⟩ | ⟨hr', -⟩
    · cases (exec_notReady hu hr).symm.trans ht
      exact .refused r (.inl hw) hu (issueCheck_inTable hc) hb
    · exact absurd hr' hr

/-- An idle core's command, left running. -/
theorem stepCase_beginCommand {s u : State} {i : Instr} (hs : Issues i s) (hw : Starts s) (hu : Idle u) :
    StepCase s u (beginCommand Config.params i u) := by
  rcases beginCommand_cases Config.params i hu with ⟨-, r, hc, hb⟩ | ⟨hr, hb⟩
  · exact .refused r (.inr hw) hu (issueCheck_inTable hc) hb
  · exact .command i 0 hs hu hr hb (.inr hw)

theorem stepCase_busWrite {s u t : State} {a : RegAddr} {d : BusData} {rest : List HostMove}
    (hs : s.host = .writeReg a d :: rest) (hu : Violated u → Violated s)
    (ht : busWrite Config.params exec a d u = .next t) : StepCase s u t := by
  have hw : Writes (regAt a) s := ⟨a, d, rest, hs, rfl⟩
  rcases busWrite_cases a d u with ⟨-, h⟩ | ⟨hv, h⟩ | ⟨hi, ha, i, hd, h⟩ | ⟨hi, -, -, h⟩ | ⟨hi, -, h⟩
  · cases h.symm.trans ht
    exact .unheeded (.refl u)
  · cases h.symm.trans ht
    exact .violation ⟨hu hv, .inl ⟨_, hw⟩⟩ hv rfl
  · exact stepCase_exec ⟨d, rest, hd, .inl ⟨a, hs, ha⟩⟩ ⟨_, hw⟩ hi (h.symm.trans ht)
  · cases h.symm.trans ht
    exact .refused _ (.inl ⟨_, hw⟩) hi illegalCmd_inTable rfl
  · cases h.symm.trans ht
    exact .register _ d hw hi rfl

theorem stepCase_startWrite {s u : State} {d : BusData} {rest : List HostMove}
    (hs : s.host = .startCmd d :: rest) (hu : Violated u → Violated s) :
    StepCase s u (startWrite Config.params (busWord d) u) := by
  have hw : Starts s := ⟨d, rest, hs⟩
  rcases startWrite_cases Config.params (busWord d) u with ⟨-, h⟩ | ⟨hv, h⟩ | ⟨hi, i, hd, h⟩ | ⟨hi, -, h⟩ <;> rw [h]
  · exact .unheeded (.refl u)
  · exact .violation ⟨hu hv, .inr hw⟩ hv rfl
  · exact stepCase_beginCommand ⟨d, rest, hd, .inr hs⟩ hw hi
  · exact .refused _ (.inr hw) hi illegalCmd_inTable rfl

/-- A host access to XMEM that the machine answers names an element that XMEM has. -/
theorem hostXmem_next {P : Params} {k : Nat} {f : State → State} {s t : State}
    (h : hostXmem P k f s = .next t) : k < P.xmemSize ∧ t = f s := by
  unfold hostXmem at h
  split at h
  · cases h
  · split at h
    · cases h; exact ⟨‹_›, rfl⟩
    · cases h

theorem stepCase_assertReset {s : State} (u : State) (hs : Resets s) :
    StepCase s u (assertReset Config.params u) := by
  unfold assertReset
  split
  · exact .reset true _ hs (.inr ⟨‹_›, rfl⟩) rfl
  · exact .reset true _ hs (.inl rfl) rfl

theorem stepCase_releaseReset {s : State} (u : State) (hs : Resets s) :
    StepCase s u (releaseReset Config.params u) := by
  unfold releaseReset
  split
  · exact .reset false _ hs (.inl rfl) rfl
  · exact .unheeded (.refl u)

theorem stepCase_waitMove {s : State} (u : State) (hs : Waits s) : StepCase s u (waitMove Config.params u) := by
  unfold waitMove
  split
  · exact .move hs ‹_› rfl
  · exact .unheeded (.refl u)

/-- Every step that answers is one of the cases, over the state with the host's next move taken off. -/
theorem step_cases {s t : State} (h : step s = .next t) : StepCase s (popped s) t := by
  cases hh : s.host with
  | nil =>
    cases (step_nil hh).symm.trans h
    have hu : popped s = s := by unfold popped; rw [hh, List.tail_nil, ← hh]
    rw [hu]
    exact stepCase_waitMove s (.inl hh)
  | cons m rest =>
    rw [step_cons hh] at h
    have hu : popped s = { s with host := rest } := by unfold popped; rw [hh, List.tail_cons]
    rw [hu]
    cases m with
    | writeReg a d => exact stepCase_busWrite hh id h
    | startCmd d => cases h; exact stepCase_startWrite hh id
    | readReg a =>
      cases h
      rw [busRead_frame]
      exact .unheeded ⟨rfl, rfl, rfl, rfl, rfl, rfl, rfl, rfl⟩
    | writeXmem k v =>
      obtain ⟨hk, ht⟩ := hostXmem_next h
      exact .xmem k v ⟨rest, hh⟩ hk ht
    | readXmem k =>
      obtain ⟨-, rfl⟩ := hostXmem_next h
      exact .unheeded ⟨rfl, rfl, rfl, rfl, rfl, rfl, rfl, rfl⟩
    | assertReset => cases h; exact stepCase_assertReset _ ⟨rest, .inl hh⟩
    | releaseReset => cases h; exact stepCase_releaseReset _ ⟨rest, .inr hh⟩
    | wait => cases h; exact stepCase_waitMove _ (.inr ⟨rest, hh⟩)

end Sys2Proof.Machine

/-! SUPPORT. The invariant of a core (`CoreInv`): what each operation of the machine keeps of it (10_state.md R22, R26,
R30, R31, 20_memory.md R61 to R63, 60_exceptions.md R231). -/

namespace Sys2Proof.Machine

theorem params_cap_pos : 0 < Config.params.cap := config_cap_pos

/-! ## what the invariant does not look at -/

/-- The invariant is about the core and XMEM, not about the model's own fields, the operand registers or RESULT. -/
theorem CoreInv.congr {P : Params} {s t : State} (h : CoreInv P s) (dly : t.dly = s.dly) (lfo : t.lfo = s.lfo)
    (seq : t.seq = s.seq) (status : t.status = s.status) (rst : t.rst = s.rst) (xmem : t.xmem = s.xmem) :
    CoreInv P t := by
  obtain ⟨hrun, hheld, hw, hf, hp, hv, hring, hbuf, hx, hst⟩ := h
  refine ⟨fun hb => ?_, ?_, ?_, ?_, ?_, ?_, ?_, ?_, ?_, ?_⟩
  · obtain ⟨unfaulted, output, count⟩ := hrun (status ▸ hb)
    exact ⟨by rwa [status], by rwa [seq], by rwa [seq]⟩
  all_goals simp only [dly, lfo, status, rst, xmem]; assumption

/-- What a running command was checked for depends on FAULT, CMD_L and the latched operands alone. -/
theorem RunningInv.congr {P : Params} {s t : State} (h : RunningInv P s) (fault : t.status.fault = s.status.fault)
    (cmd : t.seq.cmd = s.seq.cmd) (ops : t.seq.ops = s.seq.ops) : RunningInv P t :=
  ⟨by rw [fault]; exact h.unfaulted, by rw [cmd, ops]; exact h.output, by rw [cmd, ops]; exact h.count⟩

/-- An unfaulted core has no BUSY_VIOLATION behind it. -/
theorem StatusConsistent.cause_of_unfaulted {t : Status} (h : StatusConsistent t) (hf : t.fault = false) :
    t.cause ≠ .busyViolation := by
  intro hc
  unfold StatusConsistent at h
  rw [hc] at h
  exact Bool.noConfusion (h.1.symm.trans hf)

/-! ## the moves of a running command -/

/-- A sample step of DLY.PROC writes a RING element below CAP and an XMEM element of its output range. -/
theorem dlySample_inv {s : State} (h : CoreInv Config.params s) (hr : RunningInv Config.params s)
    (hout : s.seq.ops.hOut.msb = false)
    (hi : handleBase s.seq.ops.hOut + s.seq.i.toNat < Config.params.xmemSize) :
    CoreInv Config.params (dlySample Config.params s) :=
  { h with
    running := fun _ => hr.congr rfl rfl rfl
    writeIndex := Nat.mod_lt _ params_cap_pos
    feedback := fun _ => clampHi_clamped _
    ring := h.ring.memWrite h.writeIndex _
    xmem := by
      show MemInv none _ (wrBuf s.seq.ops.hOut _ _ _)
      rw [wrBuf_eq hout]
      exact h.xmem.memWrite hi _ }

/-- A sample step of LFO.PROC writes an LFOBUF element below CAP and wraps the phase. -/
theorem lfoSample_inv {s : State} (h : CoreInv Config.params s) (hr : RunningInv Config.params s)
    (hi : s.seq.i.toNat < Config.params.cap) : CoreInv Config.params (lfoSample Config.params s) :=
  { h with
    running := fun _ => hr.congr rfl rfl rfl
    phase := fun _ => phaseWrap_inRange _ _ _
    buf := h.buf.memWrite hi _ }

theorem sampleStep_inv {i : Instr} {s : State} (h : CoreInv Config.params s) (hr : RunningInv Config.params s)
    (hd : decode s.seq.cmd = .ok i) (hi : s.seq.i.toNat < sampleSteps i s) :
    CoreInv Config.params (sampleStep Config.params i s) := by
  cases i
  case dlyProc =>
    obtain ⟨hout, hfits⟩ := hr.output hd
    exact dlySample_inv h hr hout (lt_of_lt_of_le (Nat.add_lt_add_left hi _) hfits)
  case lfoProc => exact lfoSample_inv h hr (lt_of_lt_of_le hi (hr.count hd))
  all_goals exact h

theorem endCommand_inv {i : Instr} {s : State} (h : CoreInv Config.params s) (hr : RunningInv Config.params s)
    (hd : decode s.seq.cmd = .ok i) : CoreInv Config.params (endCommand Config.params i s) := by
  have running : s.status.busy = true → RunningInv Config.params (endCommand Config.params i s) := fun _ => by
    cases i <;> exact hr.congr rfl rfl rfl
  cases i
  case dlyProc => exact h
  case dlySetsr => exact { h with running }
  case dlyReset => exact { h with running, feedback := fun _ => feedbackClamped_f64Zero, ring := MemInv.nil _ _ }
  case lfoSetsr => exact { h with running }
  case lfoReset =>
    exact { h with
      running, phase := fun _ => phaseInRange_f32Zero, valid := Nat.zero_le _, buf := MemInv.nil _ _ }
  case lfoProc => exact { h with running, valid := hr.count hd }
  case lfoGetbuf => exact { h with running }

theorem setBusy_false_inv {P : Params} {s : State} (h : CoreInv P s) : CoreInv P (setBusy false s) :=
  { h with
    running := fun hb => Bool.noConfusion hb
    held := fun hr => ⟨rfl, (h.held hr).2⟩ }

/-- A move of the running command keeps the invariant, and what the command was checked for. -/
theorem advance_inv {s : State} (h : CoreInv Config.params s) (hr : RunningInv Config.params s) :
    CoreInv Config.params (advance Config.params s) := by
  unfold advance
  split
  · exact setBusy_false_inv h
  · rename_i i hd
    split
    · exact sampleStep_inv h hr hd ‹_›
    · exact setBusy_false_inv (endCommand_inv h hr hd)

@[simp] theorem advance_cmd (P : Params) (s : State) : (advance P s).seq.cmd = s.seq.cmd :=
  advance_keeps (Inv := fun t => t.seq.cmd = s.seq.cmd) (fun i _ h => by cases i <;> exact h)
    (fun i _ h => by cases i <;> exact h) (fun _ h => h) rfl

@[simp] theorem advance_ops (P : Params) (s : State) : (advance P s).seq.ops = s.seq.ops :=
  advance_keeps (Inv := fun t => t.seq.ops = s.seq.ops) (fun i _ h => by cases i <;> exact h)
    (fun i _ h => by cases i <;> exact h) (fun _ h => h) rfl

theorem repeatStep_advance_inv (n : Nat) {s : State} (h : CoreInv Config.params s)
    (hr : RunningInv Config.params s) : CoreInv Config.params (repeatStep (advance Config.params) n s) :=
  (repeatStep_keeps (Inv := fun t => CoreInv Config.params t ∧ RunningInv Config.params t)
    (fun t ⟨ht, hrt⟩ =>
      ⟨advance_inv ht hrt, hrt.congr (advance_fault _ t) (advance_cmd _ t) (advance_ops _ t)⟩) n s ⟨h, hr⟩).1

/-! ## issue -/

/-- A command that has passed its issue checks is one that `RunningInv` asks for. -/
theorem started_runningInv {P : Params} {i : Instr} {s : State} (hi : Idle s) (hr : Ready P i s) :
    RunningInv P (started P i s) := by
  have hd : decode (started P i s).seq.cmd = .ok i := by rw [started_cmd, decode_encode]
  refine ⟨?_, fun h => ?_, fun h => ?_⟩
  · cases i <;> exact hi.1
  · cases hd.symm.trans h
    have hfits := hr.fitsOut
    rw [Fits, if_neg (by rw [hr.out]; decide)] at hfits
    exact ⟨hr.out, hfits⟩
  · cases hd.symm.trans h
    exact hr.count

theorem started_inv {P : Params} {i : Instr} {s : State} (h : CoreInv P s) (hi : Idle s) (hr : Ready P i s) :
    CoreInv P (started P i s) := by
  have running : (started P i s).status.busy = true → RunningInv P (started P i s) := fun _ =>
    started_runningInv hi hr
  have held : (started P i s).rst = true →
      (started P i s).status.busy = false ∧ (started P i s).status.fault = false := fun hrst => by
    have hs : s.rst = true := by cases i <;> exact hrst
    exact Bool.noConfusion (hi.2.2.symm.trans hs)
  cases i <;> exact { h with running, held }

/-- A fault of the table, raised in an idle core. -/
theorem raiseFault_inv {P : Params} {s : State} {r : Refused} (h : CoreInv P s) (hi : Idle s) (hr : r.InTable) :
    CoreInv P (raiseFault r s) :=
  { h with
    running := fun hb => Bool.noConfusion hb
    held := fun hrst => Bool.noConfusion (hi.2.2.symm.trans hrst)
    feedback := fun _ => h.feedback (h.status.cause_of_unfaulted hi.1)
    phase := fun _ => h.phase (h.status.cause_of_unfaulted hi.1)
    status := hr }

/-! ## BUSY_VIOLATION, rst, XMEM -/

/-- A BUSY_VIOLATION keeps the ranges of writeIndex and LFO_VALID and the memories' form, whatever is drawn. -/
theorem busyViolation_inv {s : State} (h : CoreInv Config.params s) (hv : Violated s) :
    CoreInv Config.params (busyViolation Config.params s) where
  running hb := Bool.noConfusion hb
  held hrst := Bool.noConfusion (hv.1.symm.trans ((busyViolation_rst _ s).symm.trans hrst))
  writeIndex := (unspecifiedDly_inv params_cap_pos _ _).1
  feedback hc := absurd rfl hc
  phase hc := absurd rfl hc
  valid := (unspecifiedLfo_inv _ _ _).1
  ring := (unspecifiedDly_inv params_cap_pos _ _).2
  buf := (unspecifiedLfo_inv _ _ _).2
  xmem := interruptedXmem_inv h.xmem
  status := ⟨rfl, rfl⟩

/-- The reset values meet the invariant over any XMEM that does. -/
theorem resetCore_inv (level : Bool) {s : State} (h : MemInv none Config.params.xmemSize s.xmem) :
    CoreInv Config.params (resetCore Config.params level s) where
  running hb := Bool.noConfusion hb
  held _ := ⟨rfl, rfl⟩
  writeIndex := params_cap_pos
  feedback _ := feedbackClamped_f64Zero
  phase _ := phaseInRange_f32Zero
  valid := Nat.zero_le _
  ring := MemInv.nil _ _
  buf := MemInv.nil _ _
  xmem := h
  status := ⟨rfl, rfl⟩

/-- Settles O10: power-on is a reset with XMEM unwritten. -/
theorem resetMeetsInvariant : Obligations.ResetMeetsInvariant :=
  resetCore_inv false (s := State.reset) (MemInv.nil _ _)

/-- Settles O11: each case of a step keeps the invariant. -/
theorem stepKeepsInvariant : Obligations.StepKeepsInvariant := by
  intro s t hs ht
  have hu : CoreInv Config.params (popped s) := hs.congr rfl rfl rfl rfl rfl rfl
  cases step_cases ht with
  | unheeded h => exact hu.congr h.dly h.lfo h.seq h.status h.rst h.xmem
  | reset level x _ hx h =>
    rw [h]
    refine resetCore_inv level ?_
    rcases hx with rfl | ⟨-, rfl⟩
    · exact hu.xmem
    · exact interruptedXmem_inv hu.xmem
  | violation _ hv h => rw [h]; exact busyViolation_inv hu hv
  | command i n _ hi hr h _ =>
    rw [h]; exact repeatStep_advance_inv n (started_inv hu hi hr) (started_runningInv hi hr)
  | refused r _ hi hr h => rw [h]; exact raiseFault_inv hu hi hr
  | register n d _ _ h => rw [h]; exact hu.congr rfl rfl rfl rfl rfl rfl
  | move _ hb h => rw [h]; exact advance_inv hu (hu.running hb)
  | xmem k v _ hk h =>
    rw [h]
    exact { hu with
      running := fun hb => (hu.running hb).congr rfl rfl rfl
      xmem := hu.xmem.memWrite hk v }

end Sys2Proof.Machine

/-! SUPPORT. What each command leaves as it is (10_state.md sections 2, 3 and 5), and so which moves write each piece of
the core's state. -/

namespace Sys2Proof.Machine

/-! ## the frame of commands -/

/-- The pieces of the DelayEngine and of the LFO that are the same in t as in s where only the commands of `acts` act
in between. -/
structure EngineFrame (acts : Instr → Prop) (s t : State) : Prop where
  dlyRate : ¬ acts .dlySetsr → t.dly.sampleRate = s.dly.sampleRate
  writeIndex : ¬ acts .dlyProc → t.dly.writeIndex = s.dly.writeIndex
  signal : ¬ acts .dlyReset → ¬ acts .dlyProc →
    t.dly = { s.dly with sampleRate := t.dly.sampleRate, writeIndex := t.dly.writeIndex }
  lfoRate : ¬ acts .lfoSetsr → t.lfo.sampleRate = s.lfo.sampleRate
  wave : ¬ acts .lfoReset → ¬ acts .lfoProc → t.lfo = { s.lfo with sampleRate := t.lfo.sampleRate }

/-- The same of the whole core and XMEM, BUSY, the sequencer and the model's own fields apart. -/
structure ActFrame (acts : Instr → Prop) (s t : State) : Prop extends EngineFrame acts s t where
  result : ¬ acts .lfoGetbuf → t.result = s.result
  oor : ¬ acts .dlyProc → t.status.oor = s.status.oor
  oorSticky : s.status.oor = true → t.status.oor = true
  xmem : ¬ acts .dlyProc → t.xmem = s.xmem
  regs : t.regs = s.regs
  fault : t.status.fault = s.status.fault
  cause : t.status.cause = s.status.cause
  info : t.status.info = s.status.info
  rst : t.rst = s.rst

theorem EngineFrame.of_eq (acts : Instr → Prop) {s t : State} (dly : t.dly = s.dly) (lfo : t.lfo = s.lfo) :
    EngineFrame acts s t :=
  ⟨fun _ => by rw [dly], fun _ => by rw [dly], fun _ _ => by rw [dly], fun _ => by rw [lfo], fun _ _ => by rw [lfo]⟩

theorem EngineFrame.trans {acts : Instr → Prop} {s t u : State} (h : EngineFrame acts s t)
    (k : EngineFrame acts t u) : EngineFrame acts s u where
  dlyRate ha := (k.dlyRate ha).trans (h.dlyRate ha)
  writeIndex ha := (k.writeIndex ha).trans (h.writeIndex ha)
  signal ha hb := by rw [k.signal ha hb, h.signal ha hb]
  lfoRate ha := (k.lfoRate ha).trans (h.lfoRate ha)
  wave ha hb := by rw [k.wave ha hb, h.wave ha hb]

theorem ActFrame.refl (acts : Instr → Prop) (s : State) : ActFrame acts s s :=
  ⟨.of_eq acts rfl rfl, fun _ => rfl, fun _ => rfl, id, fun _ => rfl, rfl, rfl, rfl, rfl, rfl⟩

theorem ActFrame.trans {acts : Instr → Prop} {s t u : State} (h : ActFrame acts s t) (k : ActFrame acts t u) :
    ActFrame acts s u where
  toEngineFrame := h.toEngineFrame.trans k.toEngineFrame
  result ha := (k.result ha).trans (h.result ha)
  oor ha := (k.oor ha).trans (h.oor ha)
  oorSticky := k.oorSticky ∘ h.oorSticky
  xmem ha := (k.xmem ha).trans (h.xmem ha)
  regs := k.regs.trans h.regs
  fault := k.fault.trans h.fault
  cause := k.cause.trans h.cause
  info := k.info.trans h.info
  rst := k.rst.trans h.rst

variable {acts : Instr → Prop} {i : Instr}

theorem setBusy_actFrame (b : Bool) (s : State) : ActFrame acts s (setBusy b s) :=
  { ActFrame.refl acts s with regs := rfl }

theorem latch_actFrame (w : CmdWord) (s : State) : ActFrame acts s (latch w s) :=
  { ActFrame.refl acts s with regs := rfl }

theorem startCommand_actFrame (P : Params) (s : State) (h : acts i) : ActFrame acts s (startCommand P i s) := by
  cases i
  case dlyProc => exact { ActFrame.refl acts s with signal := fun _ hn => absurd h hn }
  all_goals exact .refl acts s

theorem sampleStep_actFrame (P : Params) (s : State) (h : acts i) : ActFrame acts s (sampleStep P i s) := by
  cases i
  case dlyProc =>
    exact { ActFrame.refl acts s with
      writeIndex := fun hn => absurd h hn
      signal := fun _ hn => absurd h hn
      oor := fun hn => absurd h hn
      xmem := fun hn => absurd h hn
      oorSticky := fun ho => Bool.or_eq_true_iff.mpr (.inl ho) }
  case lfoProc => exact { ActFrame.refl acts s with wave := fun _ hn => absurd h hn }
  all_goals exact .refl acts s

theorem endCommand_actFrame (P : Params) (s : State) (h : acts i) : ActFrame acts s (endCommand P i s) := by
  cases i
  case dlyProc => exact .refl acts s
  case dlySetsr => exact { ActFrame.refl acts s with dlyRate := fun hn => absurd h hn, signal := fun _ _ => rfl }
  case dlyReset => exact { ActFrame.refl acts s with signal := fun hn => absurd h hn }
  case lfoSetsr => exact { ActFrame.refl acts s with lfoRate := fun hn => absurd h hn, wave := fun _ _ => rfl }
  case lfoReset => exact { ActFrame.refl acts s with wave := fun hn => absurd h hn }
  case lfoProc => exact { ActFrame.refl acts s with wave := fun _ hn => absurd h hn }
  case lfoGetbuf => exact { ActFrame.refl acts s with result := fun hn => absurd h hn }

/-- A move of a busy core writes what the command in CMD_L writes. -/
theorem advance_actFrame (P : Params) {s : State} (h : ∀ i, decode s.seq.cmd = .ok i → acts i) :
    ActFrame acts s (advance P s) := by
  unfold advance
  split
  · exact setBusy_actFrame false s
  · rename_i i hd
    split
    · exact sampleStep_actFrame P s (h i hd)
    · exact (endCommand_actFrame P s (h i hd)).trans (setBusy_actFrame false _)

theorem repeatStep_advance_actFrame (P : Params) (n : Nat) {s : State} (h : ∀ i, decode s.seq.cmd = .ok i → acts i) :
    ActFrame acts s (repeatStep (advance P) n s) :=
  (repeatStep_keeps (Inv := fun t => ActFrame acts s t ∧ t.seq.cmd = s.seq.cmd)
    (fun t ⟨ht, hc⟩ => ⟨ht.trans (advance_actFrame P (hc ▸ h)), (advance_cmd P t).trans hc⟩) n s ⟨.refl acts s, rfl⟩).1

/-- A command issued to an idle core, run to its end or in part, writes what it writes. -/
theorem started_actFrame (P : Params) (n : Nat) (s : State) (h : acts i) :
    ActFrame acts s (repeatStep (advance P) n (started P i s)) := by
  have hstart : ActFrame acts s (started P i s) :=
    ((latch_actFrame _ s).trans (setBusy_actFrame true _)).trans (startCommand_actFrame P _ h)
  refine hstart.trans (repeatStep_advance_actFrame P n fun j hj => ?_)
  rw [started_cmd, decode_encode] at hj
  cases hj
  exact h

/-- An abandoned command has written what it writes. -/
theorem abandon_actFrame (P : Params) {s : State} (h : ∀ i, decode s.seq.cmd = .ok i → acts i) :
    ActFrame acts s (abandon P s) := by
  have hdraw : ActFrame acts s { s with drawCount := s.drawCount + 1 } :=
    { ActFrame.refl acts s with regs := rfl }
  exact hdraw.trans (repeatStep_advance_actFrame P _ h)

/-- An interruption changes XMEM only where a DLY.PROC runs. -/
theorem decode_of_interruptedXmem_ne {s : State} (h : interruptedXmem s ≠ s.xmem) :
    decode s.seq.cmd = .ok .dlyProc := by
  unfold interruptedXmem at h
  split at h
  case h_2 hd => exact hd
  all_goals exact absurd rfl h

end Sys2Proof.Machine

/-! SUPPORT. Which moves write each piece of the state, and what stays set (10_state.md sections 2, 3 and 5, R35;
60_exceptions.md R233, R241). -/

namespace Sys2Proof.Machine

/-! ## what stays set -/

/-- Settles O17: no command clears OOR or touches FAULT, CAUSE and INFO, and only an unfaulted core takes a fault. -/
theorem statusIsSticky : Obligations.StatusIsSticky := by
  intro s t ht hs
  have unfaulted {p : Prop} (hf : s.status.fault = false) : s.status.fault = true → p := fun h =>
    Bool.noConfusion (hf.symm.trans h)
  cases step_cases ht with
  | unheeded h => rw [h.status]; exact ⟨id, fun h => ⟨h, rfl, rfl⟩⟩
  | reset _ _ hr => exact absurd hr hs
  | violation _ hv h => rw [h]; exact ⟨abandon_oor _ (s := popped s), unfaulted hv.2.1⟩
  | command i n _ hi _ h =>
    rw [h]; exact ⟨(started_actFrame (acts := (· = i)) _ n (popped s) rfl).oorSticky, unfaulted hi.1⟩
  | refused _ _ hi _ h => rw [h]; exact ⟨id, unfaulted hi.1⟩
  | register _ _ _ _ h => rw [h]; exact ⟨id, fun h => ⟨h, rfl, rfl⟩⟩
  | move _ _ h => rw [h]; exact ⟨advance_oor _ (s := popped s), by simp⟩
  | xmem _ _ _ _ h => rw [h]; exact ⟨id, fun h => ⟨h, rfl, rfl⟩⟩

section

variable {s t : State}

/-! ## the DelayEngine and the LFO -/

/-- A step writes the DelayEngine and the LFO as the commands that act in it do, rst and a BUSY_VIOLATION apart. -/
theorem step_engineFrame (ht : step s = .next t) :
    Resets s ∨ Abandons s ∨ EngineFrame (fun i => Acts i s) s t := by
  cases step_cases ht with
  | unheeded h => exact .inr (.inr (.of_eq _ h.dly h.lfo))
  | reset _ _ hs => exact .inl hs
  | violation hs => exact .inr (.inl hs)
  | command i n hs _ _ h =>
    have hf := started_actFrame Config.params n (popped s) (acts := fun i => Acts i s) (.inl hs)
    rw [h]
    exact .inr (.inr { hf.toEngineFrame with })
  | refused _ _ _ _ h => rw [h]; exact .inr (.inr (.of_eq _ rfl rfl))
  | register _ _ _ _ h => rw [h]; exact .inr (.inr (.of_eq _ rfl rfl))
  | move _ hb h =>
    have hf := advance_actFrame Config.params (s := popped s) (acts := fun i => Acts i s)
      fun i hd => .inr ⟨hb, hd⟩
    rw [h]
    exact .inr (.inr { hf.toEngineFrame with })
  | xmem _ _ _ _ h => rw [h]; exact .inr (.inr (.of_eq _ rfl rfl))

theorem step_dlyRate (ht : step s = .next t) (h : t.dly.sampleRate ≠ s.dly.sampleRate) :
    Resets s ∨ Acts .dlySetsr s ∨ Abandons s := by
  rcases step_engineFrame ht with hr | ha | hf
  · exact .inl hr
  · exact .inr (.inr ha)
  · exact .inr (.inl (Classical.byContradiction fun hn => h (hf.dlyRate hn)))

theorem step_writeIndex (ht : step s = .next t) (h : t.dly.writeIndex ≠ s.dly.writeIndex) :
    Resets s ∨ Acts .dlyProc s ∨ Abandons s := by
  rcases step_engineFrame ht with hr | ha | hf
  · exact .inl hr
  · exact .inr (.inr ha)
  · exact .inr (.inl (Classical.byContradiction fun hn => h (hf.writeIndex hn)))

/-- Every piece g of the DelayEngine but sampleRate and writeIndex is written by DLY.RESET and DLY.PROC. -/
theorem step_signal {α : Type} (g : DelayEngine → α)
    (hg : ∀ d r w, g { d with sampleRate := r, writeIndex := w } = g d) (ht : step s = .next t)
    (h : g t.dly ≠ g s.dly) : Resets s ∨ Acts .dlyReset s ∨ Acts .dlyProc s ∨ Abandons s := by
  rcases step_engineFrame ht with hr | ha | hf
  · exact .inl hr
  · exact .inr (.inr (.inr ha))
  · by_cases hreset : Acts .dlyReset s
    · exact .inr (.inl hreset)
    · refine .inr (.inr (.inl (Classical.byContradiction fun hproc => h ?_)))
      rw [hf.signal hreset hproc, hg]

theorem step_lfoRate (ht : step s = .next t) (h : t.lfo.sampleRate ≠ s.lfo.sampleRate) :
    Resets s ∨ Acts .lfoSetsr s ∨ Abandons s := by
  rcases step_engineFrame ht with hr | ha | hf
  · exact .inl hr
  · exact .inr (.inr ha)
  · exact .inr (.inl (Classical.byContradiction fun hn => h (hf.lfoRate hn)))

/-- Every piece g of the LFO but sampleRate is written by LFO.RESET and LFO.PROC. -/
theorem step_wave {α : Type} (g : Lfo → α) (hg : ∀ l r, g { l with sampleRate := r } = g l) (ht : step s = .next t)
    (h : g t.lfo ≠ g s.lfo) : Resets s ∨ Acts .lfoReset s ∨ Acts .lfoProc s ∨ Abandons s := by
  rcases step_engineFrame ht with hr | ha | hf
  · exact .inl hr
  · exact .inr (.inr (.inr ha))
  · by_cases hreset : Acts .lfoReset s
    · exact .inr (.inl hreset)
    · refine .inr (.inr (.inl (Classical.byContradiction fun hproc => h ?_)))
      rw [hf.wave hreset hproc, hg]

/-! ## RESULT, OOR, rst -/

/-- What a BUSY_VIOLATION keeps of the frame of commands, every step but a reset keeps. -/
theorem step_outputs (ht : step s = .next t) (hs : ¬ Resets s) :
    (¬ Acts .lfoGetbuf s → t.result = s.result) ∧ (¬ Acts .dlyProc s → t.status.oor = s.status.oor) ∧
      t.rst = s.rst := by
  have of_frame {v : State} (hf : ActFrame (fun i => Acts i s) (popped s) v) :
      (¬ Acts .lfoGetbuf s → v.result = s.result) ∧ (¬ Acts .dlyProc s → v.status.oor = s.status.oor) ∧
        v.rst = s.rst := ⟨hf.result, hf.oor, hf.rst⟩
  cases step_cases ht with
  | unheeded h => exact ⟨fun _ => h.result, fun _ => by rw [h.status], h.rst⟩
  | reset _ _ hr => exact absurd hr hs
  | violation _ hv h =>
    obtain ⟨hresult, hoor, hrst⟩ := of_frame (abandon_actFrame Config.params fun i hd => .inr ⟨hv.2.2, hd⟩)
    rw [h]
    exact ⟨hresult, hoor, hrst⟩
  | command i n hi _ _ h => rw [h]; exact of_frame (started_actFrame _ n _ (.inl hi))
  | refused _ _ _ _ h => rw [h]; exact ⟨fun _ => rfl, fun _ => rfl, rfl⟩
  | register _ _ _ _ h => rw [h]; exact ⟨fun _ => rfl, fun _ => rfl, rfl⟩
  | move _ hb h => rw [h]; exact of_frame (advance_actFrame _ fun i hd => .inr ⟨hb, hd⟩)
  | xmem _ _ _ _ h => rw [h]; exact ⟨fun _ => rfl, fun _ => rfl, rfl⟩

theorem step_result (ht : step s = .next t) (h : t.result ≠ s.result) : Resets s ∨ Acts .lfoGetbuf s :=
  or_iff_not_imp_left.mpr fun hs => by
    obtain ⟨hresult, -, -⟩ := step_outputs ht hs
    exact not_imp_comm.mp hresult h

theorem step_oor (ht : step s = .next t) (h : t.status.oor ≠ s.status.oor) : Resets s ∨ Acts .dlyProc s :=
  or_iff_not_imp_left.mpr fun hs => by
    obtain ⟨-, hoor, -⟩ := step_outputs ht hs
    exact not_imp_comm.mp hoor h

theorem step_rst (ht : step s = .next t) (h : t.rst ≠ s.rst) : Resets s :=
  Classical.byContradiction fun hs => by
    obtain ⟨-, -, hrst⟩ := step_outputs ht hs
    exact h hrst

/-! ## the operand registers -/

/-- An operand register reads as the operand registers hold it. -/
theorem readRegister_congr {n : RegName} (hn : n ∉ [RegName.cmd, .status, .result]) (h : t.regs = s.regs) :
    readRegister t n = readRegister s n := by
  cases n
  case cmd => exact absurd (by decide) hn
  case status => exact absurd (by decide) hn
  case result => exact absurd (by decide) hn
  all_goals simp only [readRegister, h]

/-- A write of one register is read in no other. -/
theorem readRegister_writeRegister_ne {n m : RegName} (d : BusData) (s : State) (h : n ≠ m) :
    readRegister (writeRegister m d s) n = readRegister s n := by
  have operand (o : OperandName) (ho : n ≠ registerOf o) :
      readRegister (writeRegister (registerOf o) d s) n = readRegister s n :=
    (readRegister_writeOperand s s.regs d o n).trans (if_neg ho)
  cases m with
  | cmd => rfl
  | status => rfl
  | result => rfl
  | count => exact operand .n h
  | sr => exact operand .sr h
  | fbBase => exact operand .fb h
  | fbEnvAmt => exact operand .fbenv h
  | wetDry => exact operand .wet h
  | scAmt => exact operand .sc h
  | hIn => exact operand .input h
  | hMod => exact operand .modulation h
  | hEnv => exact operand .env h
  | hOut => exact operand .out h
  | lfoRate => exact operand .rate h
  | lfoDepth => exact operand .depth h
  | lfoPhoff => exact operand .phoff h

theorem step_operands (ht : step s = .next t) (n : RegName) (hn : n ∉ [RegName.cmd, .status, .result])
    (h : readRegister t n ≠ readRegister s n) : Resets s ∨ Writes n s := by
  have kept (hr : t.regs = s.regs) : Resets s ∨ Writes n s := absurd (readRegister_congr hn hr) h
  cases step_cases ht with
  | unheeded hc => exact kept hc.regs
  | reset _ _ hs => exact .inl hs
  | violation _ _ e => exact kept (by rw [e, busyViolation_regs])
  | command i k _ _ _ e =>
    exact kept (by rw [e]; exact (started_actFrame (acts := (· = i)) _ k _ rfl).regs)
  | refused _ _ _ _ e => exact kept (by rw [e]; rfl)
  | register m d hs _ e =>
    by_cases hm : n = m
    · exact .inr (hm ▸ hs)
    · rw [e, readRegister_writeRegister_ne d _ hm] at h
      exact absurd (readRegister_congr hn rfl) h
  | move _ _ e => exact kept (by rw [e, advance_regs])
  | xmem _ _ _ _ e => exact kept (by rw [e]; rfl)

/-! ## FAULT, CAUSE, INFO and BUSY -/

theorem step_fault (ht : step s = .next t)
    (h : t.status.fault ≠ s.status.fault ∨ t.status.cause ≠ s.status.cause ∨ t.status.info ≠ s.status.info) :
    Resets s ∨ (∃ n, Writes n s) ∨ Starts s := by
  have kept (hf : t.status.fault = s.status.fault) (hc : t.status.cause = s.status.cause)
      (hi : t.status.info = s.status.info) : Resets s ∨ (∃ n, Writes n s) ∨ Starts s :=
    absurd h (by rw [hf, hc, hi]; simp)
  cases step_cases ht with
  | unheeded hs => exact kept (by rw [hs.status]) (by rw [hs.status]) (by rw [hs.status])
  | reset _ _ hs => exact .inl hs
  | violation hs => exact .inr hs.2
  | command i n _ _ _ e =>
    have hf := started_actFrame (acts := (· = i)) Config.params n (popped s) rfl
    exact kept (by rw [e]; exact hf.fault) (by rw [e]; exact hf.cause) (by rw [e]; exact hf.info)
  | refused _ hs => exact .inr hs
  | register n _ hs => exact .inr (.inl ⟨n, hs⟩)
  | move _ _ e => exact kept (by rw [e, advance_fault]) (by rw [e, advance_cause]) (by rw [e, advance_info])
  | xmem _ _ _ _ e => exact kept (by rw [e]; rfl) (by rw [e]; rfl) (by rw [e]; rfl)

theorem step_busy_set (ht : step s = .next t) (hb : s.status.busy = false) (hb' : t.status.busy = true) :
    Starts s ∧ ∃ i, Issues i s := by
  have kept {p : Prop} (h : t.status.busy = s.status.busy) : p :=
    Bool.noConfusion ((hb.symm.trans h.symm).trans hb')
  cases step_cases ht with
  | unheeded h => exact kept (by rw [h.status])
  | reset _ _ _ _ e => rw [e] at hb'; cases hb'
  | violation _ _ e => rw [e] at hb'; cases hb'
  | command i n hs _ _ _ hend =>
    rcases hend with hidle | hstart
    · exact Bool.noConfusion (hidle.symm.trans hb')
    · exact ⟨hstart, i, hs⟩
  | refused _ _ _ _ e => rw [e] at hb'; cases hb'
  | register _ _ _ _ e => exact kept (by rw [e]; rfl)
  | move _ hu => exact Bool.noConfusion (hb.symm.trans hu)
  | xmem _ _ _ _ e => exact kept (by rw [e]; rfl)

theorem step_busy_cleared (ht : step s = .next t) (hb : s.status.busy = true) (hb' : t.status.busy = false) :
    Resets s ∨ (∃ n, Writes n s) ∨ Starts s ∨ Waits s := by
  have kept {p : Prop} (h : t.status.busy = s.status.busy) : p :=
    Bool.noConfusion ((hb'.symm.trans h).trans hb)
  have idle {p : Prop} (h : s.status.busy = false) : p := Bool.noConfusion (h.symm.trans hb)
  cases step_cases ht with
  | unheeded h => exact kept (by rw [h.status])
  | reset _ _ hs => exact .inl hs
  | violation hs => exact .inr (hs.2.imp_right .inl)
  | command _ _ _ hi => exact idle hi.2.1
  | refused _ _ hi => exact idle hi.2.1
  | register _ _ _ hi => exact idle hi.2.1
  | move hw => exact .inr (.inr (.inr hw))
  | xmem _ _ _ _ e => exact kept (by rw [e]; rfl)

/-! ## XMEM -/

theorem step_xmem (ht : step s = .next t) (h : t.xmem ≠ s.xmem) :
    Acts .dlyProc s ∨ ∃ k v rest, s.host = .writeXmem k v :: rest := by
  have framed {v : State} (hf : ActFrame (fun i => Acts i s) (popped s) v) (e : t = v) :
      Acts .dlyProc s := Classical.byContradiction fun hn => h (e ▸ hf.xmem hn)
  have interrupted (hb : s.status.busy = true) (e : t.xmem = interruptedXmem (popped s)) :
      Acts .dlyProc s := .inr ⟨hb, decode_of_interruptedXmem_ne fun hi => h (e.trans hi)⟩
  cases step_cases ht with
  | unheeded hs => exact absurd hs.xmem h
  | reset _ x _ hx e =>
    have hx' : t.xmem = x := by rw [e]; rfl
    rcases hx with rfl | ⟨hb, rfl⟩
    · exact absurd hx' h
    · exact .inl (interrupted hb hx')
  | violation _ hv e => exact .inl (interrupted hv.2.2 (by rw [e]; rfl))
  | command i n hs _ _ e => exact .inl (framed (started_actFrame _ n _ (.inl hs)) e)
  | refused _ _ _ _ e => exact absurd (by rw [e]; rfl) h
  | register _ _ _ _ e => exact absurd (by rw [e]; rfl) h
  | move _ hb e => exact .inl (framed (advance_actFrame _ fun i hd => .inr ⟨hb, hd⟩) e)
  | xmem k v hs => exact .inr ⟨k, v, hs⟩

end

/-- Settles O39: each piece by its own lemma. -/
theorem writtenOnlyBy : Obligations.WrittenOnlyBy := fun _ _ ht =>
  ⟨step_dlyRate ht, step_writeIndex ht,
    step_signal DelayEngine.feedbackSample (fun _ _ _ => rfl) ht,
    step_signal DelayEngine.timeSmoothed (fun _ _ _ => rfl) ht,
    step_signal DelayEngine.wetSmoothed (fun _ _ _ => rfl) ht,
    step_signal DelayEngine.feedbackSmoothed (fun _ _ _ => rfl) ht,
    step_signal DelayEngine.softClipSmoothed (fun _ _ _ => rfl) ht,
    step_signal DelayEngine.ring (fun _ _ _ => rfl) ht,
    step_lfoRate ht,
    step_wave Lfo.phase (fun _ _ => rfl) ht,
    step_wave Lfo.buf (fun _ _ => rfl) ht,
    step_wave Lfo.valid (fun _ _ => rfl) ht,
    step_result ht, step_operands ht, step_oor ht, step_fault ht, step_busy_set ht, step_busy_cleared ht, step_rst ht,
    step_xmem ht⟩

end Sys2Proof.Machine

/-! SUPPORT. The latched operands of a running command, the reset values, and the registers that ignore writes
(10_state.md R33, R36, R37, R51, R53). -/

namespace Sys2Proof.Machine

/-! ## the latched operands -/

/-- A sample step reads the latched copies, not the operand registers (30_encoding.md R92). -/
theorem sampleStep_withRegs (P : Params) (i : Instr) (s : State) (r : OperandRegs) :
    sampleStep P i { s with regs := r } = { sampleStep P i s with regs := r } := by cases i <;> rfl

theorem endCommand_withRegs (P : Params) (i : Instr) (s : State) (r : OperandRegs) :
    endCommand P i { s with regs := r } = { endCommand P i s with regs := r } := by cases i <;> rfl

/-- Settles O43: neither the choice of the move nor the move itself reads the operand registers. -/
theorem operandsAreLatched : Obligations.OperandsAreLatched := by
  intro P s r
  cases hd : decode s.seq.cmd with
  | error e => simp only [advance, hd]; rfl
  | ok i =>
    rw [advance_eq P hd, advance_eq P (s := { s with regs := r }) hd,
      sampleSteps_congr i (s := s) (t := { s with regs := r }) rfl, sampleStep_withRegs, endCommand_withRegs]
    split <;> rfl

/-! ## the reset values -/

/-- Settles O9: SC_POWERON is the one open value; the rest is what `State.reset` holds. -/
theorem resetValues : Obligations.ResetValues :=
  ⟨rfl, rfl, rfl, rfl, rfl, rfl, rfl, params_scPowerOn, ringRead_nil, rfl, rfl, lfoRead_nil, rfl, rfl, rfl, rfl, rfl,
    fun r k => xmemRead_nil r k⟩

/-! ## reads and read-only registers -/

/-- STATUS and RESULT are no operand registers: a write of one leaves the state as it is. -/
theorem writeRegister_readOnly {n : RegName} (hn : n ∈ [RegName.status, .result]) (d : BusData) (s : State) :
    writeRegister n d s = s := by
  rcases List.mem_pair.mp hn with rfl | rfl <;> rfl

theorem step_writeReadOnly {s : State} {rest : List HostMove} {a : RegAddr} {d : BusData} (hi : Idle s)
    (ha : regAt a ∈ [RegName.status, .result]) (hs : s.host = .writeReg a d :: rest) :
    step s = .next { s with host := rest } := by
  have hcmd : regAt a ≠ .cmd := fun h => absurd (h ▸ ha) (by decide)
  rw [step_writeReg hs, busWrite, if_neg hcmd, gate_idle _ _ (s := { s with host := rest }) hi,
    writeRegister_readOnly ha]

theorem step_readReg {s : State} {rest : List HostMove} {a : RegAddr} (hs : s.host = .readReg a :: rest)
    (hr : s.rst = false) : step s = .next { s with host := rest, hostData := readRegister s (regAt a) } := by
  rw [step_cons hs, hostMove, busRead_released _ a (s := { s with host := rest }) hr]
  cases regAt a <;> rfl

/-- Settles O15: a gated write that writes nothing, and a read. -/
theorem readsAndReadOnly : Obligations.ReadsAndReadOnly :=
  ⟨fun _ _ _ _ => step_writeReadOnly, fun _ _ _ => step_readReg, fun _ => ⟨rfl, rfl, rfl⟩⟩

end Sys2Proof.Machine

/-! SUPPORT. Reading back: an operand register after its write, an XMEM element after the host's write, and the rule of
a RING read (20_memory.md R63, R64, R74, R78). -/

namespace Sys2Proof.Machine

/-! ## the operand registers -/

/-- Every register but CMD, STATUS and RESULT is an operand's. -/
theorem exists_registerOf {n : RegName} (hn : n ∉ [RegName.cmd, .status, .result]) : ∃ o, registerOf o = n := by
  cases n with
  | cmd => exact absurd (by decide) hn
  | status => exact absurd (by decide) hn
  | result => exact absurd (by decide) hn
  | count => exact ⟨.n, rfl⟩
  | sr => exact ⟨.sr, rfl⟩
  | fbBase => exact ⟨.fb, rfl⟩
  | fbEnvAmt => exact ⟨.fbenv, rfl⟩
  | wetDry => exact ⟨.wet, rfl⟩
  | scAmt => exact ⟨.sc, rfl⟩
  | hIn => exact ⟨.input, rfl⟩
  | hMod => exact ⟨.modulation, rfl⟩
  | hEnv => exact ⟨.env, rfl⟩
  | hOut => exact ⟨.out, rfl⟩
  | lfoRate => exact ⟨.rate, rfl⟩
  | lfoDepth => exact ⟨.depth, rfl⟩
  | lfoPhoff => exact ⟨.phoff, rfl⟩

/-- The 64-bit registers by name (10_state.md section 5). -/
theorem operandWidth_eq_64_iff (o : OperandName) :
    operandWidth o = 64 ↔ registerOf o ∈ [RegName.sr, .fbBase, .fbEnvAmt, .wetDry, .scAmt] := by
  cases o <;> decide

/-- An operand register holds what was written to it, a 32-bit one bits [31:0] of it (30_encoding.md R95, R98). -/
theorem readRegister_writeRegister_same {n : RegName} (hn : n ∉ [RegName.cmd, .status, .result]) (d : BusData)
    (s : State) :
    readRegister (writeRegister n d s) n =
      if n ∈ [RegName.sr, .fbBase, .fbEnvAmt, .wetDry, .scAmt] then d else (d.setWidth 32).setWidth 64 := by
  obtain ⟨o, rfl⟩ := exists_registerOf hn
  calc readRegister (writeRegister (registerOf o) d s) (registerOf o)
      = if operandWidth o = 64 then d else (d.setWidth 32).setWidth 64 :=
        (readRegister_writeOperand s s.regs d o _).trans (if_pos rfl)
    _ = _ := if_congr (operandWidth_eq_64_iff o) rfl rfl

/-- A bus write of a register other than CMD, in an idle core. -/
theorem step_writeRegister {s : State} {rest : List HostMove} {a : RegAddr} {d : BusData} (hi : Idle s)
    (ha : regAt a ≠ .cmd) (hs : s.host = .writeReg a d :: rest) :
    step s = .next (writeRegister (regAt a) d { s with host := rest }) := by
  rw [step_writeReg hs, busWrite, if_neg ha, gate_idle _ _ (s := { s with host := rest }) hi]

/-- Settles O14: the write's step, the read's step, and what the write leaves in each register. -/
theorem registerReadBack : Obligations.RegisterReadBack := by
  intro s rest a d hi ha hs
  have hcmd : regAt a ≠ .cmd := fun h => ha (h ▸ List.mem_cons_self)
  have hwrite := step_writeRegister hi hcmd hs
  obtain ⟨-, -, hrst⟩ := hi
  have hread := step_readReg (s := writeRegister (regAt a) d { s with host := .readReg a :: rest }) rfl hrst
  exact ⟨_, ((run_succ 1 hwrite).trans (run_one _)).trans hread, readRegister_writeRegister_same ha d _,
    fun _ hn => readRegister_writeRegister_ne d { s with host := rest } hn, rfl⟩

/-! ## XMEM -/

/-- The host's access to an element of XMEM while BUSY = 0 is made (20_memory.md R63, R74). -/
theorem hostXmem_made {P : Params} {k : Nat} {s : State} (f : State → State) (hb : s.status.busy = false)
    (hk : k < P.xmemSize) : hostXmem P k f s = .next (f s) := by
  rw [hostXmem, hb, if_neg Bool.false_ne_true, if_pos hk]

theorem hostStep_cons (P : Params) (run : Runner) {s : State} {m : HostMove} {rest : List HostMove}
    (h : s.host = m :: rest) : hostStep P run s = hostMove P run m { s with host := rest } := by
  rw [hostStep, h]

theorem hostStep_writeXmem {P : Params} (run : Runner) {s : State} {k : Nat} {v : F64} {rest : List HostMove}
    (hb : s.status.busy = false) (hk : k < P.xmemSize) (h : s.host = .writeXmem k v :: rest) :
    hostStep P run s = .next (storeXmem k v { s with host := rest }) :=
  (hostStep_cons P run h).trans (hostXmem_made _ hb hk)

theorem hostStep_readXmem {P : Params} (run : Runner) {s : State} {k : Nat} {rest : List HostMove}
    (hb : s.status.busy = false) (hk : k < P.xmemSize) (h : s.host = .readXmem k :: rest) :
    hostStep P run s = .next (loadXmem P k { s with host := rest }) :=
  (hostStep_cons P run h).trans (hostXmem_made _ hb hk)

/-- Settles O41: a store, then a load of the element stored; and a load that answers its draw. -/
theorem hostXmemAccess : Obligations.HostXmemAccess := by
  intro P run s k v rest hb hwf hk
  have hread (r : F64) (j : Nat) :
      xmemRead r (xmemWrite s.xmem k v) j = if j = k then v else xmemRead r s.xmem j :=
    xmemRead_xmemWrite hwf k j v r
  constructor
  · intro hs
    have hdata : xmemRead (P.draw s.drawCount 0) (xmemWrite s.xmem k v) k = v := (hread _ k).trans (if_pos rfl)
    refine ⟨_, _, hostStep_writeXmem run hb hk hs, hostStep_readXmem run hb hk rfl, hdata, hread, ?_⟩
    unfold loadXmem storeXmem
    rw [hdata]
  · intro hs hunwritten
    exact ⟨_, hostStep_readXmem run hb hk hs, hunwritten _⟩

/-! ## RING -/

theorem rdRing_inRange {P : Params} (drawn : F64) (ring : Mem 64) {y : Int} (h : 0 ≤ y ∧ y < (P.cap : Int)) :
    rdRing P drawn ring y = ⟨ringRead ring y.toNat, false⟩ := if_pos h

theorem rdRing_draw {P : Params} (drawn : F64) (ring : Mem 64) {y : Int} (h : ¬ (0 ≤ y ∧ y < (P.cap : Int)))
    (hp : P.oorPolicy = .draw) : rdRing P drawn ring y = ⟨drawn, true⟩ := by
  rw [rdRing, if_neg h, hp]

theorem rdRing_modulo {P : Params} (drawn : F64) (ring : Mem 64) {y : Int} (h : ¬ (0 ≤ y ∧ y < (P.cap : Int)))
    (hp : P.oorPolicy = .modulo) :
    rdRing P drawn ring y = ⟨ringRead ring (y % (P.cap : Int)).toNat, true⟩ := by
  rw [rdRing, if_neg h, hp]

/-- Settles O42: the index in range, and out of range under each OOR_POLICY. -/
theorem ringReadRule : Obligations.RingReadRule := fun _ drawn ring _ =>
  ⟨rdRing_inRange drawn ring, fun h => ⟨rdRing_draw drawn ring h, rdRing_modulo drawn ring h⟩⟩

end Sys2Proof.Machine

/-! SUPPORT. The command word: its three fields make up the word, and decoding is the inverse of encoding
(30_encoding.md R90, R91, R97). -/

namespace Sys2Proof.Machine

/-! ## the fields of a word -/

/-- A word is its ZERO, UNIT and FUNC fields put together (30_encoding.md R90). -/
theorem toNat_eq_fields (w : CmdWord) : w.toNat = zeroField w * 2 ^ 8 + unitField w * 2 ^ 4 + funcField w := by
  unfold zeroField unitField funcField
  omega

/-- FUNC of a DelayEngine command, UNIT being 0, is its word. -/
theorem encode_of_decodeDly {n : Nat} {i : Instr} (h : decodeDly n = .ok i) : (encode i).toNat = n := by
  unfold decodeDly at h
  split at h <;> cases h <;> rfl

/-- FUNC of an LFO command, with UNIT 1 in front, is its word. -/
theorem encode_of_decodeLfo {n : Nat} {i : Instr} (h : decodeLfo n = .ok i) : (encode i).toNat = 2 ^ 4 + n := by
  unfold decodeLfo at h
  split at h <;> cases h <;> rfl

/-- A word that decodes has ZERO 0, and its UNIT picks the table of FUNC (30_encoding.md R90, R91). -/
theorem decode_ok_cases {w : CmdWord} {i : Instr} (h : decode w = .ok i) :
    zeroField w = 0 ∧ ((unitField w = 0 ∧ decodeDly (funcField w) = .ok i) ∨
      (unitField w = 1 ∧ decodeLfo (funcField w) = .ok i)) := by
  unfold decode at h
  split at h
  · cases h
  · rename_i hz
    refine ⟨not_not.mp hz, ?_⟩
    split at h
    · exact .inl ⟨‹_›, h⟩
    · exact .inr ⟨‹_›, h⟩
    · cases h

/-! ## decoding and encoding -/

/-- The only word that decodes to a command is its encoding. -/
theorem eq_encode_of_decode {w : CmdWord} {i : Instr} (h : decode w = .ok i) : w = encode i := by
  apply BitVec.eq_of_toNat_eq
  rw [toNat_eq_fields w]
  obtain ⟨hzero, ⟨hunit, hfunc⟩ | ⟨hunit, hfunc⟩⟩ := decode_ok_cases h
  · rw [encode_of_decodeDly hfunc, hzero, hunit]; omega
  · rw [encode_of_decodeLfo hfunc, hzero, hunit]; omega

theorem decode_eq_ok_iff {w : CmdWord} {i : Instr} : decode w = .ok i ↔ w = encode i :=
  ⟨eq_encode_of_decode, fun h => h ▸ decode_encode i⟩

/-- The words that are no encoding are the ones the decoder rejects. -/
theorem decode_eq_error_iff (w : CmdWord) : (∀ i, w ≠ encode i) ↔ ∃ e, decode w = .error e := by
  cases hd : decode w with
  | ok i =>
    exact ⟨fun h => absurd (eq_encode_of_decode hd) (h i), by rintro ⟨e, he⟩; cases he⟩
  | error e =>
    refine ⟨fun _ => ⟨e, rfl⟩, ?_⟩
    rintro - i rfl
    cases (decode_encode i).symm.trans hd

/-- A command's word, read as a word of spec/opcode_table.json, decodes to it. -/
theorem decodeTableWord_encode (i : Instr) : decodeTableWord 32 (encode i).toNat = some i := by cases i <;> rfl

/-- A word of spec/opcode_table.json that decodes, decodes on the bus. -/
theorem decode_of_decodeTableWord {nbits w : Nat} {i : Instr} (h : decodeTableWord nbits w = some i) :
    decode (busWord (tableBusData nbits w)) = .ok i := by
  unfold decodeTableWord at h
  split at h
  · cases h; assumption
  · cases h

/-- Settles O2: the one direction by command, the other by the fields of the word. -/
theorem encodingIsExact : Obligations.EncodingIsExact := ⟨decode_encode, fun _ _ => eq_encode_of_decode⟩

/-- Settles O1: each word is the encoding of its command. -/
theorem commandWords : Obligations.CommandWords :=
  ⟨decodeTableWord_encode .dlySetsr, decodeTableWord_encode .dlyReset, decodeTableWord_encode .dlyProc,
    decodeTableWord_encode .lfoSetsr, decodeTableWord_encode .lfoReset, decodeTableWord_encode .lfoProc,
    decodeTableWord_encode .lfoGetbuf⟩

end Sys2Proof.Machine

/-! SUPPORT. The layout of a handle and of the STATUS word, and the table of register addresses (30_encoding.md R93,
R96, R102, 60_exceptions.md R231). -/

namespace Sys2Proof.Machine

/-! ## handles -/

theorem handleIsLfo_eq_getLsbD (h : Handle) : handleIsLfo h = h.getLsbD 31 := rfl

/-- BASE is bits 30:0 (30_encoding.md R93). -/
theorem handleBase_eq_extractLsb' (h : Handle) : handleBase h = (h.extractLsb' 0 31).toNat := by
  rw [BitVec.extractLsb'_toNat, Nat.shiftRight_zero, handleBase]

theorem xmemHandle_space (b : BitVec 31) : handleIsLfo (xmemHandle b) = false := by
  simp [handleIsLfo_eq_getLsbD, xmemHandle]

theorem xmemHandle_base (b : BitVec 31) : handleBase (xmemHandle b) = b.toNat := by
  have hb := b.isLt
  rw [handleBase, xmemHandle, BitVec.toNat_setWidth]
  omega

theorem lfoHandle_space (b : BitVec 31) : handleIsLfo (lfoHandle b) = true := by
  simp [handleIsLfo_eq_getLsbD, lfoHandle]

/-- SPACE, bit 31, is above BASE. -/
theorem lfoHandle_base (b : BitVec 31) : handleBase (lfoHandle b) = b.toNat := by
  calc handleBase (lfoHandle b)
      = handleBase (xmemHandle b) ||| handleBase 0x80000000#32 := by
        rw [handleBase, lfoHandle, BitVec.toNat_or, Nat.or_mod_two_pow]; rfl
    _ = b.toNat := by rw [xmemHandle_base]; exact Nat.or_zero _

/-- Settles O4: the two fields of a handle, and the fields of the handles X:b and L:b. -/
theorem handleFormat : Obligations.HandleFormat :=
  ⟨fun h => ⟨handleIsLfo_eq_getLsbD h, handleBase_eq_extractLsb' h⟩,
    fun b => ⟨xmemHandle_space b, xmemHandle_base b, lfoHandle_space b, lfoHandle_base b⟩⟩

/-! ## STATUS -/

theorem statusWord_flags (t : Status) :
    (statusWord t).getLsbD 0 = t.busy ∧ (statusWord t).getLsbD 1 = t.fault ∧ (statusWord t).getLsbD 2 = t.oor := by
  unfold statusWord
  simp only [BitVec.getLsbD_append]
  simp [flagBit]

/-! A field wider than one bit is what is left at the low end when the fields below it are shifted out. -/

theorem statusWord_reserved_low (t : Status) : (statusWord t).extractLsb' 3 5 = 0 := by
  unfold statusWord
  iterate 3 rw [BitVec.extractLsb'_append_eq_of_le (by decide)]
  exact BitVec.extractLsb'_append_eq_right

theorem statusWord_cause (t : Status) : (statusWord t).extractLsb' 8 4 = causeCode t.cause := by
  unfold statusWord
  iterate 4 rw [BitVec.extractLsb'_append_eq_of_le (by decide)]
  exact BitVec.extractLsb'_append_eq_right

theorem statusWord_info (t : Status) : (statusWord t).extractLsb' 12 4 = t.info := by
  unfold statusWord
  iterate 5 rw [BitVec.extractLsb'_append_eq_of_le (by decide)]
  exact BitVec.extractLsb'_append_eq_right

theorem statusWord_reserved_high (t : Status) : (statusWord t).extractLsb' 16 16 = 0 := by
  unfold statusWord
  iterate 6 rw [BitVec.extractLsb'_append_eq_of_le (by decide)]
  rfl

/-- Settles O16: each field of the word by its own lemma; the codes are the definition's. -/
theorem statusFormat : Obligations.StatusFormat := by
  refine ⟨fun t => ?_, rfl, rfl, rfl, rfl, rfl, rfl, rfl, rfl⟩
  obtain ⟨hbusy, hfault, hoor⟩ := statusWord_flags t
  exact ⟨hbusy, hfault, hoor, statusWord_reserved_low t, statusWord_cause t, statusWord_info t,
    statusWord_reserved_high t⟩

/-! ## the register map -/

/-- Settles O6: the expansion is the definition's, and the register map is undone by its inverse. -/
theorem operandTable : Obligations.OperandTable :=
  ⟨fun _ _ => rfl, rfl, rfl, rfl, rfl, rfl, rfl, rfl, rfl, rfl, rfl, rfl, rfl, rfl, rfl, rfl, rfl, regAt_addrOf⟩

end Sys2Proof.Machine

/-! SUPPORT. A bus write of a command word: what it issues, what an illegal word does, and that bits 63:32 of the data
of a 32-bit register are not looked at (30_encoding.md R90, R97, R98, R100). -/

namespace Sys2Proof.Machine

/-! ## a word that is a command -/

/-- The step in which the host writes a command's word to CMD (30_encoding.md R100). -/
theorem step_writeCommand {s : State} {a : RegAddr} {d : BusData} {rest : List HostMove} {i : Instr}
    (hs : s.host = .writeReg a d :: rest) (ha : regAt a = .cmd) (hd : decode (busWord d) = .ok i) :
    step s = exec i { s with host := rest } := by
  rw [step_writeReg hs, busWrite, if_pos ha, writeCommand, hd]

/-- Settles O37: the write of CMD, and the same write placed by `withFetchWord`. -/
theorem stepRunsDecoded : Obligations.StepRunsDecoded :=
  ⟨fun _ _ _ _ _ hs ha hd _ => step_writeCommand hs ha hd,
    fun s w _ h =>
      step_writeCommand (s := s.withFetchWord 32 w) rfl (regAt_addrOf .cmd) (decode_of_decodeTableWord h)⟩

/-- Settles O36: a command past its checks ends its run with BUSY 0 and touches no FAULT; a refused one faults. -/
theorem commandsComplete : Obligations.CommandsComplete := by
  intro i s hi
  by_cases hr : Ready Config.params i s
  · obtain ⟨n, t, hexec, ht, hbusy⟩ := exec_started hi hr
    have hfault := (started_actFrame (acts := (· = i)) Config.params n s rfl).fault
    exact ⟨t, hexec, hbusy, fun _ => by rw [ht, hfault, hi.1]⟩
  · rcases beginCommand_cases Config.params i hi with ⟨-, r, -, hbegin⟩ | ⟨hready, -⟩
    · exact ⟨_, exec_notReady hi hr, by rw [hbegin]; rfl, fun hready => absurd hready hr⟩
    · exact absurd hready hr

/-! ## a word that is no command -/

/-- An illegal word written to CMD, whether its command would be waited for or left running. -/
theorem step_illegalWord {s : State} {d : BusData} {rest : List HostMove} {e : DecodeError} (hi : Idle s)
    (hs : s.host = .writeReg (addrOf .cmd) d :: rest ∨ s.host = .startCmd d :: rest)
    (hd : decode (busWord d) = .error e) :
    step s = .next (raiseFault ⟨.illegalCmd, 0⟩ { s with host := rest }) := by
  have hgate := gate_idle Config.params (raiseFault ⟨.illegalCmd, 0⟩) (s := { s with host := rest }) hi
  rcases hs with hs | hs
  · rw [step_writeReg hs, busWrite, if_pos (regAt_addrOf .cmd), writeCommand, hd]
    exact congrArg _ hgate
  · rw [step_cons hs, hostMove, startWrite, hd]
    exact congrArg _ hgate

/-- Settles O3: the illegal words are those the decoder rejects, and issuing one is a fault and nothing else. -/
theorem illegalWordFaults : Obligations.IllegalWordFaults := by
  refine ⟨decode_eq_error_iff, fun s d rest hi hs hw => ?_⟩
  obtain ⟨e, hd⟩ := (decode_eq_error_iff _).mp hw
  exact step_illegalWord hi hs hd

/-! ## bits 63:32 -/

/-- A 32-bit register takes bits 31:0 of the data; CMD, STATUS and RESULT are no operand registers. -/
theorem writeOperand_congr {n : RegName} (hn : n ∉ [RegName.sr, .fbBase, .fbEnvAmt, .wetDry, .scAmt])
    {d d' : BusData} (h : d.setWidth 32 = d'.setWidth 32) (r : OperandRegs) :
    writeOperand r d n = writeOperand r d' n := by
  cases n
  case sr => exact absurd (by decide) hn
  case fbBase => exact absurd (by decide) hn
  case fbEnvAmt => exact absurd (by decide) hn
  case wetDry => exact absurd (by decide) hn
  case scAmt => exact absurd (by decide) hn
  all_goals simp only [writeOperand, h]

theorem writeRegister_congr {n : RegName} (hn : n ∉ [RegName.sr, .fbBase, .fbEnvAmt, .wetDry, .scAmt])
    {d d' : BusData} (h : d.setWidth 32 = d'.setWidth 32) : writeRegister n d = writeRegister n d' := by
  funext s
  rw [writeRegister, writeRegister, writeOperand_congr hn h]

theorem busWrite_congr (P : Params) (run : Runner) {a : RegAddr}
    (ha : regAt a ∉ [RegName.sr, .fbBase, .fbEnvAmt, .wetDry, .scAmt]) {d d' : BusData}
    (h : d.setWidth 32 = d'.setWidth 32) (s : State) : busWrite P run a d s = busWrite P run a d' s := by
  have hword : busWord d = busWord d' := h
  rw [busWrite, busWrite, hword, writeRegister_congr ha h]

/-- Settles O5: neither a register write nor the command word looks at the upper half. -/
theorem upperHalfIgnored : Obligations.UpperHalfIgnored := by
  intro s rest d d' h
  have hword : busWord d = busWord d' := h
  refine ⟨fun a ha => ?_, ?_⟩
  · rw [step_writeReg rfl, step_writeReg rfl, busWrite_congr _ _ ha h]
  · rw [step_cons rfl, step_cons rfl, hostMove, hostMove, hword]

end Sys2Proof.Machine

/-! SUPPORT. The bus writes of a command line: the operand registers they leave, one operand after the other, and the
run of the line (30_encoding.md R101, R102). -/

namespace Sys2Proof.Machine

/-! ## the operand registers after the writes -/

/-- The operand registers after the bus writes of a line's operands, in order (30_encoding.md R102). -/
def writeOperands (r : OperandRegs) (ops : List LineOperand) : OperandRegs :=
  ops.foldl (fun r o => writeOperand r o.value (registerOf o.name)) r

@[simp] theorem writeOperands_nil (r : OperandRegs) : writeOperands r [] = r := rfl

@[simp] theorem writeOperands_cons (r : OperandRegs) (o : LineOperand) (ops : List LineOperand) :
    writeOperands r (o :: ops) = writeOperands (writeOperand r o.value (registerOf o.name)) ops := rfl

/-- A register that no operand of the list names reads as before. -/
theorem readRegister_writeOperands_other (s : State) {m : RegName} {ops : List LineOperand}
    (h : ∀ o ∈ ops, registerOf o.name ≠ m) (r : OperandRegs) :
    readRegister { s with regs := writeOperands r ops } m = readRegister { s with regs := r } m := by
  induction ops generalizing r with
  | nil => rfl
  | cons o ops ih =>
    obtain ⟨ho, hops⟩ := List.forall_mem_cons.mp h
    rw [writeOperands_cons, ih hops, readRegister_writeOperand, if_neg (Ne.symm ho)]

theorem operandWidth_cases (o : OperandName) : operandWidth o = 32 ∨ operandWidth o = 64 := by cases o <;> decide

/-- A value that fits its operand's register is held whole. -/
theorem fits_value {o : LineOperand} (h : o.fits = true) :
    (if operandWidth o.name = 64 then o.value else (o.value.setWidth 32).setWidth 64) = o.value := by
  have hlt : o.value.toNat < 2 ^ operandWidth o.name := of_decide_eq_true h
  split
  · rfl
  · rename_i hwide
    rw [(operandWidth_cases o.name).resolve_right hwide] at hlt
    exact BitVec.eq_of_toNat_eq (by simp only [BitVec.toNat_setWidth]; omega)

/-- Each operand named once and within its register's width is read back. -/
theorem readRegister_writeOperands_named (s : State) {ops : List LineOperand}
    (hnodup : (ops.map LineOperand.name).Nodup) (hfits : ∀ o ∈ ops, o.fits = true) (r : OperandRegs) :
    ∀ o ∈ ops, readRegister { s with regs := writeOperands r ops } (registerOf o.name) = o.value := by
  induction ops generalizing r with
  | nil => exact fun _ ho => absurd ho List.not_mem_nil
  | cons p ops ih =>
    rw [List.map_cons, List.nodup_cons] at hnodup
    obtain ⟨hp, hops⟩ := hnodup
    obtain ⟨hpfits, hopsfits⟩ := List.forall_mem_cons.mp hfits
    refine List.forall_mem_cons.mpr ⟨?_, ih hops hopsfits _⟩
    have hother : ∀ o ∈ ops, registerOf o.name ≠ registerOf p.name := fun o ho h =>
      hp (registerOf_injective h ▸ List.mem_map_of_mem ho)
    rw [writeOperands_cons, readRegister_writeOperands_other s hother, readRegister_writeOperand, if_pos rfl,
      fits_value hpfits]

/-! ## the run -/

/-- The bus writes of operands, from an idle core, write them in order. -/
theorem run_operands (ops : List LineOperand) {s : State} {rest : List HostMove} (hi : Idle s)
    (hs : s.host = ops.map expandOperand ++ rest) :
    Host.Core.run Sys2Proof.core ops.length s = .next { s with regs := writeOperands s.regs ops, host := rest } := by
  induction ops generalizing s with
  | nil => rw [writeOperands_nil, ← (show s.host = rest from hs)]; rfl
  | cons o ops ih =>
    rw [List.length_cons, run_succ _ (step_expandOperand hi hs)]
    exact ih hi rfl

/-- A command line, from an idle core, runs its command with the operand registers its writes leave. -/
theorem run_commandLine (l : CmdLine) {s : State} {rest : List HostMove} (hi : Idle s)
    (hs : s.host = expand l ++ rest) :
    Host.Core.run Sys2Proof.core (l.operands.length + 1) s =
      exec l.command { s with regs := writeOperands s.regs l.operands, host := rest } := by
  rw [expand, List.append_assoc] at hs
  rw [run_add _ 1 (run_operands l.operands hi hs), run_one, step_issueMove rfl]
  rfl

/-- What `CmdLine.wf` asks of a line's operands. -/
theorem operands_of_wf {l : CmdLine} (h : l.wf = true) :
    (l.operands.map LineOperand.name).Nodup ∧ ∀ o ∈ l.operands, o.fits = true := by
  simp only [CmdLine.wf, Bool.and_eq_true, decide_eq_true_eq, List.all_eq_true] at h
  obtain ⟨⟨-, hnodup⟩, hfits⟩ := h
  exact ⟨hnodup, hfits⟩

/-- Settles O7: the operands' writes, then the command's. -/
theorem commandLineRuns : Obligations.CommandLineRuns := by
  intro l s rest hwf hi hs
  obtain ⟨hnodup, hfits⟩ := operands_of_wf hwf
  exact ⟨writeOperands s.regs l.operands, run_commandLine l hi hs,
    readRegister_writeOperands_named s hnodup hfits s.regs,
    fun _ hm => readRegister_writeOperands_other s hm s.regs⟩

end Sys2Proof.Machine

/-! SUPPORT. What LFO.PROC, LFO.GETBUF and DLY.PROC, past their issue checks, leave as it is and where they leave the
counters (42_delay_process.md R160, R170, 44_lfo.md R212, R216). -/

namespace Sys2Proof.Machine

/-- BUSY set at issue and cleared at the end leaves an idle core's STATUS as it was. -/
theorem status_busy_restored {t : Status} (h : t.busy = false) : { { t with busy := true } with busy := false } = t :=
  status_busy_false h

/-! ## LFO.PROC -/

/-- What LFO.PROC, past its checks, leaves of s in t. -/
structure LfoProcFrame (s t : State) : Prop where
  dly : t.dly = s.dly
  status : t.status = s.status
  regs : t.regs = s.regs
  rst : t.rst = s.rst
  xmem : t.xmem = s.xmem
  host : t.host = s.host
  sampleRate : t.lfo.sampleRate = s.lfo.sampleRate
  valid : t.lfo.valid = s.regs.count.toNat

theorem lfoProcWith_frame {P : Params} {s : State} (h : LfoProcReady P s) : LfoProcFrame s (lfoProcWith P s) := by
  rcases lfoProc_cases P h.idle with ⟨hn, -⟩ | ⟨-, heq⟩
  · exact absurd h hn
  · have hf := lfoBlock_frame P s.regs.count.toNat (setBusy true (latch (encode .lfoProc) s))
    obtain ⟨-, hbusy, -⟩ := h.idle
    rw [heq]
    constructor
    case status =>
      rw [setBusy_status, endLfoBlock_status, hf.status]
      exact status_busy_restored hbusy
    case valid =>
      show (repeatStep _ _ _).seq.ops.count.toNat = _
      rw [hf.ops]; rfl
    case dly => exact hf.dly
    case regs => exact hf.regs
    case rst => exact hf.rst
    case xmem => exact hf.xmem
    case host => exact hf.host
    case sampleRate => exact hf.sampleRate

/-! ## LFO.GETBUF -/

/-- LFO.GETBUF writes RESULT and latches; nothing else changes (44_lfo.md R216). -/
theorem lfoGetbufWith_idle (P : Params) {s : State} (hi : Idle s) :
    lfoGetbufWith P s = { s with
      result := 0x80000000#32
      seq := { s.seq with cmd := encode .lfoGetbuf, ops := s.regs, i := 0 } } := by
  obtain ⟨-, hbusy, -⟩ := id hi
  rw [lfoGetbufWith, issueSimple_idle P _ _ hi]
  exact congrArg (fun t => { s with
    result := 0x80000000#32
    seq := { s.seq with cmd := encode .lfoGetbuf, ops := s.regs, i := 0 }
    status := t }) (status_busy_restored hbusy)

/-! ## DLY.PROC -/

/-- What DLY.PROC, past its checks, leaves of s in t, and where it leaves the write index. -/
structure DlyProcFrame (P : Params) (s t : State) : Prop where
  lfo : t.lfo = s.lfo
  regs : t.regs = s.regs
  result : t.result = s.result
  rst : t.rst = s.rst
  host : t.host = s.host
  hostData : t.hostData = s.hostData
  status : t.status = { s.status with oor := t.status.oor }
  oor : s.status.oor = true → t.status.oor = true
  sampleRate : t.dly.sampleRate = s.dly.sampleRate
  writeIndex : t.dly.writeIndex = (s.dly.writeIndex + s.regs.count.toNat) % P.cap
  ring : ∀ k, (∀ j, j < s.regs.count.toNat → k ≠ (s.dly.writeIndex + j) % P.cap) →
    ringRead t.dly.ring k = ringRead s.dly.ring k
  xmem : ∀ r k, k < handleBase s.regs.hOut ∨ handleBase s.regs.hOut + s.regs.count.toNat ≤ k →
    xmemRead r t.xmem k = xmemRead r s.xmem k

theorem dlyProcWith_frame {P : Params} {s : State} (h : DlyProcReady P s) (hinv : CoreInv P s) :
    DlyProcFrame P s (dlyProcWith P s) := by
  rcases dlyProc_cases P h.idle with ⟨hn, -⟩ | ⟨-, heq⟩
  · exact absurd h hn
  · obtain ⟨-, hbusy, -⟩ := h.idle
    obtain ⟨hring, -⟩ := hinv.ring
    obtain ⟨hxmem, -⟩ := hinv.xmem
    have hf := dlyBlock_frame P s.regs.count.toNat (started P .dlyProc s)
    rw [heq]
    constructor
    case writeIndex => exact dlyBlock_writeIndex P _ (b := started P .dlyProc s) hinv.writeIndex
    case ring => exact fun k hk => dlyBlock_ring P _ (b := started P .dlyProc s) hinv.writeIndex hring hxmem hk
    case xmem =>
      intro r k hk
      have hcount : (started P .dlyProc s).seq.i.toNat + s.regs.count.toNat < 2 ^ 32 := by
        simpa [started] using s.regs.count.isLt
      exact dlyBlock_xmem P _ (b := started P .dlyProc s) hcount hring hxmem (by simpa [started] using hk) r
    case status =>
      rw [setBusy_status, Status.mk.injEq]
      exact ⟨hbusy.symm, hf.fault, rfl, hf.cause, hf.info⟩
    case lfo => exact hf.lfo
    case regs => exact hf.regs
    case result => exact hf.result
    case rst => exact hf.rst
    case host => exact hf.host
    case hostData => exact hf.hostData
    case oor => exact hf.oor
    case sampleRate => exact hf.sampleRate

end Sys2Proof.Machine

/-! SUPPORT. CHORUS.BLOCK: its three command lines, what the two of the LFO leave to DLY.PROC, and the whole run
(30_encoding.md R103). -/

namespace Sys2Proof.Machine

/-! ## the three lines -/

/-- The line of LFO.PROC. -/
def waveLine (b : ChorusBlock) : CmdLine :=
  { command := .lfoProc
    operands := [⟨.n, b.n.setWidth 64⟩, ⟨.rate, b.rate.setWidth 64⟩, ⟨.depth, b.depth.setWidth 64⟩,
      ⟨.phoff, b.phoff.setWidth 64⟩] }

/-- The line of LFO.GETBUF. -/
def handleLine : CmdLine := { command := .lfoGetbuf, operands := [] }

/-- The line of DLY.PROC. -/
def delayLine (b : ChorusBlock) : CmdLine :=
  { command := .dlyProc
    operands := [⟨.n, b.n.setWidth 64⟩, ⟨.input, b.input.setWidth 64⟩, ⟨.modulation, (lfoHandle 0).setWidth 64⟩,
      ⟨.env, b.envelope.setWidth 64⟩, ⟨.out, b.output.setWidth 64⟩, ⟨.fb, b.fb⟩, ⟨.fbenv, b.fbenv⟩, ⟨.wet, b.wet⟩,
      ⟨.sc, b.sc⟩] }

theorem flatMap_expandBlock (b : ChorusBlock) :
    (expandBlock b).flatMap expand = expand (waveLine b) ++ (expand handleLine ++ expand (delayLine b)) := rfl

/-! ## the operand registers -/

/-- A 32-bit value goes over the 64-bit bus unchanged. -/
theorem setWidth_bus (x : BitVec 32) : (x.setWidth 64).setWidth 32 = x := by simp

/-- The operand registers of LFO.PROC in a block, over the registers r. -/
def waveRegs (b : ChorusBlock) (r : OperandRegs) : OperandRegs :=
  { r with count := b.n, lfoRate := b.rate, lfoDepth := b.depth, lfoPhoff := b.phoff }

/-- The operand registers of DLY.PROC in a block, all but SR and the LFO's, over the registers r. -/
def delayRegs (b : ChorusBlock) (r : OperandRegs) : OperandRegs :=
  { r with
    count := b.n, fbBase := b.fb, fbEnvAmt := b.fbenv, wetDry := b.wet, scAmt := b.sc
    hIn := b.input, hMod := 0x80000000#32, hEnv := b.envelope, hOut := b.output }

theorem writeOperands_waveLine (b : ChorusBlock) (r : OperandRegs) :
    writeOperands r (waveLine b).operands = waveRegs b r := by
  simp only [waveLine, writeOperands_cons, writeOperands_nil, registerOf, writeOperand, setWidth_bus, waveRegs]

theorem writeOperands_delayLine (b : ChorusBlock) (r : OperandRegs) :
    writeOperands r (delayLine b).operands = delayRegs b r := by
  simp only [delayLine, writeOperands_cons, writeOperands_nil, registerOf, writeOperand, setWidth_bus, delayRegs]
  rfl

/-! ## the run -/

theorem run_waveLine {b : ChorusBlock} {s : State} {tail : List HostMove} (hi : Idle s)
    (hs : s.host = expand (waveLine b) ++ tail) (hrate : Configured s.lfo.sampleRate)
    (hn : b.n.toNat ≤ Config.params.cap) :
    ∃ t, Host.Core.run Sys2Proof.core 5 s = .next t ∧
      LfoProcFrame { s with regs := waveRegs b s.regs, host := tail } t := by
  have hrun := run_commandLine (waveLine b) hi hs
  rw [writeOperands_waveLine] at hrun
  exact ⟨_, hrun, lfoProcWith_frame ⟨hi, hrate, hn⟩⟩

theorem run_handleLine {s : State} {tail : List HostMove} (hi : Idle s) (hs : s.host = expand handleLine ++ tail) :
    Host.Core.run Sys2Proof.core 1 s = .next { s with
      result := 0x80000000#32
      seq := { s.seq with cmd := encode .lfoGetbuf, ops := s.regs, i := 0 }
      host := tail } :=
  (run_commandLine handleLine hi hs).trans (congrArg _ (lfoGetbufWith_idle _ (s := { s with host := tail }) hi))

/-- A buffer within the bounds CHORUS.BLOCK requires fits its space once LFO.PROC has run. -/
theorem fits_of_blockBounds {P : Params} {s : State} {h : Handle} {n : Nat} (hvalid : s.lfo.valid = n)
    (hb : if h.msb then handleBase h = 0 else handleBase h + n ≤ P.xmemSize) : Fits P s h n := by
  unfold Fits
  split at hb
  · rw [if_pos ‹_›, hb, hvalid, Nat.zero_add]
  · rwa [if_neg ‹_›]

/-- The buffers of a block lie in XMEM, or begin at L:0. -/
abbrev BlockBounds (P : Params) (b : ChorusBlock) : Prop :=
  ∀ h ∈ [b.input, b.envelope, b.output],
    if h.msb then handleBase h = 0 else handleBase h + b.n.toNat ≤ P.xmemSize

theorem delayRegs_ready {P : Params} {b : ChorusBlock} {s : State} {r : OperandRegs} (hi : Idle s)
    (hr : s.regs = delayRegs b r) (hrate : Configured s.dly.sampleRate) (hvalid : s.lfo.valid = b.n.toNat)
    (hout : b.output.msb = false) (hbounds : BlockBounds P b) : DlyProcReady P s := by
  have fits {h : Handle} (hb : if h.msb then handleBase h = 0 else handleBase h + b.n.toNat ≤ P.xmemSize) :
      Fits P s h b.n.toNat := fits_of_blockBounds hvalid hb
  have hhandle : handleBase 0x80000000#32 = 0 := by decide
  constructor
  case idle => exact hi
  case rate => exact hrate
  all_goals rw [hr]
  case out => exact hout
  case fitsIn => exact fits (hbounds b.input (by simp))
  case fitsMod => exact fits (h := 0x80000000#32) ((if_pos rfl).mpr hhandle)
  case fitsEnv => exact fits (hbounds b.envelope (by simp))
  case fitsOut => exact fits (hbounds b.output (by simp))

theorem run_delayLine {b : ChorusBlock} {s : State} {tail : List HostMove} (hinv : CoreInv Config.params s)
    (hi : Idle s) (hs : s.host = expand (delayLine b) ++ tail) (hrate : Configured s.dly.sampleRate)
    (hvalid : s.lfo.valid = b.n.toNat) (hout : b.output.msb = false) (hbounds : BlockBounds Config.params b) :
    ∃ t, Host.Core.run Sys2Proof.core 10 s = .next t ∧
      DlyProcFrame Config.params { s with regs := delayRegs b s.regs, host := tail } t := by
  have hrun := run_commandLine (delayLine b) hi hs
  rw [writeOperands_delayLine] at hrun
  exact ⟨_, hrun, dlyProcWith_frame (delayRegs_ready hi rfl hrate hvalid hout hbounds)
    (hinv.congr rfl rfl rfl rfl rfl rfl)⟩

/-- A run keeps the invariant, as every step of it does. -/
theorem run_inv {n : Nat} {s t : State} (hinv : CoreInv Config.params s)
    (h : Host.Core.run Sys2Proof.core n s = .next t) : CoreInv Config.params t := by
  induction n generalizing s with
  | zero => cases h; exact hinv
  | succ n ih =>
    rw [run_succ_eq n s _ rfl] at h
    cases hs : step s with
    | next u => rw [hs] at h; exact ih (stepKeepsInvariant s u hinv hs) h
    | fault r => rw [hs] at h; cases h
    | refused r => rw [hs] at h; cases h

/-- Settles O8: the three lines one after the other, each line's frame feeding the next one's checks. -/
theorem chorusBlockRuns : Obligations.ChorusBlockRuns := by
  intro b s rest hinv hi hs hwf hlfo hdly hout hbounds
  have hn : b.n.toNat ≤ Config.params.cap := of_decide_eq_true hwf
  rw [flatMap_expandBlock, List.append_assoc, List.append_assoc] at hs
  obtain ⟨t₁, hrun₁, hf₁⟩ := run_waveLine hi hs hlfo hn
  have hi₁ : Idle t₁ := by unfold Idle; rw [hf₁.status, hf₁.rst]; exact hi
  have hrun₂ := (run_add 5 1 hrun₁).trans (run_handleLine hi₁ hf₁.host)
  obtain ⟨t, hrun₃, hf⟩ :=
    run_delayLine (run_inv hinv hrun₂) hi₁ rfl (by rw [hf₁.dly]; exact hdly) hf₁.valid hout hbounds
  have hrun := (run_add 6 10 hrun₂).trans hrun₃
  refine ⟨t, hrun, hf.host, ?_, hf.result, ?_, ?_, ?_, ?_, ?_, ?_⟩
  · unfold Idle; rw [hf.status, hf.rst]; exact hi₁
  · rw [hf.lfo]; exact hf₁.valid
  · rw [hf.writeIndex, hf₁.dly]; rfl
  · rw [hf.sampleRate, hf₁.dly]
  · rw [hf.lfo]; exact hf₁.sampleRate
  · intro r k hk
    rw [hf.xmem r k hk, hf₁.xmem]
  · rw [hf.regs, hf₁.regs]; rfl

end Sys2Proof.Machine

/-! SUPPORT. The operations of an interchange format on the words of its width, said once for F64 and F32: what is
exact or rounded on finite words (40_numerics.md R120, R121), and what infinities, zeros and zero divisors give
(R123, R124). -/

namespace Sys2Proof.Machine

section

variable {f : Fmt} {w : Nat}

/-- The words of w bits are the patterns of the format. -/
structure Fmt.Words (f : Fmt) (w : Nat) : Prop where
  ok : f.Ok
  width : 2 ^ w = 2 * signWeight f

theorem binary64_words : binary64.Words 64 := ⟨binary64_ok, rfl⟩
theorem binary32_words : binary32.Words 32 := ⟨binary32_ok, rfl⟩

/-- The sum of two words (R120). -/
def addWord (f : Fmt) (nan a b : BitVec w) : BitVec w := BitVec.ofNat w (addPattern f nan.toNat a.toNat b.toNat)
/-- The difference of two words (R120). -/
def subWord (f : Fmt) (nan a b : BitVec w) : BitVec w := BitVec.ofNat w (subPattern f nan.toNat a.toNat b.toNat)
/-- The product of two words (R120). -/
def mulWord (f : Fmt) (nan a b : BitVec w) : BitVec w := BitVec.ofNat w (mulPattern f nan.toNat a.toNat b.toNat)
/-- The quotient of two words (R120). -/
def divWord (f : Fmt) (nan a b : BitVec w) : BitVec w := BitVec.ofNat w (divPattern f nan.toNat a.toNat b.toNat)
/-- floor of a word (R126). -/
def floorWord (f : Fmt) (nan a : BitVec w) : BitVec w := BitVec.ofNat w (floorPattern f nan.toNat a.toNat)

/-! The model's operations are these, on the words of either format. -/

theorem f64Add_eq_addWord : f64Add = addWord binary64 := rfl
theorem f64Sub_eq_subWord : f64Sub = subWord binary64 := rfl
theorem f64Mul_eq_mulWord : f64Mul = mulWord binary64 := rfl
theorem f64Div_eq_divWord : f64Div = divWord binary64 := rfl
theorem f64Floor_eq_floorWord : f64Floor = floorWord binary64 := rfl
theorem f32Add_eq_addWord : f32Add = addWord binary32 := rfl
theorem f32Sub_eq_subWord : f32Sub = subWord binary32 := rfl
theorem f32Mul_eq_mulWord : f32Mul = mulWord binary32 := rfl
theorem f32Floor_eq_floorWord : f32Floor = floorWord binary32 := rfl

theorem Fmt.Words.lt (hw : f.Words w) (a : BitVec w) : a.toNat < 2 * signWeight f := hw.width ▸ a.isLt

/-- The sign of a word is its most significant bit. -/
theorem Fmt.Words.negOf_toNat (hw : f.Words w) (a : BitVec w) : negOf f a.toNat = a.msb := by
  have hwidth := hw.width
  have hpos : 0 < signWeight f := Nat.two_pow_pos _
  cases w with
  | zero => omega
  | succ n =>
    have : 2 ^ n = signWeight f := by rw [Nat.pow_succ] at hwidth; omega
    rw [BitVec.msb_eq_decide, negOf, Nat.add_sub_cancel, this]

theorem toNat_ofNat_word (hw : f.Words w) {x : Nat} (h : x < 2 * signWeight f) : (BitVec.ofNat w x).toNat = x := by
  rw [BitVec.toNat_ofNat, hw.width, Nat.mod_eq_of_lt h]

theorem toNat_addWord (hw : f.Words w) (nan a b : BitVec w) :
    (addWord f nan a b).toNat = addPattern f nan.toNat a.toNat b.toNat :=
  toNat_ofNat_word hw (addPattern_lt (hw.lt nan) _ _)

theorem toNat_subWord (hw : f.Words w) (nan a b : BitVec w) :
    (subWord f nan a b).toNat = subPattern f nan.toNat a.toNat b.toNat :=
  toNat_ofNat_word hw (addPattern_lt (hw.lt nan) _ _)

theorem toNat_mulWord (hw : f.Words w) (nan a b : BitVec w) :
    (mulWord f nan a b).toNat = mulPattern f nan.toNat a.toNat b.toNat :=
  toNat_ofNat_word hw (mulPattern_lt (hw.lt nan) _ _)

theorem toNat_divWord (hw : f.Words w) (nan a b : BitVec w) :
    (divWord f nan a b).toNat = divPattern f nan.toNat a.toNat b.toNat :=
  toNat_ofNat_word hw (divPattern_lt (hw.lt nan) _ _)

theorem toNat_floorWord (hw : f.Words w) (nan a : BitVec w) :
    (floorWord f nan a).toNat = floorPattern f nan.toNat a.toNat :=
  toNat_ofNat_word hw (floorPattern_lt (hw.lt nan) (hw.lt a))

/-! ## rounding -/

/-- The magnitude and the sign bit of a word whose pattern was assembled. -/
theorem word_of_assemble (hw : f.Words w) {r : BitVec w} {neg : Bool} {mag : Nat} (h : r.toNat = assemble f neg mag)
    (hmag : mag < signWeight f) : magOf f r.toNat = mag ∧ r.msb = neg := by
  rw [← hw.negOf_toNat, h]
  exact ⟨magOf_assemble hmag, negOf_assemble hmag⟩

theorem addWord_rounded (hw : f.Words w) (nan : BitVec w) {a b : BitVec w} (ha : isFinitePattern f a.toNat = true)
    (hb : isFinitePattern f b.toNat = true) :
    RoundedTo f (unitsOf f a.toNat + unitsOf f b.toNat).natAbs 1 (magOf f (addWord f nan a b).toNat) ∧
    (unitsOf f a.toNat + unitsOf f b.toNat ≠ 0 →
      (addWord f nan a b).msb = decide (unitsOf f a.toNat + unitsOf f b.toNat < 0)) := by
  obtain ⟨mag, neg, e, r, s, -⟩ := addPattern_finite hw.ok nan.toNat ha hb
  obtain ⟨hmag, hneg⟩ := word_of_assemble hw ((toNat_addWord hw nan a b).trans e) r.lt_signWeight
  rw [hmag, hneg]
  exact ⟨r, s⟩

theorem subWord_rounded (hw : f.Words w) (nan : BitVec w) {a b : BitVec w} (ha : isFinitePattern f a.toNat = true)
    (hb : isFinitePattern f b.toNat = true) :
    RoundedTo f (unitsOf f a.toNat - unitsOf f b.toNat).natAbs 1 (magOf f (subWord f nan a b).toNat) ∧
    (unitsOf f a.toNat - unitsOf f b.toNat ≠ 0 →
      (subWord f nan a b).msb = decide (unitsOf f a.toNat - unitsOf f b.toNat < 0)) := by
  obtain ⟨mag, neg, e, r, s, -⟩ := subPattern_finite hw.ok nan.toNat (hw.lt b) ha hb
  obtain ⟨hmag, hneg⟩ := word_of_assemble hw ((toNat_subWord hw nan a b).trans e) r.lt_signWeight
  rw [hmag, hneg]
  exact ⟨r, s⟩

theorem mulWord_rounded (hw : f.Words w) (nan : BitVec w) {a b : BitVec w} (ha : isFinitePattern f a.toNat = true)
    (hb : isFinitePattern f b.toNat = true) :
    RoundedTo f ((unitsOf f a.toNat).natAbs * (unitsOf f b.toNat).natAbs) (oneUnits f)
      (magOf f (mulWord f nan a b).toNat) ∧
    (mulWord f nan a b).msb = (a.msb ^^ b.msb) := by
  obtain ⟨mag, e, r⟩ := mulPattern_finite hw.ok nan.toNat ha hb
  obtain ⟨hmag, hneg⟩ := word_of_assemble hw ((toNat_mulWord hw nan a b).trans e) r.lt_signWeight
  rw [hmag, hneg, hw.negOf_toNat, hw.negOf_toNat, natAbs_unitsOf, natAbs_unitsOf]
  exact ⟨r, rfl⟩

theorem divWord_rounded (hw : f.Words w) (nan : BitVec w) {a b : BitVec w} (ha : isFinitePattern f a.toNat = true)
    (hb : isFinitePattern f b.toNat = true) (h0 : unitsOf f b.toNat ≠ 0) :
    RoundedTo f ((unitsOf f a.toNat).natAbs * oneUnits f) (unitsOf f b.toNat).natAbs
      (magOf f (divWord f nan a b).toNat) ∧
    (divWord f nan a b).msb = (a.msb ^^ b.msb) := by
  have hb0 : magOf f b.toNat ≠ 0 := fun h => h0 (by simp [unitsOf, h, signed])
  obtain ⟨mag, e, r⟩ := divPattern_finite hw.ok nan.toNat ha hb hb0
  obtain ⟨hmag, hneg⟩ := word_of_assemble hw ((toNat_divWord hw nan a b).trans e) r.lt_signWeight
  rw [hmag, hneg, hw.negOf_toNat, hw.negOf_toNat, natAbs_unitsOf, natAbs_unitsOf]
  exact ⟨r, rfl⟩

end

/-- Settles O46: each operation is its exact result rounded once. -/
theorem roundingF32 : Obligations.RoundingF32 := fun nan a b ha hb => by
  obtain ⟨hadd, hadds⟩ := addWord_rounded binary32_words nan ha hb
  obtain ⟨hsub, hsubs⟩ := subWord_rounded binary32_words nan ha hb
  exact ⟨hadd, hadds, hsub, hsubs, mulWord_rounded binary32_words nan ha hb⟩

/-- Settles O45: as O46, and a quotient rounded once from enough bits and a remainder flag. -/
theorem roundingF64 : Obligations.RoundingF64 := fun nan a b ha hb => by
  obtain ⟨hadd, hadds⟩ := addWord_rounded binary64_words nan ha hb
  obtain ⟨hsub, hsubs⟩ := subWord_rounded binary64_words nan ha hb
  obtain ⟨hmul, hmuls⟩ := mulWord_rounded binary64_words nan ha hb
  exact ⟨hadd, hadds, hsub, hsubs, hmul, hmuls, divWord_rounded binary64_words nan ha hb⟩

/-- Settles O48: a comparison looks at the places in the order, which are those of the numbers. -/
theorem comparisons : Obligations.Comparisons :=
  ⟨fun _ _ => ⟨f64Lt_iff, f64Le_iff⟩, fun _ _ => ⟨f32Lt_iff, f32Le_iff⟩, by decide, by decide⟩

end Sys2Proof.Machine

/-! SUPPORT. What infinities, zeros and zero divisors give (40_numerics.md R123, R124), on the words of a format. -/

namespace Sys2Proof.Machine

section

variable {f : Fmt} {w : Nat}

/-! ## patterns -/

theorem isFinite_false_of_nan {x : Nat} (h : isNaNPattern f x = true) : isFinitePattern f x = false := by
  rw [isNaNPattern_iff] at h
  simp [isFinitePattern]; omega

/-- What is no NaN and not finite is an infinity. -/
theorem magOf_eq_infMag {x : Nat} (hnan : isNaNPattern f x = false) (hfin : isFinitePattern f x = false) :
    magOf f x = infMag f := by
  rcases pattern_cases f x with h | h | h
  · rw [h] at hnan; cases hnan
  · exact h
  · rw [h] at hfin; cases hfin

theorem unitsOf_eq_zero_iff (f : Fmt) (x : Nat) : unitsOf f x = 0 ↔ magOf f x = 0 :=
  ⟨magOf_eq_zero, fun h => by simp [unitsOf, h, signed]⟩

/-- A zero is rounded to a zero. -/
theorem RoundedTo.eq_zero {den mag : Nat} (h : RoundedTo f 0 den mag) (hden : 0 < den) : mag = 0 :=
  RoundedTo.exact (v := 0) (by rwa [magUnits_zero, Nat.zero_mul]) hden (Nat.zero_le _)

/-- x - x is +0.0 for finite x (R124). -/
theorem subPattern_self (hf : f.Ok) (nan : Nat) {x : Nat} (hx : isFinitePattern f x = true)
    (hxl : x < 2 * signWeight f) : subPattern f nan x x = assemble f false 0 := by
  obtain ⟨mag, neg, e, r, -, hneg⟩ := subPattern_finite hf nan hxl hx hx
  rw [Int.sub_self] at r hneg
  rw [e, r.eq_zero Nat.one_pos, hneg rfl, Bool.and_not_self]

/-- A product of finite factors one of which is a zero is a zero (R124). -/
theorem mulPattern_eq_zero (hf : f.Ok) (nan : Nat) {x y : Nat} (hx : isFinitePattern f x = true)
    (hy : isFinitePattern f y = true) (h0 : unitsOf f x = 0 ∨ unitsOf f y = 0) :
    mulPattern f nan x y = assemble f (negOf f x != negOf f y) 0 := by
  obtain ⟨mag, e, r⟩ := mulPattern_finite hf nan hx hy
  have hprod : magUnits f (magOf f x) * magUnits f (magOf f y) = 0 := by
    rw [← natAbs_unitsOf, ← natAbs_unitsOf]
    rcases h0 with h | h <;> simp [h]
  rw [hprod] at r
  rw [e, r.eq_zero (oneUnits_pos f)]

/-- A zero divided by a number that is not zero is a zero (R124). -/
theorem divPattern_eq_zero (hf : f.Ok) (nan : Nat) {x y : Nat} (hx : isFinitePattern f x = true)
    (hy : isFinitePattern f y = true) (hx0 : magOf f x = 0) (hy0 : magOf f y ≠ 0) :
    divPattern f nan x y = assemble f (negOf f x != negOf f y) 0 := by
  obtain ⟨mag, e, r⟩ := divPattern_finite hf nan hx hy hy0
  rw [hx0, magUnits_zero, Nat.zero_mul] at r
  have hpos : 0 < magUnits f (magOf f y) := magUnits_zero f ▸ magUnits_strictMono f (Nat.pos_of_ne_zero hy0)
  rw [e, r.eq_zero hpos]

/-- A number that is not zero divided by a zero is an infinity (R124). -/
theorem divPattern_by_zero (nan : Nat) {x y : Nat} (hx : isFinitePattern f x = true) (hx0 : magOf f x ≠ 0)
    (hy : isFinitePattern f y = true) (hy0 : magOf f y = 0) :
    divPattern f nan x y = assemble f (negOf f x != negOf f y) (infMag f) := by
  obtain ⟨m, e, hvx, -, hmx, -⟩ := valueOf_finite hx
  obtain ⟨n, g, hvy, -, hmy, -⟩ := valueOf_finite hy
  unfold divPattern
  rw [hvx, hvy]
  simp [sig_eq_zero hmx, sig_eq_zero hmy, hx0, hy0]

theorem divPattern_inf_finite (nan : Nat) {x y : Nat} (hx : magOf f x = infMag f) (hy : isFinitePattern f y = true) :
    divPattern f nan x y = assemble f (negOf f x != negOf f y) (infMag f) := by
  obtain ⟨_, _, hv, -⟩ := valueOf_finite hy
  unfold divPattern; rw [valueOf_inf hx, hv]

theorem divPattern_finite_inf (nan : Nat) {x y : Nat} (hx : isFinitePattern f x = true) (hy : magOf f y = infMag f) :
    divPattern f nan x y = assemble f (negOf f x != negOf f y) 0 := by
  obtain ⟨_, _, hv, -⟩ := valueOf_finite hx
  unfold divPattern; rw [valueOf_inf hy, hv]

/-! ## words -/

/-- A word is the infinity of a sign. -/
def IsInfWord (f : Fmt) (neg : Bool) (a : BitVec w) : Prop := a.toNat = assemble f neg (infMag f)

/-- A word is the zero of a sign. -/
def IsZeroWord (f : Fmt) (neg : Bool) (a : BitVec w) : Prop := a.toNat = assemble f neg 0

theorem f64Inf_isInf (s : Bool) : IsInfWord binary64 s (f64Inf s) := by cases s <;> rfl
theorem f32Inf_isInf (s : Bool) : IsInfWord binary32 s (f32Inf s) := by cases s <;> rfl
theorem f64SignedZero_isZero (s : Bool) : IsZeroWord binary64 s (f64SignedZero s) := by cases s <;> rfl
theorem f32SignedZero_isZero (s : Bool) : IsZeroWord binary32 s (f32SignedZero s) := by cases s <;> rfl

variable {s t : Bool} {a b i j z : BitVec w}

theorem isNaNPattern_of_eq {nan r : BitVec w} (hn : isNaNPattern f nan.toNat = true) (h : r = nan) :
    isNaNPattern f r.toNat = true := h ▸ hn

theorem IsInfWord.eq (hi : IsInfWord f s i) (hj : IsInfWord f s j) : i = j :=
  BitVec.eq_of_toNat_eq (hi.trans hj.symm)

theorem IsZeroWord.eq (hi : IsZeroWord f s i) (hj : IsZeroWord f s j) : i = j :=
  BitVec.eq_of_toNat_eq (hi.trans hj.symm)

theorem IsInfWord.magOf (hi : IsInfWord f s i) : magOf f i.toNat = infMag f := by
  rw [hi]; exact magOf_assemble (infMag_lt_signWeight f)

theorem IsInfWord.negOf (hi : IsInfWord f s i) : negOf f i.toNat = s := by
  rw [hi]; exact negOf_assemble (infMag_lt_signWeight f)

/-- Two infinities of one sign add up to it; of opposite signs they have no sum (R123). -/
theorem addWord_inf_same (hw : f.Words w) (nan : BitVec w) (hi : IsInfWord f s i) : addWord f nan i i = i := by
  refine IsInfWord.eq (s := s) ?_ hi
  rw [IsInfWord, toNat_addWord hw, addPattern_inf_inf _ hi.magOf hi.magOf, if_pos rfl, hi.negOf]

theorem addWord_inf_opposite (hw : f.Words w) (nan : BitVec w) (hi : IsInfWord f s i) (hj : IsInfWord f (!s) j) :
    addWord f nan i j = nan := by
  apply BitVec.eq_of_toNat_eq
  rw [toNat_addWord hw, addPattern_inf_inf _ hi.magOf hj.magOf, hi.negOf, hj.negOf, if_neg (by simp)]

theorem addWord_inf_finite (hw : f.Words w) (nan : BitVec w) (hi : IsInfWord f s i)
    (ha : isFinitePattern f a.toNat = true) : addWord f nan i a = i := by
  refine IsInfWord.eq (s := s) ?_ hi
  rw [IsInfWord, toNat_addWord hw, addPattern_inf_finite _ hi.magOf ha, hi.negOf]

theorem addWord_finite_inf (hw : f.Words w) (nan : BitVec w) (ha : isFinitePattern f a.toNat = true)
    (hi : IsInfWord f s i) : addWord f nan a i = i := by
  refine IsInfWord.eq (s := s) ?_ hi
  rw [IsInfWord, toNat_addWord hw, addPattern_finite_inf _ ha hi.magOf, hi.negOf]

/-- A difference is the sum with the infinity of the other sign. -/
theorem subWord_inf (hw : f.Words w) (nan a : BitVec w) (hi : IsInfWord f s i) (hj : IsInfWord f (!s) j) :
    subWord f nan a i = addWord f nan a j := by
  have hflip : flipSign f i.toNat = j.toNat := by
    rw [← assemble_of f (flipSign_lt (hw.lt i)), magOf_flipSign, negOf_flipSign (hw.lt i), hi.magOf, hi.negOf, hj]
  rw [subWord, subPattern, hflip, addWord]

/-- The sums and differences of two infinities (R123, R124). -/
theorem sums_of_infinities (hw : f.Words w) {nan : BitVec w} (hn : isNaNPattern f nan.toNat = true)
    (hi : IsInfWord f s i) (hj : IsInfWord f (!s) j) :
    isNaNPattern f (subWord f nan i i).toNat = true ∧ isNaNPattern f (addWord f nan i j).toNat = true ∧
      addWord f nan i i = i ∧ subWord f nan i j = i := by
  have hnot : IsInfWord f (!!s) i := (Bool.not_not s).symm ▸ hi
  rw [subWord_inf hw nan i hi hj, subWord_inf hw nan i hj hnot, addWord_inf_same hw nan hi,
    addWord_inf_opposite hw nan hi hj]
  exact ⟨hn, hn, rfl, rfl⟩

theorem subWord_inf_finite (hw : f.Words w) (nan : BitVec w) (hi : IsInfWord f s i)
    (ha : isFinitePattern f a.toNat = true) : subWord f nan i a = i := by
  refine IsInfWord.eq (s := s) ?_ hi
  rw [IsInfWord, toNat_subWord hw, subPattern,
    addPattern_inf_finite _ hi.magOf ((isFinitePattern_flipSign _).trans ha), hi.negOf]

/-- The sums and differences of an infinity and a finite number (R124). -/
theorem sums_with_infinity (hw : f.Words w) (nan : BitVec w) (ha : isFinitePattern f a.toNat = true)
    (hi : IsInfWord f s i) (hj : IsInfWord f (!s) j) :
    addWord f nan i a = i ∧ addWord f nan a i = i ∧ subWord f nan i a = i ∧ subWord f nan a i = j :=
  ⟨addWord_inf_finite hw nan hi ha, addWord_finite_inf hw nan ha hi, subWord_inf_finite hw nan hi ha,
    (subWord_inf hw nan a hi hj).trans (addWord_finite_inf hw nan ha hj)⟩

theorem subWord_self (hw : f.Words w) (nan : BitVec w) (ha : isFinitePattern f a.toNat = true)
    (hz : IsZeroWord f false z) : subWord f nan a a = z := by
  refine IsZeroWord.eq (s := false) ?_ hz
  rw [IsZeroWord, toNat_subWord hw, subPattern_self hw.ok _ ha (hw.lt a)]

theorem mulWord_inf_inf (hw : f.Words w) (nan : BitVec w) (hi : IsInfWord f s i) (hj : IsInfWord f t j)
    {r : BitVec w} (hr : IsInfWord f (s ^^ t) r) : mulWord f nan i j = r := by
  refine IsInfWord.eq ?_ hr
  rw [IsInfWord, toNat_mulWord hw, mulPattern_inf_inf _ hi.magOf hj.magOf, hi.negOf, hj.negOf]

/-- An infinity times a zero is no number (R123). -/
theorem mulWord_inf_zero (hw : f.Words w) {nan : BitVec w} (hn : isNaNPattern f nan.toNat = true)
    (hi : IsInfWord f s i) (ha : isFinitePattern f a.toNat = true) (h0 : unitsOf f a.toNat = 0) :
    isNaNPattern f (mulWord f nan i a).toNat = true ∧ isNaNPattern f (mulWord f nan a i).toNat = true := by
  rw [toNat_mulWord hw, toNat_mulWord hw, mulPattern_inf_finite _ hi.magOf ha, mulPattern_finite_inf _ ha hi.magOf,
    if_pos (magOf_eq_zero h0), if_pos (magOf_eq_zero h0)]
  exact ⟨hn, hn⟩

/-- An infinity times a number that is not zero is an infinity (R124). -/
theorem mulWord_inf_nonzero (hw : f.Words w) (nan : BitVec w) (hi : IsInfWord f s i)
    (ha : isFinitePattern f a.toNat = true) (h0 : unitsOf f a.toNat ≠ 0) {r r' : BitVec w}
    (hr : IsInfWord f (s ^^ a.msb) r) (hr' : IsInfWord f (a.msb ^^ s) r') :
    mulWord f nan i a = r ∧ mulWord f nan a i = r' := by
  have hmag : ¬ magOf f a.toNat = 0 := mt (unitsOf_eq_zero_iff f _).mpr h0
  refine ⟨IsInfWord.eq ?_ hr, IsInfWord.eq ?_ hr'⟩ <;> rw [IsInfWord, toNat_mulWord hw]
  · rw [mulPattern_inf_finite _ hi.magOf ha, if_neg hmag, hi.negOf, hw.negOf_toNat]
  · rw [mulPattern_finite_inf _ ha hi.magOf, if_neg hmag, hi.negOf, hw.negOf_toNat]

theorem mulWord_zero (hw : f.Words w) (nan : BitVec w) (ha : isFinitePattern f a.toNat = true)
    (hb : isFinitePattern f b.toNat = true) (h0 : unitsOf f a.toNat = 0 ∨ unitsOf f b.toNat = 0)
    (hz : IsZeroWord f (a.msb ^^ b.msb) z) : mulWord f nan a b = z := by
  refine IsZeroWord.eq ?_ hz
  rw [IsZeroWord, toNat_mulWord hw, mulPattern_eq_zero hw.ok _ ha hb h0, hw.negOf_toNat, hw.negOf_toNat]

theorem divWord_inf_inf (hw : f.Words w) (nan : BitVec w) (hi : IsInfWord f s i) (hj : IsInfWord f t j) :
    divWord f nan i j = nan := by
  apply BitVec.eq_of_toNat_eq
  rw [toNat_divWord hw, divPattern_inf_inf _ hi.magOf hj.magOf]

theorem divWord_inf_finite (hw : f.Words w) (nan : BitVec w) (hi : IsInfWord f s i)
    (ha : isFinitePattern f a.toNat = true) {r : BitVec w} (hr : IsInfWord f (s ^^ a.msb) r) :
    divWord f nan i a = r := by
  refine IsInfWord.eq ?_ hr
  rw [IsInfWord, toNat_divWord hw, divPattern_inf_finite _ hi.magOf ha, hi.negOf, hw.negOf_toNat]

theorem divWord_finite_inf (hw : f.Words w) (nan : BitVec w) (ha : isFinitePattern f a.toNat = true)
    (hi : IsInfWord f s i) (hz : IsZeroWord f (a.msb ^^ s) z) : divWord f nan a i = z := by
  refine IsZeroWord.eq ?_ hz
  rw [IsZeroWord, toNat_divWord hw, divPattern_finite_inf _ ha hi.magOf, hi.negOf, hw.negOf_toNat]

theorem divWord_zero_zero (hw : f.Words w) (nan : BitVec w) (ha : isFinitePattern f a.toNat = true)
    (hb : isFinitePattern f b.toNat = true) (ha0 : unitsOf f a.toNat = 0) (hb0 : unitsOf f b.toNat = 0) :
    divWord f nan a b = nan := by
  apply BitVec.eq_of_toNat_eq
  rw [toNat_divWord hw, divPattern_zero_zero _ ha (magOf_eq_zero ha0) hb (magOf_eq_zero hb0)]

theorem divWord_by_zero (hw : f.Words w) (nan : BitVec w) (ha : isFinitePattern f a.toNat = true)
    (hb : isFinitePattern f b.toNat = true) (ha0 : unitsOf f a.toNat ≠ 0) (hb0 : unitsOf f b.toNat = 0)
    {r : BitVec w} (hr : IsInfWord f (a.msb ^^ b.msb) r) : divWord f nan a b = r := by
  refine IsInfWord.eq ?_ hr
  rw [IsInfWord, toNat_divWord hw, divPattern_by_zero _ ha (mt (unitsOf_eq_zero_iff f _).mpr ha0) hb
    (magOf_eq_zero hb0), hw.negOf_toNat, hw.negOf_toNat]

theorem zero_divWord (hw : f.Words w) (nan : BitVec w) (ha : isFinitePattern f a.toNat = true)
    (hb : isFinitePattern f b.toNat = true) (ha0 : unitsOf f a.toNat = 0) (hb0 : unitsOf f b.toNat ≠ 0)
    (hz : IsZeroWord f (a.msb ^^ b.msb) z) : divWord f nan a b = z := by
  refine IsZeroWord.eq ?_ hz
  rw [IsZeroWord, toNat_divWord hw, divPattern_eq_zero hw.ok _ ha hb (magOf_eq_zero ha0)
    (mt (unitsOf_eq_zero_iff f _).mpr hb0), hw.negOf_toNat, hw.negOf_toNat]

end

/-- Settles O47: the operands are NaNs, two infinities, an infinity and a finite number, or two finite numbers. -/
theorem specialValues : Obligations.SpecialValues := by
  constructor
  · intro nan a b hn
    have hw := binary64_words
    have inf := f64Inf_isInf
    have zero := f64SignedZero_isZero
    refine ⟨fun h => ?nan, fun s => sums_of_infinities hw hn (inf s) (inf !s), fun s t => ?infs, fun ha s => ?finite,
      fun ha hb => ?zeros⟩
    case nan =>
      exact ⟨isNaNPattern_of_eq hn (f64Add_nan nan a b h), isNaNPattern_of_eq hn (f64Sub_nan nan a b h),
        isNaNPattern_of_eq hn (f64Mul_nan nan a b h), isNaNPattern_of_eq hn (f64Div_nan nan a b h)⟩
    case infs =>
      exact ⟨isNaNPattern_of_eq hn (divWord_inf_inf hw nan (inf s) (inf t)),
        mulWord_inf_inf hw nan (inf s) (inf t) (inf _)⟩
    case finite =>
      obtain ⟨hadd, hadd', hsub, hsub'⟩ := sums_with_infinity hw nan ha (inf s) (inf !s)
      exact ⟨subWord_self hw nan ha (zero false), hadd, hadd', hsub, hsub',
        divWord_inf_finite hw nan (inf s) ha (inf _), divWord_finite_inf hw nan ha (inf s) (zero _),
        mulWord_inf_zero hw hn (inf s) ha, fun h0 => mulWord_inf_nonzero hw nan (inf s) ha h0 (inf _) (inf _)⟩
    case zeros =>
      exact ⟨fun h0 => mulWord_zero hw nan ha hb h0 (zero _),
        fun ha0 hb0 => isNaNPattern_of_eq hn (divWord_zero_zero hw nan ha hb ha0 hb0),
        fun ha0 hb0 => divWord_by_zero hw nan ha hb ha0 hb0 (inf _),
        fun ha0 hb0 => zero_divWord hw nan ha hb ha0 hb0 (zero _)⟩
  · intro nan a b hn
    have hw := binary32_words
    have inf := f32Inf_isInf
    have zero := f32SignedZero_isZero
    refine ⟨fun h => ?nan, fun s => sums_of_infinities hw hn (inf s) (inf !s),
      fun s t => mulWord_inf_inf hw nan (inf s) (inf t) (inf _), fun ha s => ?finite,
      fun ha hb h0 => mulWord_zero hw nan ha hb h0 (zero _)⟩
    case nan =>
      exact ⟨isNaNPattern_of_eq hn (f32Add_nan nan a b h), isNaNPattern_of_eq hn (f32Sub_nan nan a b h),
        isNaNPattern_of_eq hn (f32Mul_nan nan a b h)⟩
    case finite =>
      obtain ⟨hadd, hadd', hsub, hsub'⟩ := sums_with_infinity hw nan ha (inf s) (inf !s)
      exact ⟨subWord_self hw nan ha (zero false), hadd, hadd', hsub, hsub',
        mulWord_inf_zero hw hn (inf s) ha, fun h0 => mulWord_inf_nonzero hw nan (inf s) ha h0 (inf _) (inf _)⟩

end Sys2Proof.Machine

/-! SUPPORT. floor and the conversions as rules: the largest integral value not above, and the value rounded once in
the other format (40_numerics.md R126, R127). -/

namespace Sys2Proof.Machine

section

variable {f : Fmt} {w : Nat}

/-! ## floor -/

/-- floor of a finite word is the whole ones of its number, with its sign (R126). -/
theorem floorWord_rule (hw : f.Words w) (nan : BitVec w) {a : BitVec w} (ha : isFinitePattern f a.toNat = true) :
    isFinitePattern f (floorWord f nan a).toNat = true ∧ (floorWord f nan a).msb = a.msb ∧
      ∃ n : Int, unitsOf f (floorWord f nan a).toNat = n * oneUnits f ∧ n * oneUnits f ≤ unitsOf f a.toNat ∧
        unitsOf f a.toNat < (n + 1) * oneUnits f := by
  obtain ⟨mag, e, hlt, hunits⟩ := floorPattern_finite hw.ok nan.toNat (hw.lt a) ha
  rw [← toNat_floorWord hw] at e
  obtain ⟨hmag, hneg⟩ := word_of_assemble hw e (lt_trans hlt (infMag_lt_signWeight f))
  have hone := oneUnits_pos_int f
  refine ⟨?_, hneg.trans (hw.negOf_toNat a), unitsOf f a.toNat / oneUnits f, ?_, ?_, ?_⟩
  · rw [isFinitePattern_iff, hmag]; exact hlt
  · rw [unitsOf, hmag, hw.negOf_toNat, hneg]; exact hunits
  · exact Int.ediv_mul_le _ hone.ne'
  · exact Int.lt_ediv_add_one_mul_self _ hone

/-- floor of an infinity is that infinity (R126). -/
theorem floorWord_infinite (hw : f.Words w) (nan : BitVec w) {a : BitVec w} (hnan : isNaNPattern f a.toNat = false)
    (hfin : isFinitePattern f a.toNat = false) : floorWord f nan a = a := by
  apply BitVec.eq_of_toNat_eq
  rw [toNat_floorWord hw, floorPattern_inf _ (magOf_eq_infMag hnan hfin)]

/-! ## conversions -/

/-- A conversion of a finite word whose number the target format has is exact, and keeps the sign (R127). -/
theorem convertPattern_exact {g : Fmt} (hg : g.Ok) (nan : Nat) {x v : Nat} (hx : isFinitePattern f x = true)
    (hv : v < infMag g) (hle : minExp g ≤ minExp f)
    (h : magUnits g v = magUnits f (magOf f x) * 2 ^ (minExp f - minExp g).toNat) :
    convertPattern f g nan x = assemble g (negOf f x) v := by
  obtain ⟨mag, e, r⟩ := convertPattern_finite hg nan hx
  rw [← h, show (minExp g - minExp f).toNat = 0 by omega, Nat.pow_zero, ← Nat.mul_one (magUnits g v)] at r
  rw [e, r.exact Nat.one_pos hv.le]

end

/-- Every finite binary32 number is a binary64 number: 2^925 is what 2^-149 is in units of 2^-1074. -/
theorem exists_widened_mag {x : Nat} (hx : isFinitePattern binary32 x = true) :
    ∃ v, v < infMag binary64 ∧ magUnits binary64 v = magUnits binary32 (magOf binary32 x) * 2 ^ 925 := by
  obtain ⟨sig, exp, -, -, hmag, hsig⟩ := valueOf_finite hx
  obtain ⟨v, hv⟩ := exists_mag binary64 sig ((exp - minExp binary32).toNat + 925)
    (lt_of_lt_of_le hsig (Nat.pow_le_pow_right (by norm_num) (by decide)))
  rw [pow_add, ← Nat.mul_assoc, hmag] at hv
  refine ⟨v, (magUnits_strictMono binary64).lt_iff_lt.mp ?_, hv⟩
  have hlt := magUnits_strictMono binary32 (isFinitePattern_iff.mp hx)
  calc magUnits binary64 v = magUnits binary32 (magOf binary32 x) * 2 ^ 925 := hv
    _ < magUnits binary32 (infMag binary32) * 2 ^ 925 := Nat.mul_lt_mul_of_pos_right hlt (by positivity)
    _ ≤ magUnits binary64 (infMag binary64) := by decide +kernel

/-- widen of a finite F32 is exact (R127). -/
theorem f64OfF32_exact (nan : F64) {a : F32} (ha : f32IsFinite a = true) :
    f64IsFinite (f64OfF32 nan a) = true ∧ f64Units (f64OfF32 nan a) = f32Units a * 2 ^ 925 ∧
      (f64OfF32 nan a).msb = a.msb := by
  obtain ⟨v, hlt, hv⟩ := exists_widened_mag ha
  have hscale : (minExp binary32 - minExp binary64).toNat = 925 := by decide
  have e := (toNat_f64OfF32 nan a).trans
    (convertPattern_exact binary64_ok nan.toNat ha hlt (by decide) (by rw [hscale]; exact hv))
  obtain ⟨hmag, hneg⟩ := word_of_assemble binary64_words e (lt_trans hlt (infMag_lt_signWeight _))
  refine ⟨?_, ?_, hneg.trans (negOf_toNat32 a)⟩
  · rw [f64IsFinite, isFinitePattern_iff, hmag]; exact hlt
  · rw [f64Units, unitsOf, hmag, negOf_toNat64, hneg, hv, signed_mul, f32Units, unitsOf]; norm_cast

/-- round32 of a finite F64 is its number rounded once (R127). -/
theorem f32OfF64_rounded (nan : F32) {a : F64} (ha : f64IsFinite a = true) :
    RoundedTo binary32 (f64Units a).natAbs (2 ^ 925) (magOf binary32 (f32OfF64 nan a).toNat) ∧
      (f32OfF64 nan a).msb = a.msb := by
  obtain ⟨mag, e, r⟩ := convertPattern_finite binary32_ok nan.toNat ha
  obtain ⟨hmag, hneg⟩ := word_of_assemble binary32_words ((toNat_f32OfF64 nan a).trans e) r.lt_signWeight
  rw [show (minExp binary64 - minExp binary32).toNat = 0 by decide, Nat.pow_zero, Nat.mul_one,
    show (minExp binary32 - minExp binary64).toNat = 925 by decide] at r
  rw [hmag, hneg, f64Units, natAbs_unitsOf]
  exact ⟨r, negOf_toNat64 a⟩

theorem f64OfF32_nan (nan : F64) {a : F32} (h : f32IsNaN a = true) : f64OfF32 nan a = nan := by
  apply BitVec.eq_of_toNat_eq; rw [toNat_f64OfF32, convertPattern_nan _ h]

theorem f32OfF64_nan (nan : F32) {a : F64} (h : f64IsNaN a = true) : f32OfF64 nan a = nan := by
  apply BitVec.eq_of_toNat_eq; rw [toNat_f32OfF64, convertPattern_nan _ h]

theorem f64OfF32_inf (nan : F64) (s : Bool) : f64OfF32 nan (f32Inf s) = f64Inf s := by
  refine IsInfWord.eq ?_ (f64Inf_isInf s)
  rw [IsInfWord, toNat_f64OfF32, convertPattern_inf _ (f32Inf_isInf s).magOf, (f32Inf_isInf s).negOf]

theorem f32OfF64_inf (nan : F32) (s : Bool) : f32OfF64 nan (f64Inf s) = f32Inf s := by
  refine IsInfWord.eq ?_ (f32Inf_isInf s)
  rw [IsInfWord, toNat_f32OfF64, convertPattern_inf _ (f64Inf_isInf s).magOf, (f64Inf_isInf s).negOf]

/-- Settles O49: the integer is the quotient of the units by one, rounded down. -/
theorem floorRule : Obligations.FloorRule :=
  ⟨fun nan a => ⟨floorWord_rule binary64_words nan, floorWord_infinite binary64_words nan,
      fun hn ha => isNaNPattern_of_eq hn (f64Floor_nan nan a ha)⟩,
    fun nan a => ⟨floorWord_rule binary32_words nan, floorWord_infinite binary32_words nan,
      fun hn ha => isNaNPattern_of_eq hn (f32Floor_nan nan a ha)⟩⟩

/-- Settles O50: to the wider format nothing is rounded, to the narrower one once. -/
theorem conversions : Obligations.Conversions :=
  ⟨fun _ => f64OfNat_exact, fun _ _ ha hn => intOfPattern_integral binary64_ok ha hn, fun nan _ => f64OfF32_exact nan,
    fun nan _ => f32OfF64_rounded nan, fun nan nan' s => ⟨f64OfF32_inf nan s, f32OfF64_inf nan' s⟩,
    fun nan _ hn ha => isNaNPattern_of_eq hn (f64OfF32_nan nan ha),
    fun nan _ hn ha => isNaNPattern_of_eq hn (f32OfF64_nan nan ha)⟩

end Sys2Proof.Machine

/-! SUPPORT. The named numeric functions CLAMP_HI, MAPFB, PHASEWRAP, SMOOTH and LERP (40_numerics.md R128 to R130,
R133, R134, R137). -/

namespace Sys2Proof.Machine

/-! ## the feedback gain -/

section

variable {f : Fmt}

/-- The infinite magnitude is above one. -/
theorem oneUnits_lt_infMag (hf : f.Ok) : oneUnits f < magUnits f (infMag f) := by
  have hlt : 1 < 2 ^ (f.fracBits + 1) := Nat.one_lt_two_pow (Nat.succ_ne_zero _)
  obtain ⟨hone, hfin⟩ := roundMag_integer hf hlt
  rw [Nat.one_mul] at hone
  exact hone ▸ magUnits_strictMono f hfin

/-- A number above zero has its sign bit clear and is its magnitude. -/
theorem negOf_eq_false_of_pos {x : Nat} (h : 0 < unitsOf f x) :
    negOf f x = false ∧ unitsOf f x = magUnits f (magOf f x) := by
  unfold unitsOf signed at *
  cases hneg : negOf f x
  · exact ⟨rfl, rfl⟩
  · rw [hneg] at h
    simp only [if_true] at h
    omega

/-- A product has the exclusive-or of the signs, and against a factor at most 1 no larger magnitude than the other
factor: rounding is monotone (R120). -/
theorem mulPattern_shrinks (hf : f.Ok) (nan : Nat) {x y : Nat} (hx : isNaNPattern f x = false)
    (hle : unitsOf f x ≤ oneUnits f) (hy : isFinitePattern f y = true) (hy0 : magOf f y ≠ 0) :
    ∃ mag, mulPattern f nan x y = assemble f (negOf f x != negOf f y) mag ∧ mag ≤ infMag f ∧
      (negOf f x = false → mag ≤ magOf f y) := by
  have hunits : negOf f x = false → magUnits f (magOf f x) ≤ oneUnits f := fun h => by
    rw [unitsOf, h] at hle; exact Int.ofNat_le.mp hle
  cases hfin : isFinitePattern f x
  · have hinf := magOf_eq_infMag hx hfin
    refine ⟨infMag f, ?_, le_rfl, fun h => ?_⟩
    · rw [mulPattern_inf_finite nan hinf hy, if_neg hy0]
    · have := hunits h
      rw [hinf] at this
      exact absurd (oneUnits_lt_infMag hf) (Nat.not_lt.mpr this)
  · obtain ⟨mag, e, r⟩ := mulPattern_finite hf nan hfin hy
    refine ⟨mag, e, r.1, fun h => r.le_of_le (oneUnits_pos f) (isFinitePattern_iff.mp hy).le ?_⟩
    rw [Nat.mul_comm]
    exact Nat.mul_le_mul_left _ (hunits h)

/-- A factor at most 1 takes a number above zero to at most itself. -/
theorem mulPattern_le (hf : f.Ok) (nan : Nat) {x y : Nat} (hx : isNaNPattern f x = false)
    (hle : unitsOf f x ≤ oneUnits f) (hy : isFinitePattern f y = true) (hpos : 0 < unitsOf f y) :
    lePattern f (mulPattern f nan x y) y = true := by
  obtain ⟨hneg, hunits⟩ := negOf_eq_false_of_pos hpos
  have hy0 : magOf f y ≠ 0 := fun h => hpos.ne' ((unitsOf_eq_zero_iff f y).mpr h)
  obtain ⟨mag, e, hinf, hmag⟩ := mulPattern_shrinks hf nan hx hle hy hy0
  have hlt := lt_of_le_of_lt hinf (infMag_lt_signWeight f)
  rw [hneg, Bool.bne_false] at e
  rw [e, lePattern_iff]
  refine ⟨?_, isNaN_false_of_finite hy, ?_⟩
  · rw [isNaNPattern, magOf_assemble hlt]; exact decide_eq_false (Nat.not_lt.mpr hinf)
  · rw [unitsOf, magOf_assemble hlt, negOf_assemble hlt]
    cases hnx : negOf f x
    · rw [hunits]
      exact Int.ofNat_le.mpr ((magUnits_strictMono f).monotone (hmag hnx))
    · exact le_trans (Int.neg_nonpos_of_nonneg (Int.natCast_nonneg _)) hpos.le

end

/-- A comparison with a NaN is false (R125). -/
theorem f64Lt_nan_right (a : F64) {b : F64} (hb : f64IsNaN b = true) : ¬ f64Lt a b = true := fun h => by
  obtain ⟨-, hb', -⟩ := f64Lt_iff.mp h
  rw [hb] at hb'; cases hb'

theorem f32Le_nan_right (a : F32) {b : F32} (hb : f32IsNaN b = true) : ¬ f32Le a b = true := fun h => by
  obtain ⟨-, hb', -⟩ := f32Le_iff.mp h
  rw [hb] at hb'; cases hb'

/-- CLAMP_HI passes a NaN unchanged (R129). -/
theorem clampHi_nan (P : Params) {v : F64} (hv : f64IsNaN v = true) : clampHi P v = v :=
  if_neg (f64Lt_nan_right _ hv)

/-- Settles O51: the clamp leaves at most 1.0 or a NaN, and a factor at most 1 takes 0.99 to at most itself. -/
theorem feedbackGainBound : Obligations.FeedbackGainBound := by
  intro δ k v
  refine ⟨rfl, rfl, rfl, fun hv => ?_, fun hv => ?_⟩
  · obtain ⟨hnan, hle⟩ := clampHi_le hv
    obtain ⟨-, -, hunits⟩ := f64Le_iff.mp hle
    rw [f64Units_one] at hunits
    rw [mapFb, f64Le, toNat_f64Mul]
    exact mulPattern_le binary64_ok _ hnan hunits (by decide) (by decide +kernel)
  · rw [clampHi_nan _ hv, mapFb, f64Mul_nan _ _ _ (.inl hv)]
    exact f64IsNaN_nan64 δ k

/-! ## PHASEWRAP -/

/-- q = p - floor(p) of what is not finite is the NaN drawn (R123). -/
theorem fractionalPart_not_finite (n m : F32) {p : F32} (hp : f32IsFinite p = false) :
    f32Sub n p (f32Floor m p) = n := by
  cases hnan : f32IsNaN p
  · have hinf := magOf_eq_infMag hnan hp
    rw [f32Floor_infinite _ hinf, f32Sub_infinite_self _ hinf]
  · exact f32Sub_nan n p _ (.inl hnan)

theorem phaseWrap_finite (δ : Draws) (k : Nat) {p : F32} (hp : f32IsFinite p = true) :
    f32IsNaN (phaseWrap δ k p) = false := by
  rw [phaseWrap]
  split
  · decide
  · exact (f32Le_iff.mp (f32Sub_floor_nonneg _ _ hp)).2.1

theorem phaseWrap_not_finite (δ : Draws) (k : Nat) {p : F32} (hp : f32IsFinite p = false) :
    f32IsNaN (phaseWrap δ k p) = true := by
  have hq := fractionalPart_not_finite (nan32 δ (k + 1)) (nan32 δ k) hp
  rw [phaseWrap, hq, if_neg (f32Le_nan_right _ (f32IsNaN_nan32 δ (k + 1)))]
  exact f32IsNaN_nan32 δ (k + 1)

/-- Settles O52: of a finite phase q is no NaN, so the range of PHASEWRAP has no exception left. -/
theorem phaseWrapRange : Obligations.PhaseWrapRange := by
  refine fun δ k p => ⟨rfl, fun hp => ?_, phaseWrap_not_finite δ k⟩
  exact (phaseWrap_inRange δ k p).resolve_left (by rw [phaseWrap_finite δ k hp]; decide)

/-! ## SMOOTH -/

theorem f64Sub_self (nan : F64) {a : F64} (ha : f64IsFinite a = true) : f64Sub nan a a = f64Zero :=
  subWord_self binary64_words nan ha (f64SignedZero_isZero false)

/-- SMOOTH from +0.0 with K = 1 reaches the target (R128, R175). -/
theorem smooth_from_zero (δ : Draws) (k : Nat) {x : F64} (hx : f64IsFinite x = true) :
    f64IsFinite (smooth δ k f64Zero x f64One) = true ∧ f64Units (smooth δ k f64Zero x f64One) = f64Units x := by
  obtain ⟨hsub, hsubu⟩ := f64Sub_zero (nan64 δ k) hx f64IsFinite_zero f64Units_zero
  obtain ⟨hmul, hmulu⟩ := one_f64Mul (nan64 δ (k + 1)) f64IsFinite_one hsub f64Units_one
  obtain ⟨hadd, haddu⟩ := zero_f64Add (nan64 δ (k + 2)) f64IsFinite_zero hmul f64Units_zero
  exact ⟨hadd, haddu.trans (hmulu.trans hsubu)⟩

/-- A state at its target stays there (R175). -/
theorem smooth_at_target (δ : Draws) (k : Nat) {x coef : F64} (hx : f64IsFinite x = true)
    (hc : f64IsFinite coef = true) :
    f64IsFinite (smooth δ k x x coef) = true ∧ f64Units (smooth δ k x x coef) = f64Units x := by
  rw [smooth, f64Sub_self _ hx]
  obtain ⟨hmul, hmulu⟩ := f64Mul_zero (nan64 δ (k + 1)) hc f64IsFinite_zero (.inr f64Units_zero)
  exact f64Add_zero (nan64 δ (k + 2)) hx hmul hmulu

/-- Settles O53: at either corner each of the three operations is exact. -/
theorem smoothRules : Obligations.SmoothRules := fun δ k =>
  ⟨fun _ _ _ => rfl, fun _ => smooth_from_zero δ k, fun _ _ => smooth_at_target δ k, smooth_nan δ k⟩

/-! ## LERP -/

/-- LERP with weight +0.0 between finite numbers is the first (R133, R195). -/
theorem lerp_zero_finite (δ : Draws) (k : Nat) {a b : F64} (ha : f64IsFinite a = true) (hb : f64IsFinite b = true) :
    f64IsFinite (lerp δ k a b f64Zero) = true ∧ f64Units (lerp δ k a b f64Zero) = f64Units a := by
  obtain ⟨hu, huu⟩ := f64Sub_zero (nan64 δ k) f64IsFinite_one f64IsFinite_zero f64Units_zero
  obtain ⟨hp, hpu⟩ := f64Mul_one (nan64 δ (k + 1)) ha hu (huu.trans f64Units_one)
  obtain ⟨hq, hqu⟩ := f64Mul_zero (nan64 δ (k + 2)) hb f64IsFinite_zero (.inr f64Units_zero)
  obtain ⟨hr, hru⟩ := f64Add_zero (nan64 δ (k + 3)) hp hq hqu
  exact ⟨hr, hru.trans hpu⟩

/-- A zero times what is not finite is a NaN (R123). -/
theorem f64Mul_not_finite_zero {nan b : F64} (hn : f64IsNaN nan = true) (hb : f64IsFinite b = false) :
    f64IsNaN (f64Mul nan b f64Zero) = true := by
  cases hnan : f64IsNaN b
  · rw [f64IsNaN, toNat_f64Mul, mulPattern_inf_finite _ (magOf_eq_infMag hnan hb) f64IsFinite_zero, if_pos (by decide)]
    exact hn
  · rw [f64Mul_nan nan b _ (.inl hnan)]
    exact hn

/-- LERP with weight +0.0 towards an infinity or a NaN is a NaN. -/
theorem lerp_zero_not_finite (δ : Draws) (k : Nat) (a : F64) {b : F64} (hb : f64IsFinite b = false) :
    f64IsNaN (lerp δ k a b f64Zero) = true := by
  rw [lerp, f64Add_nan _ _ _ (.inr (f64Mul_not_finite_zero (f64IsNaN_nan64 δ (k + 2)) hb))]
  exact f64IsNaN_nan64 δ (k + 3)

/-- Settles O56: with weight +0.0 each of the four operations is exact, or b * 0.0 is a NaN. -/
theorem lerpAtZero : Obligations.LerpAtZero :=
  ⟨fun _ _ _ _ _ => ⟨rfl, rfl⟩, fun δ k a _ ha => ⟨lerp_zero_finite δ k ha, lerp_zero_not_finite δ k a⟩⟩

end Sys2Proof.Machine

/-! SUPPORT. The open functions as the core evaluates them: TANH and SOFTCLIP by the laws of their record, WAVE by its
bound and its period (40_numerics.md R131, R132, R136). -/

namespace Sys2Proof.Machine

/-! ## settled results -/

/-- A result that is no NaN and need not be one is kept (R123). -/
theorem settleNaN_keep {drawn r : F64} (hr : f64IsNaN r = false) : settleNaN drawn false r = r := by
  simp [settleNaN, hr]

theorem settleNaN32_keep {drawn : F64} {r : F32} (hr : f32IsNaN r = false) : settleNaN32 drawn false r = r := by
  simp [settleNaN32, hr]

/-! ## TANH -/

/-- TANH of a NaN is a NaN (R132). -/
theorem tanhOp_nan (P : Params) (δ : Draws) (k : Nat) {x : F64} (hx : f64IsNaN x = true) :
    f64IsNaN (tanhOp P δ k x) = true := by
  rw [tanhOp, hx]
  exact settleNaN_bad _ _

/-- TANH of what is no NaN is the record's function of it, at every site (R132). -/
theorem tanhOp_eq {P : Params} (hP : P.Valid) (δ : Draws) (k : Nat) {x : F64} (hx : f64IsNaN x = false) :
    tanhOp P δ k x = P.tanh x := by
  have hbound := hP.tanh.bounded x
  rw [hx] at hbound
  obtain ⟨hnan, -⟩ := unitBounded64_iff.mp hbound
  rw [tanhOp, hx, settleNaN_keep hnan]

/-- TANH keeps a zero with its sign (R132). -/
theorem tanhOp_zero {P : Params} (hP : P.Valid) (δ : Draws) (k : Nat) (s : Bool) :
    tanhOp P δ k (f64SignedZero s) = f64SignedZero s := by
  cases s
  · exact (tanhOp_eq hP δ k (by decide)).trans hP.tanh.atZero.1
  · exact (tanhOp_eq hP δ k (by decide)).trans hP.tanh.atZero.2

/-- TANH is non-decreasing (R132). -/
theorem tanhOp_mono {P : Params} (hP : P.Valid) (δ : Draws) (k j : Nat) {x y : F64} (h : f64Le x y = true) :
    f64Le (tanhOp P δ k x) (tanhOp P δ j y) = true := by
  obtain ⟨hx, hy, -⟩ := f64Le_iff.mp h
  rw [tanhOp_eq hP δ k hx, tanhOp_eq hP δ j hy]
  exact hP.tanh.monotone x y h

/-! ## SOFTCLIP -/

theorem softClip_tanhRatio {P : Params} (h : P.softclip = .tanhRatio) (δ : Draws) (k : Nat) (x drive : F64) :
    softClip P δ k x drive =
      f64Div (nan64 δ (k + 3)) (tanhOp P δ (k + 1) (f64Mul (nan64 δ k) drive x)) (tanhOp P δ (k + 2) drive) := by
  rw [softClip, h]

theorem softClip_configured {P : Params} {f : F64 → F64 → F64} (h : P.softclip = .configured f) (δ : Draws)
    (k : Nat) (x drive : F64) :
    softClip P δ k x drive = settleNaN (δ k) (f64IsNaN x || f64IsNaN drive) (f x drive) := by
  rw [softClip, h]

/-- A record that meets the constraints has the default SOFTCLIP or a configured one (R131). -/
theorem softclip_cases {P : Params} (hP : P.Valid) :
    P.softclip = .tanhRatio ∨ ∃ f, P.softclip = .configured f ∧ SoftclipLaws f := by
  cases h : P.softclip with
  | tanhRatio => exact .inl rfl
  | configured f => exact .inr ⟨f, rfl, hP.softclip f h⟩
  | identity => exact absurd h hP.softclipHardware

/-- S3: SOFTCLIP with a NaN argument is a NaN (R131). -/
theorem softClip_nan {P : Params} (hP : P.Valid) (δ : Draws) (k : Nat) {x drive : F64}
    (h : f64IsNaN x = true ∨ f64IsNaN drive = true) : f64IsNaN (softClip P δ k x drive) = true := by
  rcases softclip_cases hP with hs | ⟨f, hs, -⟩
  · have hmul := f64Mul_nan (nan64 δ k) drive x h.symm
    rw [softClip_tanhRatio hs, hmul, f64Div_nan _ _ _ (.inl (tanhOp_nan P δ (k + 1) (f64IsNaN_nan64 δ k)))]
    exact f64IsNaN_nan64 δ (k + 3)
  · rw [softClip_configured hs, Bool.or_eq_true_iff.mpr h]
    exact settleNaN_bad _ _

/-- A finite drive that is not zero is one at which S2 promises a bound (R131). -/
theorem finiteNonzero_of_units {drive : F64} (hd : f64IsFinite drive = true) (h0 : f64Units drive ≠ 0) :
    finiteNonzero drive = true := by
  have hnan := f64IsNaN_false_of_finite hd
  have hzero : f64IsNaN f64Zero = false := by decide
  rw [finiteNonzero, hd, Bool.true_and, Bool.or_eq_true, f64Lt_iff, f64Lt_iff, f64Units_zero]
  exact (Int.lt_or_gt_of_ne h0).imp (fun h => ⟨hnan, hzero, h⟩) (fun h => ⟨hzero, hnan, h⟩)

/-- S2: a configured SOFTCLIP is finite at a finite drive that is not zero (R131). -/
theorem softClip_finite {P : Params} (hP : P.Valid) (hs : P.softclip ≠ .tanhRatio) (δ : Draws) (k : Nat)
    {x drive : F64} (hx : f64IsNaN x = false) (hd : f64IsFinite drive = true) (h0 : f64Units drive ≠ 0) :
    f64IsFinite (softClip P δ k x drive) = true := by
  obtain ⟨f, hf, hlaws⟩ := (softclip_cases hP).resolve_left hs
  have hfin := hlaws.bounded x drive hx (finiteNonzero_of_units hd h0)
  rw [softClip_configured hf, hx, f64IsNaN_false_of_finite hd]
  exact (settleNaN_keep (drawn := δ k) (f64IsNaN_false_of_finite hfin)).symm ▸ hfin

/-- The default SOFTCLIP at drive +0.0 or -0.0 is 0 / 0, a NaN (R131). -/
theorem softClip_zero_drive {P : Params} (hP : P.Valid) (hs : P.softclip = .tanhRatio) (δ : Draws) (k : Nat) {x : F64}
    (hx : f64IsFinite x = true) (s : Bool) : f64IsNaN (softClip P δ k x (f64SignedZero s)) = true := by
  have zero := f64SignedZero_isZero
  have hfin : ∀ t, f64IsFinite (f64SignedZero t) = true := by decide
  have hunits : ∀ t, f64Units (f64SignedZero t) = 0 := by decide
  have hmul : f64Mul (nan64 δ k) (f64SignedZero s) x = f64SignedZero ((f64SignedZero s).msb ^^ x.msb) :=
    mulWord_zero binary64_words _ (hfin s) hx (.inl (hunits s)) (zero _)
  rw [softClip_tanhRatio hs, hmul, tanhOp_zero hP, tanhOp_zero hP]
  exact isNaNPattern_of_eq (f64IsNaN_nan64 δ (k + 3))
    (divWord_zero_zero binary64_words _ (hfin _) (hfin s) (hunits _) (hunits s))

/-- Settles O54: the default formula and a configured function, each by the laws of its record. -/
theorem softclipCorners : Obligations.SoftclipCorners := fun P δ k x drive hP =>
  ⟨softClip_nan hP δ k, fun hs => softClip_finite hP hs δ k, fun hs => softClip_tanhRatio hs δ k x drive,
    fun hs hx => ⟨softClip_zero_drive hP hs δ k hx false, softClip_zero_drive hP hs δ k hx true⟩, rfl,
    tanhOp_nan P δ k, fun j _ => tanhOp_mono hP δ k j⟩

/-! ## WAVE -/

theorem unitBounded32_iff {r : F32} :
    unitBounded32 r = true ↔ f32IsNaN r = false ∧ -(oneUnits binary32 : Int) ≤ f32Units r ∧
      f32Units r ≤ oneUnits binary32 := by
  have hone : f32IsNaN f32One = false := by decide
  have hminus : f32IsNaN 0xBF800000#32 = false := by decide
  have hunits : f32Units 0xBF800000#32 = -(oneUnits binary32 : Int) := by decide +kernel
  rw [unitBounded32, Bool.and_eq_true, f32Le_iff, f32Le_iff, hunits, f32Units_one]
  exact ⟨fun ⟨⟨_, hnan, hlow⟩, _, _, hhigh⟩ => ⟨hnan, hlow, hhigh⟩,
    fun ⟨hnan, hlow, hhigh⟩ => ⟨⟨hminus, hnan, hlow⟩, hnan, hone, hhigh⟩⟩

/-- An F32 of magnitude bits at most those of 1.0 is between -1.0 and 1.0. -/
theorem unitBounded32_of_magOf {r : F32} (h : magOf binary32 r.toNat ≤ f32One.toNat) : unitBounded32 r = true := by
  have hnan : f32IsNaN r = false := decide_eq_false (Nat.not_lt.mpr (le_trans h (by decide)))
  have hmag : (magUnits binary32 (magOf binary32 r.toNat) : Int) ≤ oneUnits binary32 :=
    f32Units_one ▸ Int.ofNat_le.mpr ((magUnits_strictMono binary32).monotone h)
  have habs : (f32Units r).natAbs = magUnits binary32 (magOf binary32 r.toNat) := natAbs_unitsOf _ _
  rw [unitBounded32_iff]
  exact ⟨hnan, by omega, by omega⟩

/-- What is between -1.0 and 1.0 is finite. -/
theorem f64IsFinite_of_unitBounded64 {v : F64} (h : unitBounded64 v = true) : f64IsFinite v = true := by
  obtain ⟨hnan, hlow, hhigh⟩ := unitBounded64_iff.mp h
  by_contra hfin
  have hinf := magOf_eq_infMag hnan (Bool.eq_false_iff.mpr hfin)
  have habs : (f64Units v).natAbs = magUnits binary64 (infMag binary64) := hinf ▸ natAbs_unitsOf _ _
  have hone := oneUnits_lt_infMag binary64_ok
  omega

/-- round32 keeps the range from -1.0 to 1.0: rounding is monotone (R127). -/
theorem unitBounded32_f32OfF64 (nan : F32) {v : F64} (h : unitBounded64 v = true) :
    unitBounded32 (f32OfF64 nan v) = true := by
  obtain ⟨-, hlow, hhigh⟩ := unitBounded64_iff.mp h
  obtain ⟨hround, -⟩ := f32OfF64_rounded nan (f64IsFinite_of_unitBounded64 h)
  have hone : oneUnits binary64 = magUnits binary32 f32One.toNat * 2 ^ 925 := by decide +kernel
  refine unitBounded32_of_magOf (hround.le_of_le (by positivity) (by decide) ?_)
  rw [← hone]
  omega

/-- 2 * pi * widen(p) of a finite p is finite: below 2^132. -/
theorem wavePhase_finite (n m : F64) {p : F32} (hp : f32IsFinite p = true) :
    f64IsFinite (f64Mul m f64TwoPi (f64OfF32 n p)) = true := by
  obtain ⟨hw, hmag⟩ := f64OfF32_finite n hp
  obtain ⟨hround, -⟩ := mulWord_rounded binary64_words m (a := f64TwoPi) (by decide) hw
  rw [natAbs_unitsOf, natAbs_unitsOf] at hround
  have hle : magUnits binary64 (magOf binary64 f64TwoPi.toNat) * magUnits binary64 (0x47F0000000000000#64).toNat ≤
      magUnits binary64 (0x4830000000000000#64).toNat * oneUnits binary64 := by decide +kernel
  have hbound := hround.le_of_le (v := (0x4830000000000000#64).toNat) (oneUnits_pos binary64) (by decide)
    (le_trans (Nat.mul_le_mul_left _ ((magUnits_strictMono binary64).monotone hmag)) hle)
  exact isFinitePattern_iff.mpr (lt_of_le_of_lt hbound (by decide))

/-- The sine as the core evaluates it is between -1.0 and 1.0, or, of what is not finite, a NaN (R136). -/
theorem settledSin_range {P : Params} (hP : P.Valid) (drawn a : F64) :
    unitBounded64 (settleNaN drawn (f64IsNaN a) (P.sin a)) = true ∨
      (f64IsNaN (settleNaN drawn (f64IsNaN a) (P.sin a)) = true ∧ f64IsFinite a = false) := by
  cases ha : f64IsNaN a
  · rcases Bool.or_eq_true_iff.mp (hP.sin a ha) with h | h
    · obtain ⟨hnan, -⟩ := unitBounded64_iff.mp h
      rw [settleNaN_keep hnan]
      exact .inl h
    · obtain ⟨hnan, hfin⟩ := Bool.and_eq_true_iff.mp h
      rw [settleNaN, hnan, Bool.or_true, if_pos rfl]
      exact .inr ⟨f64IsNaN_nanOf64 _, (Bool.not_eq_true' _).mp hfin⟩
  · exact .inr ⟨settleNaN_bad _ _, isFinite_false_of_nan ha⟩

theorem waveOp_sine {P : Params} (h : P.wave = .sine) (δ : Draws) (k : Nat) (p : F32) :
    waveOp P δ k p = f32OfF64 (nan32 δ (k + 3))
      (settleNaN (δ (k + 2)) (f64IsNaN (f64Mul (nan64 δ (k + 1)) f64TwoPi (f64OfF32 (nan64 δ k) p)))
        (P.sin (f64Mul (nan64 δ (k + 1)) f64TwoPi (f64OfF32 (nan64 δ k) p)))) := by
  rw [waveOp, h]

theorem waveOp_configured {P : Params} {f : F32 → F32} (h : P.wave = .configured f) (δ : Draws) (k : Nat) (p : F32) :
    waveOp P δ k p = settleNaN32 (δ k) (f32IsNaN p) (f p) := by
  rw [waveOp, h]

/-- A record that meets the constraints has the default WAVE or a configured one (R136). -/
theorem wave_cases {P : Params} (hP : P.Valid) : P.wave = .sine ∨ ∃ f, P.wave = .configured f ∧ WaveLaws f := by
  cases h : P.wave with
  | sine => exact .inl rfl
  | configured f => exact .inr ⟨f, rfl, hP.wave f h⟩

/-- WAVE of a NaN is a NaN (R136). -/
theorem waveOp_nan {P : Params} (hP : P.Valid) (δ : Draws) (k : Nat) {p : F32} (hp : f32IsNaN p = true) :
    f32IsNaN (waveOp P δ k p) = true := by
  rcases wave_cases hP with hs | ⟨f, hs, -⟩
  · have hmul : f64Mul (nan64 δ (k + 1)) f64TwoPi (f64OfF32 (nan64 δ k) p) = nan64 δ (k + 1) := by
      rw [f64OfF32_nan _ hp, f64Mul_nan _ _ _ (.inr (f64IsNaN_nan64 δ k))]
    rw [waveOp_sine hs, hmul, f64IsNaN_nan64, f32OfF64_nan _ (settleNaN_bad _ _)]
    exact f32IsNaN_nan32 δ (k + 3)
  · rw [waveOp_configured hs, settleNaN32, hp, Bool.true_or, if_pos rfl]
    exact f32IsNaN_nanOf32 _

/-- A configured WAVE is its function wherever that gives a number (R136). -/
theorem waveOp_keep {P : Params} {f : F32 → F32} (hs : P.wave = .configured f) (δ : Draws) (k : Nat) {p : F32}
    (hp : f32IsNaN p = false) (hf : unitBounded32 (f p) = true) : waveOp P δ k p = f p := by
  obtain ⟨hnan, -⟩ := unitBounded32_iff.mp hf
  rw [waveOp_configured hs, hp, settleNaN32_keep hnan]

/-- WAVE is between -1.0 and 1.0, or, of what is not finite, a NaN (R136). -/
theorem waveOp_range {P : Params} (hP : P.Valid) (δ : Draws) (k : Nat) (p : F32) :
    unitBounded32 (waveOp P δ k p) = true ∨ (f32IsNaN (waveOp P δ k p) = true ∧ f32IsFinite p = false) := by
  cases hp : f32IsNaN p
  case true => exact .inr ⟨waveOp_nan hP δ k hp, isFinite_false_of_nan hp⟩
  rcases wave_cases hP with hs | ⟨f, hs, hlaws⟩
  · rw [waveOp_sine hs]
    refine (settledSin_range hP _ _).imp (unitBounded32_f32OfF64 _) fun ⟨hnan, hfin⟩ => ⟨?_, ?_⟩
    · rw [f32OfF64_nan _ hnan]
      exact f32IsNaN_nan32 δ (k + 3)
    · exact Bool.eq_false_iff.mpr (mt (wavePhase_finite _ _) (Bool.eq_false_iff.mp hfin))
  · have hbound := hlaws.bounded p
    rw [hp] at hbound
    rcases Bool.or_eq_true_iff.mp hbound with h | h
    · exact .inl ((waveOp_keep hs δ k hp h).symm ▸ h)
    · obtain ⟨hnan, hfin⟩ := Bool.and_eq_true_iff.mp h
      rw [waveOp_configured hs, settleNaN32, hnan, Bool.or_true, if_pos rfl]
      exact .inr ⟨f32IsNaN_nanOf32 _, (Bool.not_eq_true' _).mp hfin⟩

/-- WAVE of a finite phase is between -1.0 and 1.0 (R136). -/
theorem waveOp_finite {P : Params} (hP : P.Valid) (δ : Draws) (k : Nat) {p : F32} (hp : f32IsFinite p = true) :
    unitBounded32 (waveOp P δ k p) = true :=
  (waveOp_range hP δ k p).resolve_right fun ⟨_, hfin⟩ => by rw [hp] at hfin; cases hfin

/-- A configured WAVE of a finite phase is its function's number, at every site (R136). -/
theorem waveOp_configured_finite {P : Params} {f : F32 → F32} (hs : P.wave = .configured f) (hlaws : WaveLaws f)
    (δ : Draws) (k : Nat) {p : F32} (hp : f32IsFinite p = true) : waveOp P δ k p = f p := by
  have hnan := f32IsNaN_false_of_finite hp
  have hbound := hlaws.bounded p
  rw [hnan, hp] at hbound
  exact waveOp_keep hs δ k hnan (by simpa using hbound)

/-- A configured WAVE has period 1 (R136, D21). -/
theorem waveOp_periodic {P : Params} (hP : P.Valid) (hs : P.wave ≠ .sine) (δ : Draws) (k j : Nat) {p q : F32}
    (hp : f32IsFinite p = true) (hq : f32IsFinite q = true)
    (h : (oneUnits binary32 : Int) ∣ f32Units q - f32Units p) :
    f32Units (waveOp P δ j q) = f32Units (waveOp P δ k p) := by
  obtain ⟨f, hf, hlaws⟩ := (wave_cases hP).resolve_left hs
  rw [waveOp_configured_finite hf hlaws δ j hq, waveOp_configured_finite hf hlaws δ k hp]
  exact hlaws.periodic p q hp hq h

/-- Settles O55: the bound of the sine or of the configured function survives the rounding and the drawn NaN. -/
theorem waveBound : Obligations.WaveBound := fun _ δ k p hP =>
  ⟨fun hs => waveOp_sine hs δ k p, fun hp => Bool.and_eq_true_iff.mp (waveOp_finite hP δ k hp),
    (waveOp_range hP δ k p).symm.imp And.left Bool.and_eq_true_iff.mp, waveOp_nan hP δ k,
    fun hs j _ => waveOp_periodic hP hs δ k j⟩

end Sys2Proof.Machine

/-! SUPPORT. The commands without issue checks whose effect does not look at BUSY: issued to an idle core, each is its
effect on the latched state. DLY.SETSR, DLY.RESET and a reset issued twice (41_delay_control.md R150, R151, 44_lfo.md
R211). -/

namespace Sys2Proof.Machine

/-! ## an effect between BUSY set and BUSY cleared -/

/-- BUSY set at issue and cleared at the end leaves a core whose BUSY is 0 as it was. -/
theorem setBusy_restored {s : State} (h : s.status.busy = false) : setBusy false (setBusy true s) = s :=
  congrArg (fun t => { s with status := t }) (status_busy_restored h)

/-- An effect that BUSY makes no difference to, and that leaves STATUS and rst as they are. -/
structure IgnoresStatus (effect : State → State) : Prop where
  setBusy : ∀ b s, effect (setBusy b s) = setBusy b (effect s)
  status : ∀ s, (effect s).status = s.status
  rst : ∀ s, (effect s).rst = s.rst

theorem setDlyRate_ignoresStatus : IgnoresStatus setDlyRate := ⟨fun _ _ => rfl, setDlyRate_status, setDlyRate_rst⟩

theorem clearDly_ignoresStatus (P : Params) : IgnoresStatus (clearDly P) :=
  ⟨fun _ _ => rfl, clearDly_status P, clearDly_rst P⟩

theorem clearLfo_ignoresStatus : IgnoresStatus clearLfo := ⟨fun _ _ => rfl, clearLfo_status, clearLfo_rst⟩

section

variable {effect : State → State} {s : State}

/-- After such an effect on the latched state the core is idle again. -/
theorem IgnoresStatus.idle (he : IgnoresStatus effect) (w : CmdWord) (hi : Idle s) : Idle (effect (latch w s)) := by
  rw [Idle, he.status, he.rst]
  exact hi

/-- A command with such an effect, issued to an idle core, is its effect on the latched state. -/
theorem IgnoresStatus.issueSimple_eq (he : IgnoresStatus effect) (P : Params) (w : CmdWord) (hi : Idle s) :
    issueSimple P w effect s = effect (latch w s) := by
  obtain ⟨-, hbusy, -⟩ := he.idle w hi
  rw [issueSimple_idle P w effect hi, he.setBusy, setBusy_restored hbusy]

/-- Issued twice it leaves what it leaves once, if latching and acting again changes nothing. -/
theorem IgnoresStatus.issueSimple_twice (he : IgnoresStatus effect) (P : Params) (w : CmdWord) (hi : Idle s)
    (hagain : effect (latch w (effect (latch w s))) = effect (latch w s)) :
    issueSimple P w effect (issueSimple P w effect s) = issueSimple P w effect s := by
  rw [he.issueSimple_eq P w hi, he.issueSimple_eq P w (he.idle w hi), hagain]

end

/-! ## DLY.SETSR and DLY.RESET -/

/-- Settles O23: the operands are latched first, so SR_L is SR. -/
theorem dlySetsrResult : Obligations.DlySetsrResult := fun s hi => by
  have heq : dlySetsrWith Config.params s = setDlyRate (latch (encode .dlySetsr) s) :=
    setDlyRate_ignoresStatus.issueSimple_eq _ _ hi
  rw [exec_eq, heq]
  rfl

/-- Settles O24: the state left is `clearDly` of the latched state; a RING that lists nothing reads +0.0. -/
theorem dlyResetResult : Obligations.DlyResetResult := fun s hi => by
  have heq : dlyResetWith Config.params s = clearDly Config.params (latch (encode .dlyReset) s) :=
    (clearDly_ignoresStatus _).issueSimple_eq _ _ hi
  refine ⟨_, (exec_eq .dlyReset s).trans (congrArg _ heq), clearDly_dly_feedbackSample _ _,
    clearDly_dly_timeSmoothed _ _, clearDly_dly_wetSmoothed _ _, clearDly_dly_feedbackSmoothed _ _,
    clearDly_dly_softClipSmoothed _ _, ringRead_nil, clearDly_dly_sampleRate _ _, clearDly_dly_writeIndex _ _, rfl⟩

/-! ## a reset issued twice -/

theorem dlyResetWith_twice (P : Params) {s : State} (hi : Idle s) :
    dlyResetWith P (dlyResetWith P s) = dlyResetWith P s :=
  (clearDly_ignoresStatus P).issueSimple_twice P _ hi rfl

theorem lfoResetWith_twice (P : Params) {s : State} (hi : Idle s) :
    lfoResetWith P (lfoResetWith P s) = lfoResetWith P s :=
  clearLfo_ignoresStatus.issueSimple_twice P _ hi rfl

/-- Settles O25: what a reset clears is clear, and the operand registers it latches are the same. -/
theorem resetsAreIdempotent : Obligations.ResetsAreIdempotent := by
  refine fun s t hi => ⟨fun ht => ?dly, fun ht => ?lfo⟩
  case dly =>
    rw [exec_eq] at ht ⊢
    cases ht
    exact congrArg _ (dlyResetWith_twice _ hi)
  case lfo =>
    rw [exec_eq] at ht ⊢
    cases ht
    exact congrArg _ (lfoResetWith_twice _ hi)

end Sys2Proof.Machine

/-! SUPPORT. DLY.PROC: its issue checks in their order, and what it does past them, sample by sample
(42_delay_process.md R160 to R171, R174). -/

namespace Sys2Proof.Machine

theorem exec_dlyProc (s : State) : exec .dlyProc s = .next (dlyProcWith Config.params s) := exec_eq .dlyProc s

/-! ## the block -/

/-- An accepted DLY.PROC with n of its sample steps made (42_delay_process.md R163). -/
def afterSamples (P : Params) (s : State) (n : Nat) : State := repeatStep (dlySample P) n (started P .dlyProc s)

theorem afterSamples_succ (P : Params) (s : State) (n : Nat) :
    afterSamples P s (n + 1) = dlySample P (afterSamples P s n) := repeatStep_succ' _ _ _

theorem afterSamples_frame (P : Params) (s : State) (n : Nat) :
    DlyBlockFrame P n (started P .dlyProc s) (afterSamples P s n) := dlyBlock_frame P n _

/-- The sample counter, 32 bits wide, does not wrap before N (10_state.md R34). -/
theorem afterSamples_count (P : Params) {s : State} {n : Nat} (hn : n < s.regs.count.toNat) :
    (afterSamples P s n).seq.i.toNat = n := by
  have hlt := s.regs.count.isLt
  have hzero : (started P .dlyProc s).seq.i = 0#32 := rfl
  rw [(afterSamples_frame P s n).i, hzero, BitVec.zero_add, BitVec.toNat_ofNat, Nat.mod_eq_of_lt (by omega)]

/-- With BUSY cleared, the samples leave an idle core's STATUS as it was, OOR apart. -/
theorem afterSamples_status (P : Params) {s : State} (hi : Idle s) (n : Nat) :
    (setBusy false (afterSamples P s n)).status = { s.status with oor := (afterSamples P s n).status.oor } := by
  have hf := afterSamples_frame P s n
  obtain ⟨-, hbusy, -⟩ := hi
  rw [setBusy_status, Status.mk.injEq]
  exact ⟨hbusy.symm, hf.fault, rfl, hf.cause, hf.info⟩

/-- Past its issue checks DLY.PROC is the block-rate part and N sample steps. -/
theorem dlyProcWith_ready {P : Params} {s : State} (h : DlyProcReady P s) :
    dlyProcWith P s = setBusy false (afterSamples P s s.regs.count.toNat) := by
  rcases dlyProc_cases P h.idle with ⟨hn, -⟩ | ⟨-, heq⟩
  · exact absurd h hn
  · exact heq

/-! ## the issue checks -/

/-- A DLY.PROC that fails a check changes STATUS alone (60_exceptions.md R240). -/
theorem exec_dlyProc_refused {s : State} (hi : Idle s) {r : Refused}
    (hr : checkDlyProc Config.params (latch (encode .dlyProc) s) = some r) :
    exec .dlyProc s = .next { s with
      status := { busy := false, fault := true, oor := s.status.oor, cause := r.cause, info := r.info } } := by
  rw [exec_dlyProc, dlyProcWith, issue_refused _ _ _ _ _ _ _ hi hr]
  rfl

theorem not_overruns {P : Params} {s : State} {h : Handle} {n : Nat} (hfits : Fits P s h n) :
    ¬ overruns P h n s = true := fun ho => (overruns_iff P h n s).mp ho hfits

/-- Settles O20: the checks are taken off one by one, in the order of R161; past the last one the core is ready. -/
theorem dlyProcIssueChecks : Obligations.DlyProcIssueChecks := by
  intro s hi faulted
  have hcheck := checkDlyProc_latch Config.params (encode .dlyProc) s
  have refused {r : Refused} (hr : checkDlyProc Config.params (latch (encode .dlyProc) s) = some r) :
      faulted r.cause r.info := exec_dlyProc_refused hi hr
  refine ⟨fun h => refused (hcheck.trans (if_pos ((isConfigured_eq_false _).mpr h))), fun hrate => ?_⟩
  rw [if_neg fun h => (isConfigured_eq_false _).mp h hrate] at hcheck
  refine ⟨fun h => refused (hcheck.trans (if_pos h)), fun hout => ?_⟩
  rw [if_neg (Bool.eq_false_iff.mp hout)] at hcheck
  refine ⟨fun h => refused (hcheck.trans (if_pos ((overruns_iff ..).mpr h))), fun hin => ?_⟩
  rw [if_neg (not_overruns hin)] at hcheck
  refine ⟨fun h => refused (hcheck.trans (if_pos ((overruns_iff ..).mpr h))), fun hmod => ?_⟩
  rw [if_neg (not_overruns hmod)] at hcheck
  refine ⟨fun h => refused (hcheck.trans (if_pos ((overruns_iff ..).mpr h))), fun henv => ?_⟩
  rw [if_neg (not_overruns henv)] at hcheck
  refine ⟨fun h => refused (hcheck.trans (if_pos ((overruns_iff ..).mpr h))), fun hfits => ?_⟩
  obtain ⟨t, ht, -, hfault⟩ := commandsComplete .dlyProc s hi
  exact ⟨t, ht, hfault ⟨hi, hrate, hout, hin, hmod, henv, hfits⟩⟩

/-! ## the seven steps of a sample -/

/-- Sample n of the block is iteration n of the loop of R160, with the drive of the block-rate part (R162). -/
theorem afterSamples_rule {P : Params} {s : State} (h : DlyProcReady P s)
    (hring : memWf (some f64Zero) s.dly.ring = true) (hxmem : memWf none s.xmem = true) {n : Nat}
    (hn : n < s.regs.count.toNat) :
    ∃ a m e : F64,
      DlySampleRule P s
        (f64Mul (nan64 (P.draw s.drawCount) 3) (afterSamples P s 0).dly.softClipSmoothed P.driveMax)
        (P.draw (afterSamples P s n).drawCount) n a m e (afterSamples P s n).dly (afterSamples P s (n + 1)).dly
        (afterSamples P s n).xmem (afterSamples P s (n + 1)).xmem
        (afterSamples P s n).status.oor (afterSamples P s (n + 1)).status.oor := by
  have hf := afterSamples_frame P s n
  obtain ⟨hring', hxmem'⟩ := dlyBlock_wf P n (b := started P .dlyProc s) hring hxmem
  have hrule := dlySample_rule P (b := afterSamples P s n) (hf.ops.trans (started_ops P .dlyProc s)) hf.lfo h.out
    hring' hxmem'
  rw [afterSamples_count P hn, hf.drive, ← afterSamples_succ] at hrule
  exact hrule

theorem dlyProcWith_rule {P : Params} {s : State} (h : DlyProcReady P s)
    (hring : memWf (some f64Zero) s.dly.ring = true) (hxmem : memWf none s.xmem = true) :
    DlyProcRule P s (dlyProcWith P s) := by
  have hf := afterSamples_frame P s s.regs.count.toNat
  rw [dlyProcWith_ready h]
  exact ⟨P.draw s.drawCount, fun n => P.draw (afterSamples P s n).drawCount, fun n => (afterSamples P s n).dly,
    fun n => (afterSamples P s n).xmem, fun n => (afterSamples P s n).status.oor, rfl, rfl, rfl,
    fun n hn => afterSamples_rule h hring hxmem hn, rfl, rfl, afterSamples_status P h.idle _,
    hf.lfo, hf.regs, hf.result, hf.host, hf.hostData⟩

/-- Settles O29: the states between the samples are the DelayEngine, XMEM and OOR of `afterSamples`. -/
theorem dlyProcRuns : Obligations.DlyProcRuns :=
  ⟨fun _ _ => dlyProcWith_rule, fun s h hring hxmem => ⟨_, exec_dlyProc s, dlyProcWith_rule h hring hxmem⟩⟩

/-! ## the frame and the empty block -/

/-- Settles O31, by the frame of DLY.PROC. -/
theorem dlyProcFrame : Obligations.DlyProcFrame := by
  unfold Obligations.DlyProcFrame
  intro frame
  have hframe {P : Params} {s : State} (hinv : CoreInv P s) (h : DlyProcReady P s) : frame P s (dlyProcWith P s) := by
    have hf := dlyProcWith_frame h hinv
    exact ⟨hf.writeIndex, hf.sampleRate, hf.ring, hf.xmem, hf.oor, hf.status, hf.lfo, hf.regs, hf.result, hf.host,
      hf.hostData⟩
  exact ⟨fun _ _ => hframe, fun s hinv h => ⟨_, exec_dlyProc s, hframe hinv h⟩⟩

/-- Settles O30: with no sample step only the block-rate part is left, which does not look at BUSY. -/
theorem dlyProcEmptyBlock : Obligations.DlyProcEmptyBlock := by
  intro s h hcount sc
  obtain ⟨-, hbusy, -⟩ := h.idle
  have hblock : afterSamples Config.params s s.regs.count.toNat =
      setBusy true (startDlyBlock Config.params (latch (encode .dlyProc) s)) := by
    rw [hcount]
    rfl
  have hidle : (startDlyBlock Config.params (latch (encode .dlyProc) s)).status.busy = false := hbusy
  rw [exec_dlyProc, dlyProcWith_ready h, hblock, setBusy_restored hidle]
  rfl

end Sys2Proof.Machine

/-! SUPPORT. The two RING indices of the interpolated read and INTERP line by line (43_interpolated_read.md R190, R193,
R194, R198). -/

namespace Sys2Proof.Machine

/-! ## the index wraps of each mode -/

section

variable {P : Params}

theorem tapIndices_asSource (h : P.wrapMode = .asSource) (fl : Int) : tapIndices P fl =
    (if fl - 1 ≤ 0 then fl - 1 + (P.cap : Int) else fl - 1, if (P.cap : Int) < fl then fl - (P.cap : Int) else fl) := by
  rw [tapIndices, wrapLow, wrapHigh, h]

theorem tapIndices_corrected (h : P.wrapMode = .corrected) (fl : Int) : tapIndices P fl =
    (if fl - 1 < 0 then fl - 1 + (P.cap : Int) else fl - 1, if (P.cap : Int) ≤ fl then fl - (P.cap : Int) else fl) := by
  rw [tapIndices, wrapLow, wrapHigh, h]

end

/-- Settles O57: in each row the two tests of the mode are decided. -/
theorem tapIndexTable : Obligations.TapIndexTable := by
  intro P fl hcap C
  have hC : 2 ≤ C := Int.ofNat_le.mpr hcap
  refine ⟨fun hmode => ?_, fun hmode => ?_⟩
  · rw [tapIndices_asSource hmode]
    refine ⟨fun _ => ?_, fun _ => ?_, fun _ => ?_, fun _ => ?_, fun _ => ?_⟩
    · rw [if_pos (by omega), if_neg (by omega)]
    · rw [if_pos (by omega), if_neg (by omega), Prod.mk.injEq]; omega
    · rw [if_pos (by omega), if_neg (by omega), Prod.mk.injEq]; omega
    · rw [if_neg (by omega), if_neg (by omega)]
    · rw [if_neg (by omega), if_pos (by omega)]
  · rw [tapIndices_corrected hmode]
    refine ⟨fun _ => ?_, fun _ => ?_, fun _ => ?_, fun _ => ?_, fun _ => ?_⟩
    · rw [if_pos (by omega), if_neg (by omega)]
    · rw [if_pos (by omega), if_neg (by omega), Prod.mk.injEq]; omega
    · rw [if_neg (by omega), if_neg (by omega)]
    · rw [if_neg (by omega), if_pos (by omega), Prod.mk.injEq]; omega
    · rw [if_neg (by omega), if_pos (by omega)]

/-! ## INTERP -/

/-- INTERP of a delay that is no finite value is a draw, and sets OOR (R197). -/
theorem interp_not_finite (P : Params) (δ : Draws) (k : Nat) (ring : Mem 64) (w : Nat) {d : F64}
    (h : f64IsFinite d = false) : interp P δ k ring w d = ⟨δ k, true⟩ := if_neg (by rw [h]; decide)

/-- Settles O58: a finite delay is two fetches, at the indices the mode gives. -/
theorem interpRule : Obligations.InterpRule := by
  intro P δ k ring w d
  refine ⟨interp_not_finite P δ k ring w, fun hd => ⟨fun hmode => ?_, fun hmode => ?_⟩⟩
  · rw [interp_finite P δ k ring w hd, fetchTap, tapIndices_asSource hmode]; rfl
  · rw [interp_finite P δ k ring w hd, fetchTap, tapIndices_corrected hmode]; rfl

/-- The two fetches set OOR when an index is out of [0, CAP) (R195). -/
theorem fetchTap_oor (P : Params) (δ : Draws) (k : Nat) (ring : Mem 64) (fl : Int) (t : F64) :
    (fetchTap P δ k ring fl t).oor = true ↔
      ¬ (0 ≤ (tapIndices P fl).1 ∧ (tapIndices P fl).1 < (P.cap : Int)) ∨
      ¬ (0 ≤ (tapIndices P fl).2 ∧ (tapIndices P fl).2 < (P.cap : Int)) := by
  rw [← rdRing_oor P (δ k) ring, ← rdRing_oor P (δ (k + 1)) ring]
  exact Bool.or_eq_true_iff

end Sys2Proof.Machine

/-! SUPPORT. A delay in [0, CAP] leaves the read position, and so its floor, in [0, CAP] (43_interpolated_read.md R191,
R198). -/

namespace Sys2Proof.Machine

/-- toInt of a floor is the quotient by one, rounded down (R192). -/
theorem f64ToInt_f64Floor (nan : F64) {a : F64} (ha : f64IsFinite a = true) :
    f64ToInt (f64Floor nan a) = f64Units a / (oneUnits binary64 : Int) := by
  obtain ⟨hfin, hunits⟩ := f64Floor_units nan ha
  exact intOfPattern_integral binary64_ok hfin hunits

theorem f64Lt_zero_iff {a : F64} (ha : f64IsFinite a = true) : f64Lt a f64Zero = true ↔ f64Units a < 0 := by
  rw [f64Lt_iff, f64Units_zero]
  exact ⟨fun ⟨_, _, h⟩ => h, fun h => ⟨f64IsNaN_false_of_finite ha, by decide, h⟩⟩

section

variable {P : Params} {w : Nat} {d : F64}

/-- The position before CAP is added is at most CAP away from 0. -/
theorem f64Sub_writeIndex_range (nan : F64) (hcap : P.cap ≤ 2 ^ 31 - 1) (hw : w < P.cap) (hd : f64IsFinite d = true)
    (h0 : 0 ≤ f64Units d) (hle : f64Units d ≤ P.cap * oneUnits binary64) :
    f64IsFinite (f64Sub nan (f64OfNat w) d) = true ∧
      -(P.cap * oneUnits binary64 : Int) ≤ f64Units (f64Sub nan (f64OfNat w) d) ∧
      f64Units (f64Sub nan (f64OfNat w) d) ≤ P.cap * oneUnits binary64 := by
  have hone := oneUnits_pos_int binary64
  obtain ⟨hwfin, hwu⟩ := f64OfNat_exact (n := w) (by omega)
  have hw0 : 0 ≤ (w * oneUnits binary64 : Int) := Int.mul_nonneg (Int.natCast_nonneg w) hone.le
  have hwcap : (w * oneUnits binary64 : Int) ≤ P.cap * oneUnits binary64 :=
    Int.mul_le_mul_of_nonneg_right (by omega) hone.le
  rcases Int.lt_or_le (f64Units (f64OfNat w) - f64Units d) 0 with hneg | hpos
  · obtain ⟨hfin, hhi, hlo⟩ := f64Sub_between_neg nan (n := P.cap) (by omega) hwfin hd hneg (by rw [hwu]; omega)
    exact ⟨hfin, hlo, by omega⟩
  · obtain ⟨hfin, hlo, hhi⟩ := f64Sub_between nan (n := P.cap) (by omega) hwfin hd hpos (by rw [hwu]; omega)
    exact ⟨hfin, by omega, hhi⟩

/-- The read position of a delay in [0, CAP] is in [0, CAP]; CAP itself is there by the rounding of R191. -/
theorem readPosition_range (δ : Draws) (k : Nat) (hcap : P.cap ≤ 2 ^ 31 - 1) (hw : w < P.cap)
    (hd : f64IsFinite d = true) (h0 : 0 ≤ f64Units d) (hle : f64Units d ≤ P.cap * oneUnits binary64) :
    f64IsFinite (readPosition P δ k w d) = true ∧ 0 ≤ f64Units (readPosition P δ k w d) ∧
      f64Units (readPosition P δ k w d) ≤ P.cap * oneUnits binary64 := by
  obtain ⟨hfin, hlo, hhi⟩ := f64Sub_writeIndex_range (nan64 δ k) hcap hw hd h0 hle
  obtain ⟨hcfin, hcu⟩ := f64OfNat_exact (n := P.cap) (by omega)
  simp only [readPosition, f64Lt_zero_iff hfin]
  split
  next hneg => exact f64Add_between _ (by omega) hfin hcfin (by rw [hcu]; omega) (by rw [hcu]; omega)
  next hpos => exact ⟨hfin, Int.not_lt.mp hpos, hhi⟩

/-- The integer floor position of a delay in [0, CAP] is in [0, CAP] (R198). -/
theorem floorPosition_range (δ : Draws) (k : Nat) (nan : F64) (hcap : P.cap ≤ 2 ^ 31 - 1) (hw : w < P.cap)
    (hd : f64IsFinite d = true) (h0 : f64Le f64Zero d = true) (hle : f64Le d (f64OfNat P.cap) = true) :
    0 ≤ f64ToInt (f64Floor nan (readPosition P δ k w d)) ∧
      f64ToInt (f64Floor nan (readPosition P δ k w d)) ≤ (P.cap : Int) := by
  have hone := oneUnits_pos_int binary64
  obtain ⟨-, -, h0u⟩ := f64Le_iff.mp h0
  obtain ⟨-, -, hleu⟩ := f64Le_iff.mp hle
  obtain ⟨-, hcu⟩ := f64OfNat_exact (n := P.cap) (by omega)
  rw [f64Units_zero] at h0u
  rw [hcu] at hleu
  obtain ⟨hfin, hlo, hhi⟩ := readPosition_range δ k hcap hw hd h0u hleu
  rw [f64ToInt_f64Floor nan hfin]
  exact ⟨Int.ediv_nonneg hlo hone.le, Int.ediv_le_of_le_mul hone hhi⟩

end

/-- Of the floor positions 0 to CAP the corrected wrap brings every index into [0, CAP). -/
theorem tapIndices_corrected_inRange {P : Params} (h : P.wrapMode = .corrected) {fl : Int} (hcap : 0 < P.cap)
    (h0 : 0 ≤ fl) (hle : fl ≤ (P.cap : Int)) :
    (0 ≤ (tapIndices P fl).1 ∧ (tapIndices P fl).1 < (P.cap : Int)) ∧
      (0 ≤ (tapIndices P fl).2 ∧ (tapIndices P fl).2 < (P.cap : Int)) := by
  rw [tapIndices_corrected h]
  constructor <;> dsimp only <;> split <;> omega

/-- Of the floor positions 0 to CAP the wrap of the source takes y0 out of [0, CAP) at 1, and leaves y1 out of it at
CAP. -/
theorem tapIndices_asSource_outOfRange {P : Params} (h : P.wrapMode = .asSource) {fl : Int} (hcap : 0 < P.cap)
    (h0 : 0 ≤ fl) (hle : fl ≤ (P.cap : Int)) :
    (¬ (0 ≤ (tapIndices P fl).1 ∧ (tapIndices P fl).1 < (P.cap : Int)) ↔ fl = 1) ∧
      (¬ (0 ≤ (tapIndices P fl).2 ∧ (tapIndices P fl).2 < (P.cap : Int)) ↔ fl = (P.cap : Int)) := by
  rw [tapIndices_asSource h]
  constructor <;> dsimp only <;> split <;> omega

/-- Settles O59: the floor position is in [0, CAP], where the wraps leave no index out of range but those two. -/
theorem delayStaysInRing : Obligations.DelayStaysInRing := by
  intro P δ k ring w d hcap hw hd h0 hle fl
  have hfl : 0 ≤ fl ∧ fl ≤ (P.cap : Int) := floorPosition_range δ (k + 1) (nan64 δ (k + 3)) hcap hw hd h0 hle
  obtain ⟨hlo, hhi⟩ := hfl
  rw [interp_finite P δ k ring w hd]
  refine ⟨⟨hlo, hhi⟩, fun hmode => ?_, fun hmode => ?_⟩
  · obtain ⟨hy0, hy1⟩ := tapIndices_corrected_inRange hmode (by omega) hlo hhi
    rw [← Bool.not_eq_true, fetchTap_oor, not_or, not_not, not_not]
    exact ⟨hy0, hy1⟩
  · obtain ⟨hy0, hy1⟩ := tapIndices_asSource_outOfRange hmode (by omega) hlo hhi
    rw [fetchTap_oor]
    exact or_congr hy0 hy1

end Sys2Proof.Machine

/-! SUPPORT. An integer delay: every step from the delay to the tap is exact (43_interpolated_read.md R200). -/

namespace Sys2Proof.Machine

/-! ## integers in binary64 -/

/-- Below 2^53 in magnitude every integer is a representable magnitude. -/
theorem exists_int_mag {z : Int} (h : z.natAbs < 2 ^ 53) :
    ∃ v, v < infMag binary64 ∧ magUnits binary64 v = (z * oneUnits binary64).natAbs := by
  obtain ⟨v, hv, e⟩ := exists_nat_mag h
  exact ⟨v, hv, by rw [e, Int.natAbs_mul, Int.natAbs_natCast]⟩

section

variable {a b : F64} {m n : Int}

theorem f64Add_integral (nan : F64) (ha : f64IsFinite a = true) (hb : f64IsFinite b = true)
    (hm : f64Units a = m * oneUnits binary64) (hn : f64Units b = n * oneUnits binary64)
    (h : (m + n).natAbs < 2 ^ 53) :
    f64IsFinite (f64Add nan a b) = true ∧ f64Units (f64Add nan a b) = (m + n) * oneUnits binary64 := by
  have hsum : f64Units a + f64Units b = (m + n) * oneUnits binary64 := by rw [hm, hn, Int.add_mul]
  obtain ⟨v, hv, e⟩ := exists_int_mag h
  rw [← hsum]
  exact f64Add_exact nan ha hb hv (hsum ▸ e)

theorem f64Sub_integral (nan : F64) (ha : f64IsFinite a = true) (hb : f64IsFinite b = true)
    (hm : f64Units a = m * oneUnits binary64) (hn : f64Units b = n * oneUnits binary64)
    (h : (m - n).natAbs < 2 ^ 53) :
    f64IsFinite (f64Sub nan a b) = true ∧ f64Units (f64Sub nan a b) = (m - n) * oneUnits binary64 := by
  have hdiff : f64Units a - f64Units b = (m - n) * oneUnits binary64 := by rw [hm, hn, Int.sub_mul]
  obtain ⟨v, hv, e⟩ := exists_int_mag h
  rw [← hdiff]
  exact f64Sub_exact nan ha hb hv (hdiff ▸ e)

/-- floor keeps an integral value as it is, the sign of a zero included (R126). -/
theorem f64Floor_integral (nan : F64) (ha : f64IsFinite a = true) (hm : f64Units a = m * oneUnits binary64) :
    f64Floor nan a = a := by
  obtain ⟨mag, e, -, hunits⟩ := floorPattern_finite binary64_ok nan.toNat (pattern64_lt a) ha
  have hsame : signed (negOf binary64 a.toNat) (magUnits binary64 mag) = unitsOf binary64 a.toNat := by
    rw [hunits, show unitsOf binary64 a.toNat = _ from hm, Int.mul_ediv_cancel _ (oneUnits_pos_int binary64).ne']
  have hmag : mag = magOf binary64 a.toNat := by
    apply magUnits_injective binary64
    rw [← natAbs_unitsOf, ← hsame, signed_natAbs]
  apply BitVec.eq_of_toNat_eq
  rw [toNat_f64Floor, e, hmag, assemble_of binary64 (pattern64_lt a)]

end

/-! ## LERP with weight +0.0 from a value that is not finite -/

/-- An infinity times one is the infinity. -/
theorem f64Mul_infinite_one (nan : F64) {a u : F64} (ha : IsInfWord binary64 a.msb a) (hu : f64IsFinite u = true)
    (h1 : f64Units u = oneUnits binary64) : f64Mul nan a u = a := by
  have hone := oneUnits_pos_int binary64
  have hpos : 0 < unitsOf binary64 u.toNat := lt_of_lt_of_eq hone h1.symm
  have hsign : u.msb = false := (negOf_toNat64 u).symm.trans (negOf_eq_false_of_pos hpos).1
  have hr : IsInfWord binary64 (a.msb ^^ u.msb) a := by rwa [hsign, Bool.xor_false]
  exact (mulWord_inf_nonzero binary64_words nan ha hu hpos.ne' hr (Bool.xor_comm _ _ ▸ hr)).1

theorem isInfWord_of_not_finite {a : F64} (hnan : f64IsNaN a = false) (hfin : f64IsFinite a = false) :
    IsInfWord binary64 a.msb a := by
  rw [IsInfWord, ← magOf_eq_infMag hnan hfin, ← negOf_toNat64, assemble_of binary64 (pattern64_lt a)]

section

variable (δ : Draws) (k : Nat) {a b : F64}

theorem lerp_zero_infinite (hnan : f64IsNaN a = false) (hfin : f64IsFinite a = false) (hb : f64IsFinite b = true) :
    lerp δ k a b f64Zero = a := by
  have hinf := isInfWord_of_not_finite hnan hfin
  obtain ⟨hu, huu⟩ := f64Sub_zero (nan64 δ k) f64IsFinite_one f64IsFinite_zero f64Units_zero
  obtain ⟨hq, -⟩ := f64Mul_zero (nan64 δ (k + 2)) hb f64IsFinite_zero (.inr f64Units_zero)
  rw [lerp, f64Mul_infinite_one _ hinf hu (huu.trans f64Units_one)]
  exact addWord_inf_finite binary64_words _ hinf hq

theorem lerp_nan (t : F64) (ha : f64IsNaN a = true) : f64IsNaN (lerp δ k a b t) = true := by
  have hp := f64IsNaN_nan64 δ (k + 1)
  rw [lerp, f64Mul_nan _ a _ (.inl ha), f64Add_nan _ _ _ (.inl hp)]
  exact f64IsNaN_nan64 δ (k + 3)

end

/-! ## the cells an integer delay reads -/

section

variable {P : Params} {w D : Nat}

/-- The cell written j samples ago: below writeIndex, or CAP above that. -/
theorem cellBack_eq (hw : w < P.cap) {j : Nat} (hj : j ≤ P.cap) :
    (w + P.cap - j) % P.cap = if w < j then w + P.cap - j else w - j := by
  split
  next h => exact Nat.mod_eq_of_lt (by omega)
  next h => rw [show w + P.cap - j = w - j + P.cap by omega, Nat.add_mod_right, Nat.mod_eq_of_lt (by omega)]

/-- The read position of an integer delay is the cell written D samples ago (R191, R199). -/
theorem readPosition_natural (δ : Draws) (k : Nat) (hcap : P.cap ≤ 2 ^ 31 - 1) (hw : w < P.cap) (hD : D ≤ P.cap) :
    f64IsFinite (readPosition P δ k w (f64OfNat D)) = true ∧
      f64Units (readPosition P δ k w (f64OfNat D)) =
        (((w + P.cap - D) % P.cap : Nat) : Int) * oneUnits binary64 := by
  have hone := oneUnits_pos_int binary64
  obtain ⟨hwfin, hwu⟩ := f64OfNat_exact (n := w) (by omega)
  obtain ⟨hDfin, hDu⟩ := f64OfNat_exact (n := D) (by omega)
  obtain ⟨hcfin, hcu⟩ := f64OfNat_exact (n := P.cap) (by omega)
  obtain ⟨hfin, hu⟩ := f64Sub_integral (nan64 δ k) hwfin hDfin hwu hDu (by omega)
  have hlt : f64Units (f64Sub (nan64 δ k) (f64OfNat w) (f64OfNat D)) < 0 ↔ w < D := by
    rw [hu, Int.mul_neg_iff]; omega
  simp only [readPosition, f64Lt_zero_iff hfin, hlt, cellBack_eq hw hD]
  split
  next h =>
    rw [show ((w + P.cap - D : Nat) : Int) = w - D + P.cap by omega]
    exact f64Add_integral _ hfin hcfin hu hcu (by omega)
  next h => exact ⟨hfin, by rw [hu, Int.ofNat_sub (Nat.not_lt.mp h)]⟩

/-- At the cell written D samples ago the tap is between the cell written D + 1 samples ago and that one, in either
mode, but in the mode of the source at cell 1 (R198, R201). -/
theorem tapIndices_cellBack (hw : w < P.cap) (hD : D + 1 ≤ P.cap)
    (hmode : P.wrapMode = .corrected ∨ (w + P.cap - D) % P.cap ≠ 1) :
    tapIndices P (((w + P.cap - D) % P.cap : Nat) : Int) =
      ((((w + P.cap - (D + 1)) % P.cap : Nat) : Int), (((w + P.cap - D) % P.cap : Nat) : Int)) := by
  have hlt : (w + P.cap - D) % P.cap < P.cap := Nat.mod_lt _ (by omega)
  have hprev : (w + P.cap - (D + 1)) % P.cap =
      if (w + P.cap - D) % P.cap = 0 then P.cap - 1 else (w + P.cap - D) % P.cap - 1 := by
    rw [cellBack_eq hw hD, cellBack_eq hw (by omega : D ≤ P.cap)]
    split_ifs <;> omega
  generalize (w + P.cap - D) % P.cap = y at *
  rw [hprev]
  cases h : P.wrapMode with
  | asSource =>
    have hy : y ≠ 1 := hmode.resolve_left (by rw [h]; decide)
    rw [tapIndices_asSource h, if_neg (by omega : ¬ (P.cap : Int) < y), Prod.mk.injEq]
    split_ifs <;> omega
  | corrected =>
    rw [tapIndices_corrected h, if_neg (by omega : ¬ (P.cap : Int) ≤ y), Prod.mk.injEq]
    split_ifs <;> omega

/-- INTERP of an integer delay is LERP with weight +0.0 of the cells written D + 1 and D samples ago (R200). -/
theorem interp_natural (δ : Draws) (k : Nat) (ring : Mem 64) (hcap : P.cap ≤ 2 ^ 31 - 1) (hw : w < P.cap)
    (hD : D + 1 ≤ P.cap) (hmode : P.wrapMode = .corrected ∨ (w + P.cap - D) % P.cap ≠ 1) :
    interp P δ k ring w (f64OfNat D) =
      ⟨lerp δ (k + 7) (ringRead ring ((w + P.cap - (D + 1)) % P.cap)) (ringRead ring ((w + P.cap - D) % P.cap)) f64Zero,
        false⟩ := by
  have hpos : 0 < P.cap := by omega
  obtain ⟨hDfin, -⟩ := f64OfNat_exact (n := D) (by omega)
  obtain ⟨hfin, hunits⟩ := readPosition_natural δ (k + 1) hcap hw (by omega : D ≤ P.cap)
  have hfloor : f64ToInt (readPosition P δ (k + 1) w (f64OfNat D)) = (((w + P.cap - D) % P.cap : Nat) : Int) :=
    intOfPattern_integral binary64_ok hfin hunits
  rw [interp_finite P δ k ring w hDfin, f64Floor_integral _ hfin hunits, f64Sub_self _ hfin, hfloor, fetchTap,
    tapIndices_cellBack hw hD hmode, rdRing_inside _ ring (Nat.mod_lt _ hpos), rdRing_inside _ ring (Nat.mod_lt _ hpos)]
  rfl

end

/-- Settles O60: the tap is LERP with weight +0.0, whose first operand is finite, an infinity or a NaN. -/
theorem integerDelayExact : Obligations.IntegerDelayExact := by
  intro P δ k ring w D hcap hw _ hD hmode hb a r
  have hr : r = ⟨lerp δ (k + 7) a _ f64Zero, false⟩ := interp_natural δ k ring hcap hw (by omega) hmode
  rw [hr]
  exact ⟨rfl, fun ha => lerp_zero_finite δ (k + 7) ha hb, fun hfin hnan => lerp_zero_infinite δ (k + 7) hnan hfin hb,
    lerp_nan δ (k + 7) f64Zero⟩

end Sys2Proof.Machine

/-! SUPPORT. LFO.SETSR, LFO.RESET and LFO.GETBUF, issued to an idle core (44_lfo.md R210, R211, R216). -/

namespace Sys2Proof.Machine

theorem setLfoRate_ignoresStatus : IgnoresStatus setLfoRate := ⟨fun _ _ => rfl, setLfoRate_status, setLfoRate_rst⟩

/-- Settles O26: the operands are latched first, so SR_L is SR. -/
theorem lfoSetsrResult : Obligations.LfoSetsrResult := fun s hi => by
  have heq : lfoSetsrWith Config.params s = setLfoRate (latch (encode .lfoSetsr) s) :=
    setLfoRate_ignoresStatus.issueSimple_eq _ _ hi
  rw [exec_eq, heq]
  rfl

/-- Settles O27: the state left is `clearLfo` of the latched state; an LFOBUF that lists nothing reads +0.0. -/
theorem lfoResetResult : Obligations.LfoResetResult := fun s hi => by
  have heq : lfoResetWith Config.params s = clearLfo (latch (encode .lfoReset) s) :=
    clearLfo_ignoresStatus.issueSimple_eq _ _ hi
  exact ⟨_, (exec_eq .lfoReset s).trans (congrArg _ heq), rfl, lfoRead_nil, rfl, rfl, rfl⟩

/-- Settles O28: RESULT is the handle L:0. -/
theorem lfoGetbufResult : Obligations.LfoGetbufResult :=
  ⟨fun s hi => (exec_eq .lfoGetbuf s).trans (congrArg _ (lfoGetbufWith_idle _ hi)), lfoHandle_space 0,
    lfoHandle_base 0⟩

end Sys2Proof.Machine

/-! SUPPORT. LFO.PROC: its issue checks in their order, and what it does past them, sample by sample (44_lfo.md R212 to
R215, R217). -/

namespace Sys2Proof.Machine

theorem exec_lfoProc (s : State) : exec .lfoProc s = .next (lfoProcWith Config.params s) := exec_eq .lfoProc s

/-! ## the issue checks -/

/-- An LFO.PROC that fails a check changes STATUS alone (60_exceptions.md R240). -/
theorem exec_lfoProc_refused {s : State} (hi : Idle s) {r : Refused}
    (hr : checkLfoProc Config.params (latch (encode .lfoProc) s) = some r) :
    exec .lfoProc s = .next { s with
      status := { busy := false, fault := true, oor := s.status.oor, cause := r.cause, info := r.info } } := by
  rw [exec_lfoProc, lfoProcWith, issue_refused _ _ _ _ _ _ _ hi hr]
  rfl

/-- Settles O21: the two checks are taken off in the order of R213; past the second one the core is ready. -/
theorem lfoProcIssueChecks : Obligations.LfoProcIssueChecks := by
  intro s hi
  have hcheck := checkLfoProc_latch Config.params (encode .lfoProc) s
  refine ⟨fun h => exec_lfoProc_refused hi (hcheck.trans (if_pos ((isConfigured_eq_false _).mpr h))),
    fun hrate hcount => ?_, fun hrate hcount => ?_⟩
  · rw [if_neg fun h => (isConfigured_eq_false _).mp h hrate, if_pos hcount] at hcheck
    exact exec_lfoProc_refused hi hcheck
  · obtain ⟨t, ht, -, hfault⟩ := commandsComplete .lfoProc s hi
    exact ⟨t, ht, hfault ⟨hi, hrate, hcount⟩⟩

/-! ## the block -/

/-- An accepted LFO.PROC with n of its sample steps made (44_lfo.md R212). -/
def afterLfoSamples (P : Params) (s : State) (n : Nat) : State := repeatStep (lfoSample P) n (started P .lfoProc s)

theorem afterLfoSamples_frame (P : Params) (s : State) (n : Nat) :
    LfoBlockFrame n (started P .lfoProc s) (afterLfoSamples P s n) := lfoBlock_frame P n _

/-- Past its issue checks LFO.PROC is N sample steps, then LFO_VALID <- N. -/
theorem lfoProcWith_ready {P : Params} {s : State} (h : LfoProcReady P s) :
    lfoProcWith P s = setBusy false (endLfoBlock (afterLfoSamples P s s.regs.count.toNat)) := by
  rcases lfoProc_cases P h.idle with ⟨hn, -⟩ | ⟨-, heq⟩
  · exact absurd h hn
  · exact heq

/-- The phase after sample n, from the one before it (44_lfo.md R215). -/
theorem afterLfoSamples_phase_succ (P : Params) (s : State) (n : Nat) :
    (afterLfoSamples P s (n + 1)).lfo.phase =
      phaseWrap (P.draw (s.drawCount + n)) 10 (f32Add (nan32 (P.draw (s.drawCount + n)) 9)
        (afterLfoSamples P s n).lfo.phase (phaseIncrement (P.draw (s.drawCount + n)) (started P .lfoProc s))) := by
  have hf := afterLfoSamples_frame P s n
  rw [afterLfoSamples, repeatStep_succ', ← afterLfoSamples, lfoSample_lfo_phase, hf.drawCount, nextPhase,
    phaseIncrement, hf.ops, hf.sampleRate]
  rfl

/-- LFOBUF after the block: element k below N is what sample k computed (44_lfo.md R214). -/
theorem afterLfoSamples_buf (P : Params) {s : State} (hw : memWf (some f32Zero) s.lfo.buf = true) (k : Nat) :
    lfoRead (afterLfoSamples P s s.regs.count.toNat).lfo.buf k =
      if k < s.regs.count.toNat then
        f32Mul (nan32 (P.draw (s.drawCount + k)) 8) s.regs.lfoDepth (waveOp P (P.draw (s.drawCount + k)) 4
          (f32Add (nan32 (P.draw (s.drawCount + k)) 3) (afterLfoSamples P s k).lfo.phase s.regs.lfoPhoff))
      else lfoRead s.lfo.buf k := by
  have hops : (afterLfoSamples P s k).seq.ops = s.regs :=
    (afterLfoSamples_frame P s k).ops.trans (started_ops P .lfoProc s)
  rw [afterLfoSamples, lfoBlock_buf P _ (b := started P .lfoProc s) s.regs.count.isLt rfl hw,
    ← afterLfoSamples, lfoElement, hops]
  rfl

theorem lfoProcWith_rule {P : Params} {s : State} (h : LfoProcReady P s)
    (hw : memWf (some f32Zero) s.lfo.buf = true) : LfoProcRule P s (lfoProcWith P s) := by
  have hframe := lfoProcWith_frame h
  have hf := afterLfoSamples_frame P s s.regs.count.toNat
  rw [lfoProcWith_ready h] at hframe ⊢
  exact ⟨fun n => P.draw (s.drawCount + n), fun n => (afterLfoSamples P s n).lfo.phase, rfl,
    fun n _ => afterLfoSamples_phase_succ P s n, afterLfoSamples_buf P hw, rfl, hframe.valid, hframe.sampleRate,
    hframe.dly, hframe.status, hframe.regs, hf.result, hframe.xmem, hframe.host, hf.hostData⟩

/-- Settles O32: the phases between the samples are those of `afterLfoSamples`. -/
theorem lfoProcRuns : Obligations.LfoProcRuns := fun s h hw => ⟨_, exec_lfoProc s, lfoProcWith_rule h hw⟩

/-! ## the empty block -/

theorem endLfoBlock_ignoresStatus : IgnoresStatus endLfoBlock :=
  ⟨fun _ _ => rfl, endLfoBlock_status, endLfoBlock_rst⟩

/-- Settles O33: with no sample step only the write of LFO_VALID is left, which does not look at BUSY. -/
theorem lfoProcEmptyBlock : Obligations.LfoProcEmptyBlock := by
  intro s h hcount
  have hblock : afterLfoSamples Config.params s s.regs.count.toNat = setBusy true (latch (encode .lfoProc) s) := by
    rw [hcount]
    rfl
  have hvalid : endLfoBlock (latch (encode .lfoProc) s) =
      { latch (encode .lfoProc) s with lfo := { s.lfo with valid := s.regs.count.toNat } } := rfl
  obtain ⟨-, hbusy, -⟩ := endLfoBlock_ignoresStatus.idle (encode .lfoProc) h.idle
  rw [exec_lfoProc, lfoProcWith_ready h, hblock, endLfoBlock_ignoresStatus.setBusy, setBusy_restored hbusy, hvalid,
    hcount]
  rfl

end Sys2Proof.Machine

/-! SUPPORT. The numbers of LFO.PROC: what a depth of zero writes, and a finite phase increment, which keeps the phase
in its cycle (44_lfo.md R214, R215, R217, 40_numerics.md R136, R137). -/

namespace Sys2Proof.Machine

/-! ## finite results -/

/-- A number of magnitude at most 1 is finite. -/
theorem isFinitePattern_of_units_le_one {f : Fmt} (hf : f.Ok) {x : Nat} (hnan : isNaNPattern f x = false)
    (hle : (unitsOf f x).natAbs ≤ oneUnits f) : isFinitePattern f x = true := by
  by_contra hfin
  rw [natAbs_unitsOf, magOf_eq_infMag hnan (Bool.eq_false_iff.mpr hfin)] at hle
  exact absurd (oneUnits_lt_infMag hf) (Nat.not_lt.mpr hle)

theorem f32IsFinite_of_unitBounded32 {r : F32} (h : unitBounded32 r = true) : f32IsFinite r = true := by
  obtain ⟨hnan, hlow, hhigh⟩ := unitBounded32_iff.mp h
  have habs : (f32Units r).natAbs ≤ oneUnits binary32 := by omega
  exact isFinitePattern_of_units_le_one binary32_ok hnan habs

/-- Rounding takes a number at most 1 above the largest F32 to no infinity: the infinity's place is further off than
the largest number (40_numerics.md R124). -/
theorem RoundedTo.lt_infMag_binary32 {n mag : Nat} (h : RoundedTo binary32 n 1 mag)
    (hn : n ≤ magUnits binary32 (infMag binary32 - 1) + oneUnits binary32) : mag < infMag binary32 := by
  obtain ⟨hle, hnearest⟩ := h
  refine lt_of_le_of_ne hle fun heq => ?_
  have hgap : magUnits binary32 (infMag binary32 - 1) + 2 * oneUnits binary32 <
      magUnits binary32 (infMag binary32) := by decide +kernel
  obtain ⟨hdist, -⟩ := hnearest (infMag binary32 - 1) (Nat.sub_le _ _)
  have hone : 0 < oneUnits binary32 := oneUnits_pos binary32
  rw [heq, Nat.mul_one, Nat.mul_one, natDist, natDist] at hdist
  omega

/-- Adding a number of magnitude at most 1 to a finite one does not overflow. -/
theorem f32Add_unitBounded_finite (nan : F32) {a b : F32} (ha : unitBounded32 a = true) (hb : f32IsFinite b = true) :
    f32IsFinite (f32Add nan a b) = true := by
  obtain ⟨hround, -⟩ := addWord_rounded binary32_words nan (f32IsFinite_of_unitBounded32 ha) hb
  obtain ⟨-, hlow, hhigh⟩ := unitBounded32_iff.mp ha
  have hmag : magOf binary32 b.toNat ≤ infMag binary32 - 1 := Nat.le_pred_of_lt (isFinitePattern_iff.mp hb)
  have hbu : (f32Units b).natAbs ≤ magUnits binary32 (infMag binary32 - 1) :=
    (natAbs_unitsOf _ _).trans_le ((magUnits_strictMono binary32).monotone hmag)
  refine isFinitePattern_iff.mpr (hround.lt_infMag_binary32 ?_)
  change (f32Units a + f32Units b).natAbs ≤ _
  omega

/-! ## depth zero -/

theorem f32Mul_zero_finite (nan : F32) {a b : F32} (ha : IsZero32 a) (hb : f32IsFinite b = true) :
    IsZero32 (f32Mul nan a b) := by
  obtain ⟨hfin, hunits⟩ := ha
  rw [IsZero32, f32IsFinite, f32Units, toNat_f32Mul]
  exact mulPattern_zero binary32_ok _ hfin hb (.inl hunits)

/-- A zero times WAVE of any phase is a zero, or a NaN exactly where WAVE is one (R217). -/
theorem zero_mul_waveOp {P : Params} (hP : P.Valid) (δ : Draws) (j k : Nat) {a : F32} (ha : IsZero32 a) (p : F32) :
    (f32IsNaN (waveOp P δ k p) = false → IsZero32 (f32Mul (nan32 δ j) a (waveOp P δ k p))) ∧
    (f32IsNaN (waveOp P δ k p) = true → f32IsNaN (f32Mul (nan32 δ j) a (waveOp P δ k p)) = true) := by
  refine ⟨fun hnum => ?_, fun hnan => ?_⟩
  · have hrange : unitBounded32 (waveOp P δ k p) = true :=
      (waveOp_range hP δ k p).resolve_right fun ⟨hnan, _⟩ => by rw [hnum] at hnan; cases hnan
    exact f32Mul_zero_finite _ ha (f32IsFinite_of_unitBounded32 hrange)
  · rw [f32Mul_nan _ _ _ (.inr hnan)]
    exact f32IsNaN_nan32 δ j

/-- A phase of the cycle [0, 1) (10_state.md R30). -/
abbrev InCycle (p : F32) : Prop := f32Le f32Zero p = true ∧ f32Lt p f32One = true

theorem InCycle.unitBounded32 {p : F32} (h : InCycle p) : unitBounded32 p = true := by
  obtain ⟨hle, hlt⟩ := h
  obtain ⟨-, hnan, hlow⟩ := f32Le_iff.mp hle
  obtain ⟨-, -, hhigh⟩ := f32Lt_iff.mp hlt
  have hone := oneUnits_pos_int binary32
  rw [f32Units_zero] at hlow
  rw [f32Units_one] at hhigh
  exact unitBounded32_iff.mpr ⟨hnan, by omega, hhigh.le⟩

/-- Settles O34: each element is a zero times WAVE; the phase of the first one is finite, so WAVE is a number there. -/
theorem lfoDepthZero : Obligations.LfoDepthZero := by
  refine ⟨fun P δ s hP hd => zero_mul_waveOp hP δ 8 4 hd _, fun s h hw hd => ?_⟩
  obtain ⟨δ, p, hp0, -, hbuf, -⟩ := lfoProcWith_rule h hw
  have helement (k : Nat) := zero_mul_waveOp paramsMeetConstraints (δ k) 8 4 hd
    (f32Add (nan32 (δ k) 3) (p k) s.regs.lfoPhoff)
  refine ⟨_, exec_lfoProc s, fun k hk => ?_, fun hpos hle hlt hoff => ?_⟩
  · obtain ⟨hzero, hnan⟩ := helement k
    rw [hbuf, if_pos hk]
    exact (Bool.eq_false_or_eq_true _).symm.imp hzero hnan
  · obtain ⟨hzero, -⟩ := helement 0
    have hphase : InCycle (p 0) := by rw [hp0]; exact ⟨hle, hlt⟩
    have hsum := f32Add_unitBounded_finite (nan32 (δ 0) 3) hphase.unitBounded32 hoff
    obtain ⟨hnum, -⟩ := unitBounded32_iff.mp (waveOp_finite paramsMeetConstraints (δ 0) 4 hsum)
    rw [hbuf, if_pos hpos]
    exact hzero hnum

/-! ## the phase increment -/

/-- A quotient of finite numbers by one that is no zero does not look at the NaN it is given. -/
theorem divPattern_indep {f : Fmt} (n m : Nat) {x y : Nat} (hx : isFinitePattern f x = true)
    (hy : isFinitePattern f y = true) (hy0 : magOf f y ≠ 0) : divPattern f n x y = divPattern f m x y := by
  obtain ⟨_, _, hvx, -⟩ := valueOf_finite hx
  obtain ⟨sig, _, hvy, -, hsig, -⟩ := valueOf_finite hy
  have hsig0 : sig ≠ 0 := by
    rintro rfl
    rw [Nat.zero_mul, ← magUnits_zero f] at hsig
    exact hy0 (magUnits_injective f hsig).symm
  rw [divPattern, divPattern, hvx, hvy]
  exact (if_neg hsig0).trans (if_neg hsig0).symm

/-- With a configured rate and a finite LFO_RATE no operation of the increment draws a NaN, so the increment is the same
number whatever the draws (44_lfo.md R215). -/
theorem phaseIncrement_eq (δ : Draws) {s : State} (hrate : Configured s.lfo.sampleRate)
    (hfin : f32IsFinite s.seq.ops.lfoRate = true) :
    phaseIncrement δ s = f32OfF64 0 (f64Div 0 (f64OfF32 0 s.seq.ops.lfoRate) s.lfo.sampleRate) := by
  obtain ⟨hratefin, hpos⟩ := hrate
  obtain ⟨-, -, hunits⟩ := f64Lt_iff.mp hpos
  have h0 : f64Units s.lfo.sampleRate ≠ 0 := by rw [f64Units_zero] at hunits; exact hunits.ne'
  have hwiden : f64OfF32 (nan64 δ 0) s.seq.ops.lfoRate = f64OfF32 0 s.seq.ops.lfoRate :=
    congrArg _ (convertPattern_indep _ _ (f32IsNaN_false_of_finite hfin))
  obtain ⟨hwidenfin, -⟩ := f64OfF32_finite 0 hfin
  have hdiv : f64Div (nan64 δ 1) (f64OfF32 0 s.seq.ops.lfoRate) s.lfo.sampleRate =
      f64Div 0 (f64OfF32 0 s.seq.ops.lfoRate) s.lfo.sampleRate :=
    congrArg _ (divPattern_indep _ _ hwidenfin hratefin (mt (unitsOf_eq_zero_iff _ _).mpr h0))
  obtain ⟨hround, -⟩ := divWord_rounded binary64_words 0 hwidenfin hratefin h0
  rw [phaseIncrement, hwiden, hdiv]
  exact congrArg _ (convertPattern_indep _ _ (decide_eq_false (Nat.not_lt.mpr hround.1)))

/-- PHASEWRAP of a finite phase is in the cycle (40_numerics.md R137). -/
theorem phaseWrap_inCycle (δ : Draws) (k : Nat) {p : F32} (hp : f32IsFinite p = true) : InCycle (phaseWrap δ k p) := by
  obtain ⟨-, hrange, -⟩ := phaseWrapRange δ k p
  exact hrange hp

/-- A finite increment keeps the phase in its cycle, sample after sample. -/
theorem afterLfoSamples_inCycle (P : Params) {s : State}
    (hinc : ∀ δ, f32IsFinite (phaseIncrement δ (started P .lfoProc s)) = true) (hphase : InCycle s.lfo.phase) (n : Nat) :
    InCycle (afterLfoSamples P s n).lfo.phase := by
  induction n with
  | zero => exact hphase
  | succ n ih =>
    rw [afterLfoSamples_phase_succ]
    exact phaseWrap_inCycle _ _ (f32Add_unitBounded_finite _ ih.unitBounded32 (hinc _))

/-- Settles O35: the increment is the same number at every sample, and the phase starts in its cycle. -/
theorem lfoPhaseStaysInCycle : Obligations.LfoPhaseStaysInCycle := by
  intro s h hfin hinc hle hlt
  have hincrement (δ : Draws) : f32IsFinite (phaseIncrement δ (started Config.params .lfoProc s)) = true := by
    rw [phaseIncrement_eq δ (s := started Config.params .lfoProc s) h.rate hfin]
    exact hinc
  refine ⟨_, exec_lfoProc s, ?_⟩
  rw [lfoProcWith_ready h]
  exact afterLfoSamples_inCycle Config.params hincrement ⟨hle, hlt⟩ s.regs.count.toNat

end Sys2Proof.Machine

/-! SUPPORT. DLY.PROC whose input handles name XMEM reads nothing of the LFO (44_lfo.md R218, 20_memory.md R65). -/

namespace Sys2Proof.Machine

section

variable {P : Params} {s : State} (l : Lfo)

/-- The three input handles name XMEM (20_memory.md R65). -/
structure InputsInXmem (r : OperandRegs) : Prop where
  hIn : r.hIn.msb = false
  hMod : r.hMod.msb = false
  hEnv : r.hEnv.msb = false

theorem rdBuf_withLfo (drawn : F64) {h : Handle} (hx : h.msb = false) (k : Nat) :
    rdBuf drawn h k { s with lfo := l } = rdBuf drawn h k s := by
  have hspace : ¬ handleIsLfo h = true := Bool.eq_false_iff.mp hx
  rw [rdBuf, rdBuf, if_neg hspace, if_neg hspace]

theorem overruns_withLfo {h : Handle} (hx : h.msb = false) (n : Nat) :
    overruns P h n { s with lfo := l } = overruns P h n s := by
  have hspace : ¬ handleIsLfo h = true := Bool.eq_false_iff.mp hx
  rw [overruns, overruns, spaceLimit, spaceLimit, if_neg hspace, if_neg hspace]

/-- The checks before the one of H_OUT look at no LFO; past BAD_HANDLE neither does that one. -/
theorem checkDlyProc_withLfo (w : CmdWord) (hx : InputsInXmem s.regs) :
    checkDlyProc P (latch w { s with lfo := l }) = checkDlyProc P (latch w s) := by
  rw [checkDlyProc_latch, checkDlyProc_latch, overruns_withLfo l hx.hIn, overruns_withLfo l hx.hMod,
    overruns_withLfo l hx.hEnv]
  cases hout : s.regs.hOut.msb
  · rw [overruns_withLfo l hout]
  · rfl

/-- A sample reads its three elements from XMEM, and nothing else of it looks at the LFO. -/
theorem dlySample_withLfo (hx : InputsInXmem s.seq.ops) :
    dlySample P { s with lfo := l } = { dlySample P s with lfo := l } := by
  simp only [dlySample, rdBuf_withLfo l _ hx.hIn, rdBuf_withLfo l _ hx.hMod, rdBuf_withLfo l _ hx.hEnv]
  rfl

theorem dlyBlock_withLfo (n : Nat) (hx : InputsInXmem s.seq.ops) :
    repeatStep (dlySample P) n { s with lfo := l } = { repeatStep (dlySample P) n s with lfo := l } := by
  induction n generalizing s with
  | zero => rfl
  | succ n ih =>
    rw [repeatStep_succ, repeatStep_succ, dlySample_withLfo l hx]
    exact ih (s := dlySample P s) hx

/-- Refused, DLY.PROC writes STATUS alone; accepted, it is the block, which carries the LFO along. -/
theorem dlyProcWith_withLfo (hi : Idle s) (hx : InputsInXmem s.regs) :
    dlyProcWith P { s with lfo := l } = { dlyProcWith P s with lfo := l } := by
  have hcheck := checkDlyProc_withLfo (P := P) l (encode .dlyProc) hx
  cases h : checkDlyProc P (latch (encode .dlyProc) s) with
  | some r =>
    rw [dlyProcWith, dlyProcWith, issue_refused _ _ _ _ _ _ _ hi h,
      issue_refused _ _ _ _ _ _ _ (s := { s with lfo := l }) hi (hcheck.trans h)]
    rfl
  | none =>
    have hready := (checkDlyProc_eq_none _ hi).mp h
    have hready' := (checkDlyProc_eq_none (s := { s with lfo := l }) _ hi).mp (hcheck.trans h)
    rw [dlyProcWith_ready hready, dlyProcWith_ready hready']
    exact congrArg _ (dlyBlock_withLfo (s := started P .dlyProc s) l s.regs.count.toNat hx)

end

/-- Settles O44: the command carries any LFO along. -/
theorem delayIgnoresLfo : Obligations.DelayIgnoresLfo := by
  intro s t l hi hin hmod henv ht
  rw [exec_dlyProc] at ht ⊢
  cases ht
  exact congrArg _ (dlyProcWith_withLfo l hi ⟨hin, hmod, henv⟩)

end Sys2Proof.Machine

/-! SUPPORT. What a command or a bus write does to a core that does not accept it: a faulted one ignores it, a busy one
takes a BUSY_VIOLATION, of which every content is the outcome of some draws, and a failed issue check is a fault and
nothing else; none of them stops the machine (60_exceptions.md R230, R233, R239 to R241). -/

namespace Sys2Proof.Machine

/-! ## a bus write the gate decides -/

section

variable {P : Params} {run : Runner} {s t : State} {rest : List HostMove}

/-- A CMD write that leaves its command running comes to what the gate makes of any write. -/
theorem startWrite_gated (hgate : ∀ f, gate P f s = t) (w : CmdWord) : startWrite P w s = t := by
  unfold startWrite
  cases decode w with
  | ok i => simp only [beginCommand, accept, hgate]
  | error e => exact hgate _

/-- So does a register write, where a CMD write runs its command to the same. -/
theorem busWrite_gated {a : RegAddr} (hgate : ∀ f, gate P f s = t)
    (hrun : regAt a = .cmd → ∀ i, run i s = .next t) (d : BusData) : busWrite P run a d s = .next t := by
  unfold busWrite writeCommand
  split
  next ha =>
    cases decode (busWord d) with
    | ok i => exact hrun ha i
    | error e => exact congrArg _ (hgate _)
  next => exact congrArg _ (hgate _)

theorem hostStep_gated (hgate : ∀ f, gate P f { s with host := rest } = t)
    (hs : (∃ a d, s.host = .writeReg a d :: rest ∧
        (regAt a = .cmd → ∀ i, run i { s with host := rest } = .next t)) ∨
      ∃ d, s.host = .startCmd d :: rest) :
    hostStep P run s = .next t := by
  rcases hs with ⟨a, d, hs, hrun⟩ | ⟨d, hs⟩
  · exact (hostStep_cons P run hs).trans (busWrite_gated hgate hrun d)
  · exact (hostStep_cons P run hs).trans (congrArg _ (startWrite_gated hgate _))

end

/-- A register write, CMD included, whose command the modelled core runs. -/
theorem step_gated {s t : State} {a : RegAddr} {d : BusData} {rest : List HostMove}
    (hgate : ∀ f, gate Config.params f { s with host := rest } = t)
    (hexec : ∀ i, exec i { s with host := rest } = .next t)
    (hs : s.host = .writeReg a d :: rest ∨ s.host = .startCmd d :: rest) : step s = .next t :=
  hostStep_gated hgate (hs.imp (fun h => ⟨a, d, h, fun _ => hexec⟩) fun h => ⟨d, h⟩)

/-- A register write while BUSY, CMD included (60_exceptions.md R233). -/
theorem step_violated {s : State} {a : RegAddr} {d : BusData} {rest : List HostMove} (hv : Violated s)
    (hs : s.host = .writeReg a d :: rest ∨ s.host = .startCmd d :: rest) :
    step s = .next (busyViolation Config.params { s with host := rest }) :=
  step_gated (fun _ => gate_violated _ _ hv) (exec_violated hv) hs

/-- The same for any parameter record, but for a write that runs its command. -/
theorem hostStep_violated (P : Params) (run : Runner) {s : State} {rest : List HostMove} (hv : Violated s)
    (hs : (∃ a v, s.host = .writeReg a v :: rest ∧ regAt a ≠ .cmd) ∨ ∃ v, s.host = .startCmd v :: rest) :
    hostStep P run s = .next (busyViolation P { s with host := rest }) :=
  hostStep_gated (fun _ => gate_violated _ _ hv)
    (hs.imp_left fun ⟨a, v, h, ha⟩ => ⟨a, v, h, fun hcmd => absurd hcmd ha⟩)

/-- Settles O18: the gate and every command leave a deaf core as it is. -/
theorem faultedCoreIgnores : Obligations.FaultedCoreIgnores := fun _ hf =>
  ⟨exec_deaf (.inr hf), fun _ _ _ => step_gated (fun _ => gate_faulted _ _ hf) (exec_deaf (.inr hf))⟩

/-! ## a command at its issue -/

/-- In a core that is not busy a fault writes FAULT, CAUSE and INFO and nothing else (60_exceptions.md R240). -/
theorem raiseFault_of_not_busy (r : Refused) {s : State} (hb : s.status.busy = false) :
    raiseFault r s =
      { s with status := { s.status with fault := true, cause := r.cause, info := r.info } } := by
  rw [raiseFault, ← hb]

/-- Settles O22: a refused command raises its fault in a core that is not busy; an accepted one raises none. -/
theorem faultsArePrecise : Obligations.FaultsArePrecise := by
  intro i s t hi ht
  by_cases hr : Ready Config.params i s
  · obtain ⟨t', hexec, -, hfault⟩ := commandsComplete i s hi
    cases hexec.symm.trans ht
    exact ⟨fun hf => absurd hf (by simp [hfault hr]), by simp [hfault hr, hr]⟩
  · rcases beginCommand_cases Config.params i hi with ⟨-, r, -, hbegin⟩ | ⟨hready, -⟩
    · have hexec := exec_notReady hi hr
      rw [hbegin] at hexec
      cases hexec.symm.trans ht
      exact ⟨fun _ => raiseFault_of_not_busy r hi.2.1, iff_of_true rfl hr⟩
    · exact absurd hready hr

/-! ## where the machine stops -/

/-- Everything the host's access to XMEM can come to (20_memory.md R63, R74). -/
theorem hostXmem_cases (P : Params) (k : Nat) (f : State → State) (s : State) :
    (∃ t, hostXmem P k f s = .next t) ∨
    (s.status.busy = true ∧ hostXmem P k f s = .refused .xmemAccessWhileBusy) ∨
    (P.xmemSize ≤ k ∧ hostXmem P k f s = .fault (.noSuchXmemElement k)) := by
  unfold hostXmem
  split
  next hb => exact .inr (.inl ⟨hb, rfl⟩)
  next =>
    split
    next => exact .inl ⟨_, rfl⟩
    next hk => exact .inr (.inr ⟨Nat.le_of_not_lt hk, rfl⟩)

/-- A bus write is always answered, for no command stops the machine (60_exceptions.md R240). -/
theorem busWrite_next (a : RegAddr) (d : BusData) (s : State) :
    ∃ t, busWrite Config.params exec a d s = .next t := by
  rcases busWrite_cases a d s with ⟨-, h⟩ | ⟨-, h⟩ | ⟨-, -, i, -, h⟩ | ⟨-, -, -, h⟩ | ⟨-, -, h⟩
  case inr.inr.inl => exact ⟨_, h.trans (exec_eq i s)⟩
  all_goals exact ⟨_, h⟩

/-- Settles O40: every move but the two XMEM accesses is answered. -/
theorem stopsOnlyAtXmem : Obligations.StopsOnlyAtXmem := by
  intro s
  cases hs : s.host with
  | nil => exact .inl ⟨_, step_nil hs⟩
  | cons m rest =>
    rw [step_cons hs]
    cases m with
    | writeReg a d => exact .inl (busWrite_next a d _)
    | writeXmem k v => exact (hostXmem_cases _ k _ _).imp_right fun h => ⟨k, rest, .inr ⟨v, rfl⟩, h⟩
    | readXmem k => exact (hostXmem_cases _ k _ _).imp_right fun h => ⟨k, rest, .inl rfl, h⟩
    | startCmd d => exact .inl ⟨_, rfl⟩
    | readReg a => exact .inl ⟨_, rfl⟩
    | assertReset => exact .inl ⟨_, rfl⟩
    | releaseReset => exact .inl ⟨_, rfl⟩
    | wait => exact .inl ⟨_, rfl⟩

/-! ## the draws that leave given contents after a BUSY_VIOLATION -/

theorem drawUpTo_ofNat {m n : Nat} (hm : m ≤ n) (h : m < 2 ^ 64) : drawUpTo (BitVec.ofNat 64 m) n = m := by
  rw [drawUpTo, BitVec.toNat_ofNat, Nat.mod_eq_of_lt h, Nat.mod_eq_of_lt (Nat.lt_succ_of_le hm)]

theorem draw32_setWidth (v : F32) : draw32 (v.setWidth 64) = v := setWidth_bus v

/-- The group of draws that gives the registers of a DelayEngine and of an LFO, at the sites where `unspecifiedDly` and
`unspecifiedLfo` read them. -/
def registerDraws (d : DelayEngine) (l : Lfo) : Draws
  | 0 => d.sampleRate
  | 1 => BitVec.ofNat 64 d.writeIndex
  | 2 => d.feedbackSample
  | 3 => d.timeSmoothed
  | 4 => d.wetSmoothed
  | 5 => d.feedbackSmoothed
  | 6 => d.softClipSmoothed
  | 7 => l.sampleRate
  | 8 => l.phase.setWidth 64
  | 9 => BitVec.ofNat 64 l.valid
  | _ => 0

theorem unspecifiedDly_registerDraws {P : Params} {d : DelayEngine} (l : Lfo) (ρ : Draws) (hcap : P.cap ≤ 2 ^ 31 - 1)
    (hw : d.writeIndex < P.cap) :
    unspecifiedDly P (registerDraws d l) ρ = { d with ring := ringDrawn P ρ } := by
  have hwrite : drawUpTo (BitVec.ofNat 64 d.writeIndex) (P.cap - 1) = d.writeIndex :=
    drawUpTo_ofNat (by omega) (by omega)
  simp only [unspecifiedDly, registerDraws, hwrite]

theorem unspecifiedLfo_registerDraws {P : Params} (d : DelayEngine) {l : Lfo} (ρ : Draws) (hcap : P.cap ≤ 2 ^ 31 - 1)
    (hv : l.valid ≤ P.cap) :
    unspecifiedLfo P (registerDraws d l) ρ = { l with buf := lfoDrawn P ρ } := by
  have hvalid : drawUpTo (BitVec.ofNat 64 l.valid) P.cap = l.valid := drawUpTo_ofNat hv (by omega)
  simp only [unspecifiedLfo, registerDraws, hvalid, draw32_setWidth]

/-- Draws, from group n on, by which a BUSY_VIOLATION runs none of the moves left and leaves the given DelayEngine and
LFO: group n counts the moves, the next three give the registers, RING and LFOBUF. -/
def drawsLeaving (n : Nat) (d : DelayEngine) (l : Lfo) (group : Nat) : Draws :=
  match group - n with
  | 1 => registerDraws d l
  | 2 => ringRead d.ring
  | 3 => fun k => (lfoRead l.buf k).setWidth 64
  | _ => fun _ => 0

section

variable (n : Nat) (d : DelayEngine) (l : Lfo)

theorem drawsLeaving_moves : drawsLeaving n d l n = fun _ => 0 := by simp [drawsLeaving]

theorem drawsLeaving_registers : drawsLeaving n d l (n + 1) = registerDraws d l := by simp [drawsLeaving]

theorem drawsLeaving_ring : drawsLeaving n d l (n + 2) = ringRead d.ring := by simp [drawsLeaving]

theorem drawsLeaving_buf : drawsLeaving n d l (n + 3) = fun k => (lfoRead l.buf k).setWidth 64 := by
  simp [drawsLeaving]

end

/-- A command is abandoned before its next move where the draw says 0. -/
theorem abandon_zero {P : Params} {s : State} (h : P.draw s.drawCount 0 = 0) :
    abandon P s = { s with drawCount := s.drawCount + 1 } := by
  simp [abandon, h, drawUpTo]

/-- Every DelayEngine and LFO within their ranges is what some draws leave. -/
theorem busyViolation_drawsLeaving {P : Params} (s : State) {d : DelayEngine} {l : Lfo} (hcap : P.cap ≤ 2 ^ 31 - 1)
    (hw : d.writeIndex < P.cap) (hv : l.valid ≤ P.cap) :
    (busyViolation { P with draw := drawsLeaving s.drawCount d l } s).dly =
        { d with ring := ringDrawn P (ringRead d.ring) } ∧
      (busyViolation { P with draw := drawsLeaving s.drawCount d l } s).lfo =
        { l with buf := lfoDrawn P fun k => (lfoRead l.buf k).setWidth 64 } := by
  have hmoves : drawsLeaving s.drawCount d l s.drawCount 0 = 0 := by rw [drawsLeaving_moves]
  rw [busyViolation_eq, abandon_zero hmoves]
  dsimp only
  rw [drawsLeaving_registers, drawsLeaving_ring, drawsLeaving_buf]
  exact ⟨unspecifiedDly_registerDraws l _ hcap hw, unspecifiedLfo_registerDraws d _ hcap hv⟩

end Sys2Proof.Machine

/-! SUPPORT. A register write while BUSY (60_exceptions.md R233, 93_implementation_defined.md U10). The model's
operation is named `Sys2Proof.Machine.busyViolation`, so the statement about it is settled in a namespace of its own. -/

namespace Sys2Proof.Faults

open Machine

/-- Settles O19: the abandoned command has made some of its moves and all else is drawn or as before; and the draws can
be such that they leave any contents. -/
theorem busyViolation : Obligations.BusyViolation := by
  constructor
  · intro s a d rest i hv hs hd
    obtain ⟨n, hn, habandon⟩ := abandon_eq Config.params (s := { s with host := rest }) hd
    have hxmem := xmemRead_interruptedXmem (s := { s with host := rest }) hv.2.2
    refine ⟨n, _, hn, step_violated hv hs, ⟨?_, ?_⟩,
      busyViolation_regs .., (busyViolation_rst ..).trans hv.1, busyViolation_host .., busyViolation_hostData ..,
      fun k r => (hxmem k r).1, fun k r => (hxmem k r).2, (unspecifiedDly_inv params_cap_pos _ _).1,
      (unspecifiedLfo_inv _ _ _).1⟩
    · rw [busyViolation_status, habandon]
    · rw [busyViolation_result, habandon]
  · intro P run s rest d l hv hs hcap hw hvalid
    obtain ⟨hdly, hlfo⟩ := busyViolation_drawsLeaving { s with host := rest } hcap hw hvalid
    refine ⟨drawsLeaving s.drawCount d l, _, hostStep_violated _ run hv hs, ?_⟩
    rw [hdly, hlfo]
    refine ⟨rfl, fun k hk => ringRead_ringDrawn _ _ hk, rfl, fun k hk => ?_⟩
    rw [lfoRead_lfoDrawn _ _ hk, draw32_setWidth]

end Sys2Proof.Faults

/-! SUPPORT. The input rst (70_reset_and_hazards.md R260, 93_implementation_defined.md U19): its assertion and release
as steps, and the bus while it is held. -/

namespace Sys2Proof.Machine

section

variable {s : State} {rest : List HostMove}

theorem step_assertReset (hs : s.host = .assertReset :: rest) :
    step s = .next (assertReset Config.params { s with host := rest }) := step_cons hs

theorem step_releaseReset (hs : s.host = .releaseReset :: rest) (hr : s.rst = true) :
    step s = .next (resetCore Config.params false { s with host := rest }) := by
  rw [step_cons hs, hostMove, releaseReset_held _ (s := { s with host := rest }) hr]

/-- A core held in reset ignores a bus write, CMD included. -/
theorem step_write_held {a : RegAddr} {d : BusData} (hr : s.rst = true)
    (hs : s.host = .writeReg a d :: rest ∨ s.host = .startCmd d :: rest) :
    step s = .next { s with host := rest } :=
  step_gated (fun _ => gate_held _ _ hr) (exec_deaf (.inl hr)) hs

/-- A read of a core held in reset gives the host a draw. -/
theorem step_read_held {a : RegAddr} (hr : s.rst = true) (hs : s.host = .readReg a :: rest) :
    step s = .next { s with
      host := rest, hostData := Config.draw s.drawCount 0, drawCount := s.drawCount + 1 } := by
  rw [step_cons hs, hostMove, busRead_held _ a (s := { s with host := rest }) hr]
  rfl

end

/-- Settles O12: either edge of rst leaves `resetCore`, the assertion with the XMEM of an interrupted command; the gate
leaves a held core as it is. -/
theorem hardwareResetMove : Obligations.HardwareResetMove := by
  refine ⟨fun s rest hs => ?assertion, fun s rest hs hr => ?release, fun s rest hr => ?held⟩
  case assertion =>
    have hxmem := xmemRead_assertReset Config.params { s with host := rest }
    refine ⟨_, step_assertReset hs, ?_, ?_, ?_, ?_, fun k r => (hxmem k r).1, fun k r => (hxmem k r).2⟩
    all_goals rw [assertReset_eq]
    · exact ⟨rfl, rfl, rfl, rfl, rfl⟩
    all_goals rfl
  case release =>
    exact ⟨_, step_releaseReset hs hr, ⟨rfl, rfl, rfl, rfl, rfl⟩, rfl, rfl, rfl, rfl⟩
  case held =>
    exact ⟨fun a d hs => step_write_held hr (.inl hs), fun d hs => step_write_held (a := 0) hr (.inr hs),
      fun a hs => step_read_held hr hs⟩

end Sys2Proof.Machine
